-- ==== Sys2Proof/Word.lean ====
section
/-! DEFINITION. Sys2Proof/Word.lean: the plain data of DHT-CORE: bytes, the sensor handle,
and the enumerations whose codes 30_encoding.md fixes (the codes themselves are in Decode.lean). Times
and durations are natural numbers of microseconds (00_scope R10 `TIME_W`, 60_exceptions R224). -/

namespace Sys2Proof

/-- A byte of the frame: "All bytes are unsigned 8-bit values" (00_scope R13). -/
abbrev Byte := BitVec 8

/-- The Sensor Handle: "an opaque identifier for the GPIO line bound to a sensor" (10_state R23).
`PIN_W` is open, so the handle is a wrapped number of any size on which nothing computes.
DESIGN CHOICE, safe: log 6. -/
structure Pin where
  handle : Nat
deriving DecidableEq, Repr

/-- A line level: LOW = 0, HIGH = 1 (30_encoding R85). -/
inductive Level where
  | low
  | high
deriving DecidableEq, Repr

/-- A pin direction: INPUT = 0, OUTPUT = 1 (30_encoding R86). -/
inductive Dir where
  | input
  | output
deriving DecidableEq, Repr

/-- The answer of `SetDir` and `SetLevel`: ok or fail (00_scope R11). -/
inductive Answer where
  | ok
  | fail
deriving DecidableEq, Repr

/-- Result/Status, "an enumerated outcome of every operation" (60_exceptions R210). -/
inductive Status where
  | ok
  | gpioError
  | badChecksum
  | timeout
deriving DecidableEq, Repr

/-- The four places an AWAIT_LEVEL is started from (41_edge_waiter R120, 30_encoding R90). -/
inductive Site where
  | hsRise
  | hsFall
  | bitRise
  | bitFall
deriving DecidableEq, Repr

/-- The fifteen phases of the sequencer (30_encoding R89); code 15 is none of them (R91). -/
inductive Phase where
  | idle
  | initDir
  | initLvl
  | rqDirOut
  | rqLow
  | rqDlyLow
  | rqHigh
  | rqDlyHigh
  | rqDirIn
  | ewEntry
  | ewPoll
  | bitStore
  | faSettle
  | check
  | decode
deriving DecidableEq, Repr

end Sys2Proof
end

