-- ==== Sys2Proof/Config.lean ====
section
/-! DEFINITION. Sys2Proof/Config.lean: the shape of the timing profile (10_state R36) and the one free
value. The profile's numbers, `CFG`, stand in Machine/Operands.lean. -/

namespace Sys2Proof

/-- The Timing Constants: "read-only, hardwired configuration" (10_state R36), each a non-negative
number of microseconds. -/
structure Config where
  requestLow            : Nat
  requestHigh           : Nat
  readySignalHalf       : Nat
  dataBitLow            : Nat
  dataBitHighThreshold  : Nat
  bitLengthThreshold    : Nat
  interBitSettle        : Nat
  handshakeTimeoutMargin : Nat
  bitTimeoutMargin      : Nat
deriving DecidableEq, Repr

/-- FREE VALUE (log 4): what `ew_elapsed` becomes when the clock value of a poll is below the wait's
entry value. "a clock that steps backwards makes `elapsed` negative, which the rules do not define"
(70_reset_and_hazards R249); 93 U2: "`any value` of `elapsed`". First argument `ew_t0`, second the
poll's clock value. -/
opaque Config.elapsedOfBackwardClock : Nat → Nat → Nat

end Sys2Proof
end

