-- ==== Sys2Proof/Syntax.lean ====
section
/-! DEFINITION. Sys2Proof/Syntax.lean: the operations of DHT-CORE, one constructor for each row of
spec/opcode_table.json, in the table's order and grouped by its six formats (30_encoding R81). -/

namespace Sys2Proof

/-- What the spec names as an operation, a step, a wait, a request or an ending of the block. -/
inductive Instr where
  -- format CMD: host commands, `cmd_op`, operand `cmd_pin` (R82)
  | nop
  | init (pin : Pin)
  | read (pin : Pin)
  | cmdReserved
  -- format OP: component operations, named by their entry phase (R81, R97)
  | requestReadings
  | awaitLevel
  | awaitData
  | readBit
  | assembleFrame
  | validateChecksum
  | decodeReading
  -- format PHASE: one step of the sequencer (R89, R91)
  | idle
  | initDir
  | initLvl
  | rqDirOut
  | rqLow
  | rqDlyLow
  | rqHigh
  | rqDlyHigh
  | rqDirIn
  | ewEntry
  | ewPoll
  | bitStore
  | faSettle
  | check
  | decode
  | phaseReserved
  -- format SITE: the wait at a site (R90, R120)
  | hsRise
  | hsFall
  | bitRise
  | bitFall
  -- format GPIO: requests on the GPIO port, `g_op` and `g_arg` (R87)
  | getLevel (arg : BitVec 1)
  | setLevel (level : Level)
  | setDirection (dir : Dir)
  | gpioReserved (arg : BitVec 1)
  -- format STATUS: the ending of a command with a status (R84, R196)
  | ok
  | gpioError
  | badChecksum
  | timeout
deriving DecidableEq, Repr

end Sys2Proof
end

