-- ==== Sys2Proof/WellFormed.lean ====
section
/-! DEFINITION. Sys2Proof/WellFormed.lean: which terms of Instr the encoding of 30_encoding.md admits. -/

namespace Sys2Proof

/-- The one operand the encoding restricts: "The argument bit `g_arg` … is 0 for GET_LEVEL"
(30_encoding R87). Every other operand may take every value. -/
def Instr.wellFormed : Instr → Bool
  | .getLevel arg => arg == 0#1
  | .nop | .init _ | .read _ | .cmdReserved
  | .requestReadings | .awaitLevel | .awaitData | .readBit | .assembleFrame
  | .validateChecksum | .decodeReading
  | .idle | .initDir | .initLvl | .rqDirOut | .rqLow | .rqDlyLow | .rqHigh | .rqDlyHigh
  | .rqDirIn | .ewEntry | .ewPoll | .bitStore | .faSettle | .check | .decode | .phaseReserved
  | .hsRise | .hsFall | .bitRise | .bitFall
  | .setLevel _ | .setDirection _ | .gpioReserved _
  | .ok | .gpioError | .badChecksum | .timeout => true

end Sys2Proof
end

