-- ==== Sys2Proof/Decode.lean ====
section
/-! DEFINITION. Sys2Proof/Decode.lean: the codes of 30_encoding.md, the decoder of the six formats of
spec/opcode_table.json, and after it the encoder, each written from the spec's tables. -/

namespace Sys2Proof

/-! ### The enumerations' codes -/

/-- Status codes (30_encoding R84). -/
def Status.code : Status → BitVec 2
  | .ok => 0b00#2
  | .gpioError => 0b01#2
  | .badChecksum => 0b10#2
  | .timeout => 0b11#2

/-- Level codes (30_encoding R85). -/
def Level.code : Level → BitVec 1
  | .low => 0#1
  | .high => 1#1

/-- The level a code bit stands for (30_encoding R85). -/
def Level.ofCode (b : BitVec 1) : Level := if b = 1#1 then .high else .low

/-- Direction codes (30_encoding R86). -/
def Dir.code : Dir → BitVec 1
  | .input => 0#1
  | .output => 1#1

/-- The direction a code bit stands for (30_encoding R86). -/
def Dir.ofCode (b : BitVec 1) : Dir := if b = 1#1 then .output else .input

/-- Site codes (30_encoding R90). -/
def Site.code : Site → BitVec 2
  | .hsRise => 0b00#2
  | .hsFall => 0b01#2
  | .bitRise => 0b10#2
  | .bitFall => 0b11#2

/-- Phase codes (30_encoding R89). -/
def Phase.code : Phase → BitVec 4
  | .idle => 0#4
  | .initDir => 1#4
  | .initLvl => 2#4
  | .rqDirOut => 3#4
  | .rqLow => 4#4
  | .rqDlyLow => 5#4
  | .rqHigh => 6#4
  | .rqDlyHigh => 7#4
  | .rqDirIn => 8#4
  | .ewEntry => 9#4
  | .ewPoll => 10#4
  | .bitStore => 11#4
  | .faSettle => 12#4
  | .check => 13#4
  | .decode => 14#4

/-- The phase a code of the `phase` register stands for; `1111` stands for none (30_encoding R89, R91). -/
def Phase.ofCode (c : BitVec 4) : Option Phase :=
  match c.toNat with
  | 0 => some .idle
  | 1 => some .initDir
  | 2 => some .initLvl
  | 3 => some .rqDirOut
  | 4 => some .rqLow
  | 5 => some .rqDlyLow
  | 6 => some .rqHigh
  | 7 => some .rqDlyHigh
  | 8 => some .rqDirIn
  | 9 => some .ewEntry
  | 10 => some .ewPoll
  | 11 => some .bitStore
  | 12 => some .faSettle
  | 13 => some .check
  | 14 => some .decode
  | _ => none

/-! ### Codes with their format -/

/-- An operation as it is written down in one of the table's formats. `op` is not encoded on any port
(30_encoding R81): it is named by its entry phase and, where the table says so, by the entry values of
`site` and of (`byte_idx`, `bit_idx`). -/
inductive Code where
  | cmd (cmdOp : BitVec 2) (cmdPin : Pin)
  | op (entryPhase : BitVec 4) (entrySite : Option (BitVec 2)) (entryIdx : Option (BitVec 3 × BitVec 3))
  | phase (code : BitVec 4)
  | site (code : BitVec 2)
  | gpio (gOp : BitVec 2) (gArg : BitVec 1)
  | status (code : BitVec 2)
deriving DecidableEq, Repr

/-- Why a code is no operation. -/
inductive DecodeReject where
  /-- No row of format OP begins at these entry values (opcode_table.json). -/
  | noOperationEntersHere
  /-- GET_LEVEL with `g_arg = 1`: "`g_arg` … is 0 for GET_LEVEL" (30_encoding R87). -/
  | getLevelWithArgument
deriving DecidableEq, Repr

/-- What the decoder answers. -/
inductive Decoded where
  | instr (i : Instr)
  | rejected (r : DecodeReject)
deriving DecidableEq, Repr

/-! ### The decoder -/

/-- Format CMD (30_encoding R82); NOP and the reserved code ignore the operand. -/
def decodeCmd (cmdOp : BitVec 2) (cmdPin : Pin) : Instr :=
  match cmdOp.toNat with
  | 0 => .nop
  | 1 => .init cmdPin
  | 2 => .read cmdPin
  | _ => .cmdReserved

/-- Format OP: the entry phase of 30_encoding R89, with the entry `site` and counters that
opcode_table.json gives AWAIT_DATA, READ_BIT and ASSEMBLE_FRAME. -/
def decodeOp (entryPhase : BitVec 4) (entrySite : Option (BitVec 2))
    (entryIdx : Option (BitVec 3 × BitVec 3)) : Decoded :=
  if entryPhase = 0b0011#4 ∧ entrySite = none ∧ entryIdx = none then .instr .requestReadings
  else if entryPhase = 0b1001#4 ∧ entrySite = none ∧ entryIdx = none then .instr .awaitLevel
  else if entryPhase = 0b1001#4 ∧ entrySite = some 0b00#2 ∧ entryIdx = none then .instr .awaitData
  else if entryPhase = 0b1001#4 ∧ entrySite = some 0b10#2 ∧ entryIdx = none then .instr .readBit
  else if entryPhase = 0b1001#4 ∧ entrySite = some 0b10#2 ∧ entryIdx = some (0#3, 0#3) then
    .instr .assembleFrame
  else if entryPhase = 0b1101#4 ∧ entrySite = none ∧ entryIdx = none then .instr .validateChecksum
  else if entryPhase = 0b1110#4 ∧ entrySite = none ∧ entryIdx = none then .instr .decodeReading
  else .rejected .noOperationEntersHere

/-- The step a phase names (30_encoding R89). -/
def Phase.instr : Phase → Instr
  | .idle => .idle
  | .initDir => .initDir
  | .initLvl => .initLvl
  | .rqDirOut => .rqDirOut
  | .rqLow => .rqLow
  | .rqDlyLow => .rqDlyLow
  | .rqHigh => .rqHigh
  | .rqDlyHigh => .rqDlyHigh
  | .rqDirIn => .rqDirIn
  | .ewEntry => .ewEntry
  | .ewPoll => .ewPoll
  | .bitStore => .bitStore
  | .faSettle => .faSettle
  | .check => .check
  | .decode => .decode

/-- Format PHASE: what the sequencer's step reads from the `phase` register (30_encoding R89, R91). -/
def decodePhase (c : BitVec 4) : Instr :=
  match Phase.ofCode c with
  | some p => p.instr
  | none => .phaseReserved

/-- Format SITE (30_encoding R90). -/
def decodeSite (c : BitVec 2) : Instr :=
  match c.toNat with
  | 0 => .hsRise
  | 1 => .hsFall
  | 2 => .bitRise
  | _ => .bitFall

/-- Format GPIO (30_encoding R87). -/
def decodeGpio (gOp : BitVec 2) (gArg : BitVec 1) : Decoded :=
  match gOp.toNat with
  | 0 => if gArg = 0#1 then .instr (.getLevel 0#1) else .rejected .getLevelWithArgument
  | 1 => .instr (.setLevel (Level.ofCode gArg))
  | 2 => .instr (.setDirection (Dir.ofCode gArg))
  | _ => .instr (.gpioReserved gArg)

/-- Format STATUS (30_encoding R84). -/
def decodeStatus (c : BitVec 2) : Instr :=
  match c.toNat with
  | 0 => .ok
  | 1 => .gpioError
  | 2 => .badChecksum
  | _ => .timeout

/-- The decoder, total on every code of every format, rejecting by name. -/
def decode : Code → Decoded
  | .cmd cmdOp cmdPin => .instr (decodeCmd cmdOp cmdPin)
  | .op entryPhase entrySite entryIdx => decodeOp entryPhase entrySite entryIdx
  | .phase c => .instr (decodePhase c)
  | .site c => .instr (decodeSite c)
  | .gpio gOp gArg => decodeGpio gOp gArg
  | .status c => .instr (decodeStatus c)

/-- The instruction of a decoder's answer. -/
def Decoded.toOption : Decoded → Option Instr
  | .instr i => some i
  | .rejected _ => none

/-- The table's own numbering of an operation's bits, read by this decoder. Two bits are a command
code (`cmd_op`; the operand stands on a port of its own and is handle 0 here), three bits are
`{g_op, g_arg}`, and any other count is the 4-bit `phase` code, the one word the sequencer itself
fetches (10_state R21). The table gives the same numbers to rows of several formats; log 8. -/
def decodeTableWord (nbits w : Nat) : Option Instr :=
  if nbits = 2 then
    if w < 4 then (decode (.cmd (BitVec.ofNat 2 w) ⟨0⟩)).toOption else none
  else if nbits = 3 then
    if w < 8 then (decode (.gpio (BitVec.ofNat 2 (w / 2)) (BitVec.ofNat 1 w))).toOption else none
  else
    if w < 16 then (decode (.phase (BitVec.ofNat 4 w))).toOption else none

/-! ### The encoder -/

/-- The code of an operation, from the same tables (30_encoding R82, R84, R87, R89, R90;
opcode_table.json for format OP). An ignored `cmd_pin` is written as handle 0. -/
def encode : Instr → Code
  | .nop => .cmd 0b00#2 ⟨0⟩
  | .init pin => .cmd 0b01#2 pin
  | .read pin => .cmd 0b10#2 pin
  | .cmdReserved => .cmd 0b11#2 ⟨0⟩
  | .requestReadings => .op 0b0011#4 none none
  | .awaitLevel => .op 0b1001#4 none none
  | .awaitData => .op 0b1001#4 (some 0b00#2) none
  | .readBit => .op 0b1001#4 (some 0b10#2) none
  | .assembleFrame => .op 0b1001#4 (some 0b10#2) (some (0#3, 0#3))
  | .validateChecksum => .op 0b1101#4 none none
  | .decodeReading => .op 0b1110#4 none none
  | .idle => .phase 0b0000#4
  | .initDir => .phase 0b0001#4
  | .initLvl => .phase 0b0010#4
  | .rqDirOut => .phase 0b0011#4
  | .rqLow => .phase 0b0100#4
  | .rqDlyLow => .phase 0b0101#4
  | .rqHigh => .phase 0b0110#4
  | .rqDlyHigh => .phase 0b0111#4
  | .rqDirIn => .phase 0b1000#4
  | .ewEntry => .phase 0b1001#4
  | .ewPoll => .phase 0b1010#4
  | .bitStore => .phase 0b1011#4
  | .faSettle => .phase 0b1100#4
  | .check => .phase 0b1101#4
  | .decode => .phase 0b1110#4
  | .phaseReserved => .phase 0b1111#4
  | .hsRise => .site 0b00#2
  | .hsFall => .site 0b01#2
  | .bitRise => .site 0b10#2
  | .bitFall => .site 0b11#2
  | .getLevel arg => .gpio 0b00#2 arg
  | .setLevel level => .gpio 0b01#2 level.code
  | .setDirection dir => .gpio 0b10#2 dir.code
  | .gpioReserved arg => .gpio 0b11#2 arg
  | .ok => .status 0b00#2
  | .gpioError => .status 0b01#2
  | .badChecksum => .status 0b10#2
  | .timeout => .status 0b11#2

/-- A code with the operand that its command ignores set to handle 0: "Operand: ignored"
(30_encoding R82, codes 00 and 11). -/
def Code.withoutIgnored : Code → Code
  | .cmd cmdOp cmdPin => if cmdOp = 0b00#2 ∨ cmdOp = 0b11#2 then .cmd cmdOp ⟨0⟩ else .cmd cmdOp cmdPin
  | c => c

end Sys2Proof
end

