-- ==== Sys2Proof/Machine/State.lean ====
section
/-! DEFINITION. Sys2Proof/Machine/State.lean: the registers of 10_state.md, the model's own record of the
environment's answers and of the trace, the ways a step can stop, and the reset state. -/

namespace Sys2Proof.Machine

/-- What the input ports show in one step (30_encoding R95, less `clk`). -/
structure Inputs where
  /-- `rst`, active high (70_reset_and_hazards R240). -/
  rst      : Bool
  /-- `cmd_valid`: the host presents a command. -/
  cmdValid : Bool
  /-- `cmd_op` (R82). -/
  cmdOp    : BitVec 2
  /-- `cmd_pin`, the sensor handle. -/
  cmdPin   : Pin
  /-- `g_ack`: the GPIO answer is valid. -/
  gAck     : Bool
  /-- `g_fail`, with `g_ack`: the operation failed; ignored for GET_LEVEL. -/
  gFail    : Bool
  /-- `g_level`, with `g_ack` of GET_LEVEL: the level read. -/
  gLevel   : Level
  /-- `time_us`: the free-running microsecond counter. -/
  timeUs   : Nat
  /-- `d_ack`: the delay is over. -/
  dAck     : Bool
deriving DecidableEq, Repr

/-- The two commands that are ever accepted (48_commands R190). -/
inductive Command where
  | init
  | read
deriving DecidableEq, Repr

/-- One entry of the trace, the alphabet of 00_scope R8. -/
inductive Event where
  /-- `CMD(op, pin)`. -/
  | cmd (op : Command) (pin : Pin)
  /-- `SETDIR(pin, dir) = answer`. -/
  | setDir (pin : Pin) (dir : Dir) (answer : Answer)
  /-- `SETLVL(pin, level) = answer`. -/
  | setLvl (pin : Pin) (level : Level) (answer : Answer)
  /-- `NOW = t`. -/
  | now (t : Nat)
  /-- `SAMPLE(pin) = (level, t)`. -/
  | sample (pin : Pin) (level : Level) (t : Nat)
  /-- `DELAY(d)`. -/
  | delay (d : Nat)
  /-- `FIN(status)`. -/
  | fin (status : Status)
deriving DecidableEq, Repr

/-- The machine. The first block of fields is the spec's ("The whole state of the block is the
following registers and nothing else", 10_state R20); the last two are the model's own. -/
structure State where
  /-- `phase`, 4 bits: the program counter (R21). The 4 bits of R20 are held, so that the reserved
  code 1111 can be fetched and run as R91 says; every write goes through a `Phase` (log 5). -/
  phase      : BitVec 4
  /-- `site`, 2 bits: the running wait, the return link (R22). -/
  site       : Site
  /-- `pin`: the latched sensor handle (R23). -/
  pin        : Pin
  /-- `buf[0..4]`: the raw frame buffer (R24). -/
  buf        : Vector Byte 5
  /-- `byte_idx`, 3 bits, values 0..4 (R25; 93 U23: "the index type is 0..4"). -/
  byteIdx    : Fin 5
  /-- `bit_idx`, 3 bits, values 0..7 (R26). -/
  bitIdx     : Fin 8
  /-- `ew_t0`: the clock value at the wait's entry (R27). -/
  ewT0       : Nat
  /-- `ew_elapsed`: the elapsed time at the latest poll (R28). -/
  ewElapsed  : Nat
  /-- `status`: the outcome of the last finished command (R29). -/
  status     : Status
  /-- `done`: `status` is valid (R31). -/
  done       : Bool
  /-- `rd_humidity`: tenths of a percent (R32). -/
  rdHumidity : BitVec 16
  /-- `rd_temp_neg`: the temperature's sign (R33). -/
  rdTempNeg  : Bool
  /-- `rd_temp_mag`: the temperature's magnitude in tenths of a degree (R33). -/
  rdTempMag  : BitVec 15
  /-- `rd_checksum`: the checksum byte as received (R35). -/
  rdChecksum : Byte
  /-- THE MODEL'S OWN (log 1): what the input ports show, this step's record first. A step consumes
  one; where the list is empty the environment presents and answers nothing. -/
  inputs     : List Inputs
  /-- THE MODEL'S OWN (log 2): the trace of 00_scope R8, in the order executed. -/
  trace      : List Event
deriving DecidableEq, Repr

/-- Why a step could stop with a fault: for no reason. "The block cannot crash, fault or reach an
undefined state" (60_exceptions R230), so no constructor is needed and nothing raises one; safe. -/
inductive Fault where
deriving DecidableEq, Repr

/-- Why an operation has no next state. -/
inductive Refusal where
  /-- Raised by an arm of `exec` whose instruction has no meaning yet; no arm does. Safe: the model stops. -/
  | notModelled (mnemonic : String)
  /-- Raised by `execGpioReserved`: `g_op = 11` "is reserved and the block never issues it"
  (30_encoding R87); "the GPIO layer's response to it is not the block's concern" (93 U22). Safe: the
  model stops where the spec gives no effect. -/
  | reservedGpioRequest
deriving DecidableEq, Repr

/-- The machine right after reset (10_state R40, 70_reset_and_hazards R241). `pin`, `ew_t0` and
`ew_elapsed` "are unspecified after reset": their values here are the model's, DESIGN CHOICE, unsafe,
log 3. The two model fields: nothing presented, nothing answered (log 1), no transaction yet (log 2). -/
def State.reset : State where
  phase      := Phase.idle.code
  site       := .hsRise
  pin        := ⟨0⟩
  buf        := #v[0#8, 0#8, 0#8, 0#8, 0#8]
  byteIdx    := 0
  bitIdx     := 0
  ewT0       := 0
  ewElapsed  := 0
  status     := .ok
  done       := false
  rdHumidity := 0#16
  rdTempNeg  := false
  rdTempMag  := 0#15
  rdChecksum := 0#8
  inputs     := []
  trace      := []

end Sys2Proof.Machine
end

