-- ==== Sys2Proof/Machine/Operands.lean ====
section
/-! DEFINITION. Sys2Proof/Machine/Operands.lean: the timing profile and every operand that is computed
rather than carried (30_encoding R94): bounds, targets, elapsed time, bit position, 16-bit words. -/

namespace Sys2Proof

/-- The one supported timing profile, "Fixed microsecond values (must be reproduced exactly …)"
(10_state R36). -/
def CFG : Config where
  requestLow             := 3000
  requestHigh            := 20
  readySignalHalf        := 80
  dataBitLow             := 50
  dataBitHighThreshold   := 70
  bitLengthThreshold     := 40
  interBitSettle         := 10
  handshakeTimeoutMargin := 10
  bitTimeoutMargin       := 20

/-- `HS_BOUND = ready_signal_half + handshake_timeout_margin` (10_state R37). -/
def hsBound : Nat := CFG.readySignalHalf + CFG.handshakeTimeoutMargin

/-- `BIT_LOW_BOUND = data_bit_low + bit_timeout_margin` (10_state R37). -/
def bitLowBound : Nat := CFG.dataBitLow + CFG.bitTimeoutMargin

/-- `BIT_HIGH_BOUND = data_bit_high_threshold + bit_timeout_margin` (10_state R37). -/
def bitHighBound : Nat := CFG.dataBitHighThreshold + CFG.bitTimeoutMargin

/-- The level a wait looks for (30_encoding R90, column Target). -/
def Site.target : Site → Level
  | .hsRise => .high
  | .hsFall => .low
  | .bitRise => .high
  | .bitFall => .low

/-- The bound of a wait in microseconds (30_encoding R90, column Bound). -/
def Site.bound : Site → Nat
  | .hsRise => hsBound
  | .hsFall => hsBound
  | .bitRise => bitLowBound
  | .bitFall => bitHighBound

/-- `elapsed`: "the clock value returned inside that poll's `Sample` minus the value returned by the
wait's own `Now()`" (41_edge_waiter R113). Below the entry value the rules define none: a free value
(log 4). -/
def elapsedSince (t0 t : Nat) : Nat :=
  if t0 ≤ t then t - t0 else Config.elapsedOfBackwardClock t0 t

/-- `bit << (7 - bit_idx)` (44_bit_decoder R153). -/
def bitMask (bit : Bool) (bitIdx : Fin 8) : Byte :=
  (if bit then 1#8 else 0#8) <<< (7 - bitIdx.val)

/-- `(buf[0] + buf[1] + buf[2] + buf[3]) mod 256`: the 8-bit adder chain with the carries dropped at
every stage (46_checksum_validator R172). -/
def checksumOf (buf : Vector Byte 5) : Byte := buf[0] + buf[1] + buf[2] + buf[3]

/-- Humidity word, `{buf[0], buf[1]}` (47_reading_decoder R181). -/
def humidityOf (buf : Vector Byte 5) : BitVec 16 := buf[0] ++ buf[1]

/-- Temperature magnitude, `{buf[2][6:0], buf[3]}` (47_reading_decoder R182). -/
def tempMagOf (buf : Vector Byte 5) : BitVec 15 := buf[2].extractLsb' 0 7 ++ buf[3]

/-- Temperature sign, `buf[2][7]` (47_reading_decoder R183). -/
def tempNegOf (buf : Vector Byte 5) : Bool := buf[2].getLsbD 7

/-- `rd_temperature` of a sign and a magnitude: `+mag` or `-mag` in 16-bit two's complement
(10_state R34). -/
def temperatureOf (neg : Bool) (mag : BitVec 15) : BitVec 16 :=
  if neg then -(mag.zeroExtend 16) else mag.zeroExtend 16

end Sys2Proof
end

