-- ==== Sys2Proof/Machine/Flags.lean ====
section
/-! DEFINITION. Sys2Proof/Machine/Flags.lean: the tests the block makes ("the five tests", 48_commands
R203) and the flags that are functions of the state. -/

namespace Sys2Proof

/-- The inclusive timeout test `elapsed >= bound` (41_edge_waiter R115). -/
def boundReached (elapsed bound : Nat) : Bool := decide (bound ≤ elapsed)

/-- The decision boundary: `t_high < bit_length_threshold` is 0, else 1 (44_bit_decoder R153). -/
def bitValue (tHigh : Nat) : Bool := decide (CFG.bitLengthThreshold ≤ tHigh)

/-- `buf[4] == (buf[0] + buf[1] + buf[2] + buf[3]) mod 256` (46_checksum_validator R170). -/
def checksumValid (buf : Vector Byte 5) : Bool := buf[4] == checksumOf buf

/-- The loop test of FA_SETTLE: the fortieth bit is done (45_frame_assembler R163). -/
def lastBit (byteIdx : Fin 5) (bitIdx : Fin 8) : Bool := byteIdx == 4 && bitIdx == 7

namespace Machine

/-- `busy` "is the function `phase != IDLE`" (10_state R30); code 1111 is treated as IDLE
(30_encoding R91). -/
def State.busy (s : State) : Bool :=
  match Phase.ofCode s.phase with
  | some .idle | none => false
  | some _ => true

/-- `rd_temperature`, a function of two registers (10_state R34). -/
def State.rdTemperature (s : State) : BitVec 16 := temperatureOf s.rdTempNeg s.rdTempMag

end Machine

end Sys2Proof
end

