-- ==== Sys2Proof/Machine/Ops.lean ====
section
/-! DEFINITION. Sys2Proof/Machine/Ops.lean: the named operations every step is written with: the port
record of a step, the transactions of 00_scope R11, `phase <- P`, `finish` (what taking an exception is
on this block), acceptance of a command, the frame buffer's store, reset, and the fetch. -/

namespace Sys2Proof.Machine

/-- The three outcomes of an operation of this block. -/
abbrev Out := Host.Outcome State Fault Refusal

/-! ### The step's port record -/

/-- What ports show when nothing drives them: no reset, no command, no acknowledge. -/
def Inputs.quiet : Inputs where
  rst := false
  cmdValid := false
  cmdOp := 0b00#2
  cmdPin := ⟨0⟩
  gAck := false
  gFail := false
  gLevel := .low
  timeUs := 0
  dAck := false

/-- The step is over: the ports' next record is due. -/
def State.tick (s : State) : State := { s with inputs := s.inputs.tail }

/-- `rst = 1` in this step (70_reset_and_hazards R240). -/
def State.rstAsserted (s : State) : Bool :=
  match s.inputs with
  | r :: _ => r.rst
  | [] => false

/-- The answer to `SetDir` or `SetLevel` in this step: with `g_ack`, `g_fail` says which
(30_encoding R87); without it the request is held (R95). -/
def State.gpioAnswer (s : State) : Option Answer :=
  match s.inputs with
  | r :: _ => if r.gAck then some (if r.gFail then .fail else .ok) else none
  | [] => none

/-- The answer to `Sample` in this step: the level with the `g_ack` of GET_LEVEL and the clock "in the
step where the GET_LEVEL is acknowledged" (30_encoding R95); `g_fail` is ignored (R87). -/
def State.sampleAnswer (s : State) : Option (Level × Nat) :=
  match s.inputs with
  | r :: _ => if r.gAck then some (r.gLevel, r.timeUs) else none
  | [] => none

/-- The answer to `Now()` in this step: port `time_us` (30_encoding R95). -/
def State.nowAnswer (s : State) : Option Nat :=
  match s.inputs with
  | r :: _ => some r.timeUs
  | [] => none

/-- The delay is over in this step: `d_ack` (30_encoding R95). -/
def State.delayAnswer (s : State) : Bool :=
  match s.inputs with
  | r :: _ => r.dAck
  | [] => false

/-- The command presented in this step, if `cmd_valid = 1`, read by the decoder (30_encoding R82). -/
def State.presented (s : State) : Option Instr :=
  match s.inputs with
  | r :: _ => if r.cmdValid then some (decodeCmd r.cmdOp r.cmdPin) else none
  | [] => none

/-! ### Register transfers -/

/-- `phase <- P` (00_scope R13). -/
def State.goto (s : State) (p : Phase) : State := { s with phase := p.code }

/-- One entry more in the trace, "appended to the trace in the order executed" (00_scope R11). -/
def State.record (s : State) (e : Event) : State := { s with trace := s.trace ++ [e] }

/-- `finish(s)`, the ending of a command and the whole of what a failure does: `status <- s`,
`done <- 1`, `phase <- IDLE`, `FIN(s)` (48_commands R196, 60_exceptions R218). There is no return
operation (R220). -/
def State.finish (s : State) (st : Status) : State :=
  { s with status := st, done := true, phase := Phase.idle.code, trace := s.trace ++ [.fin st] }

/-- Starting a wait: `site <- w; phase <- EW_ENTRY` (41_edge_waiter R120). -/
def State.startWait (s : State) (w : Site) : State :=
  { s with site := w, phase := Phase.ewEntry.code }

/-- Acceptance of INIT (48_commands R190). -/
def State.acceptInit (s : State) (pin : Pin) : State :=
  { s with pin := pin, done := false, phase := Phase.initDir.code,
           trace := s.trace ++ [.cmd .init pin] }

/-- Acceptance of READ with the zeroing of reading and buffer (48_commands R190, R192). -/
def State.acceptRead (s : State) (pin : Pin) : State :=
  { s with pin := pin, done := false, phase := Phase.rqDirOut.code,
           trace := s.trace ++ [.cmd .read pin],
           rdHumidity := 0#16, rdTempNeg := false, rdTempMag := 0#15, rdChecksum := 0#8,
           buf := #v[0#8, 0#8, 0#8, 0#8, 0#8] }

/-- `buf[byte_idx] <- buf[byte_idx] | (bit << (7 - bit_idx))` (44_bit_decoder R153). -/
def State.orBit (s : State) (bit : Bool) : State :=
  { s with buf := s.buf.set s.byteIdx.val (s.buf[s.byteIdx] ||| bitMask bit s.bitIdx) s.byteIdx.isLt }

/-- The reading registers DECODE latches (47_reading_decoder R180). -/
def State.latchReading (s : State) : State :=
  { s with rdHumidity := humidityOf s.buf, rdTempMag := tempMagOf s.buf, rdTempNeg := tempNegOf s.buf }

/-! ### Transactions (00_scope R11): the state after this step's transaction, and its answer.
Without an answer the request is held: nothing but the port record changes. -/

/-- `r <- SetDir(pin, d)`. -/
def State.setDir (s : State) (d : Dir) : State × Option Answer :=
  match s.gpioAnswer with
  | some r => ((s.record (.setDir s.pin d r)).tick, some r)
  | none => (s.tick, none)

/-- `r <- SetLevel(pin, l)`. -/
def State.setLevel (s : State) (l : Level) : State × Option Answer :=
  match s.gpioAnswer with
  | some r => ((s.record (.setLvl s.pin l r)).tick, some r)
  | none => (s.tick, none)

/-- `(l, t) <- Sample(pin)`: level, then clock, one transaction (20_memory R68). -/
def State.sample (s : State) : State × Option (Level × Nat) :=
  match s.sampleAnswer with
  | some (l, t) => ((s.record (.sample s.pin l t)).tick, some (l, t))
  | none => (s.tick, none)

/-- `t <- Now()`. -/
def State.now (s : State) : State × Option Nat :=
  match s.nowAnswer with
  | some t => ((s.record (.now t)).tick, some t)
  | none => (s.tick, none)

/-- A GPIO step of the sequencer: on ok the continuation, on fail `finish(GPIO_ERROR)` in the same
step (42_request_sequencer R137), without an answer the request stays. -/
def gpioStep (tx : State × Option Answer) (onOk : State → State) : State :=
  match tx with
  | (s, some .ok) => onOk s
  | (s, some .fail) => s.finish .gpioError
  | (s, none) => s

/-- A `Delay(d)` step and the phase after it; "A delay cannot fail" (42_request_sequencer R133). -/
def delayStep (s : State) (d : Nat) (after : State → State) : State :=
  if s.delayAnswer then after (s.record (.delay d)).tick else s.tick

/-! ### Reset and fetch -/

/-- A step with `rst = 1`: "the block holds the reset state …, accepts no command, and issues no
transaction" (70_reset_and_hazards R240); "no trace entry was made by the reset" (95 V90). The model's
own fields go on. -/
def State.resetByPort (s : State) : State :=
  { State.reset with inputs := s.inputs.tail, trace := s.trace }

/-- What the next step runs: `phase` "names the transaction the next step performs" (10_state R21). -/
def State.fetch (s : State) : Instr := decodePhase s.phase

end Sys2Proof.Machine
end

