-- ==== Sys2Proof/Machine/Gpio.lean ====
section
/-! DEFINITION. Sys2Proof/Machine/Gpio.lean: the requests on the GPIO port (30_encoding R87), each the
transaction of 00_scope R11 alone, without the step that issues it: the trace gets its entry when it is
answered, and no register changes (20_memory R67). -/

namespace Sys2Proof.Machine

/-- GET_LEVEL: "a non-failing read" that this block issues inside `Sample` (00_scope R11, 20_memory R62);
`g_arg` carries nothing (30_encoding R87). -/
def execGetLevel (_arg : BitVec 1) (s : State) : Out := .next s.sample.1

/-- SET_LEVEL, `g_arg` the level. -/
def execSetLevel (level : Level) (s : State) : Out := .next (s.setLevel level).1

/-- SET_DIRECTION, `g_arg` the direction. -/
def execSetDirection (dir : Dir) (s : State) : Out := .next (s.setDir dir).1

/-- The reserved request: "the block never issues it" (30_encoding R87); the spec gives it no effect. -/
def execGpioReserved (_arg : BitVec 1) (_s : State) : Out := .refused .reservedGpioRequest

end Sys2Proof.Machine
end

