-- ==== Sys2Proof/Machine/Commands.lean ====
section
/-! DEFINITION. Sys2Proof/Machine/Commands.lean: the phases of the command port and of INIT
(48_commands.md): IDLE, the reserved phase, INIT_DIR, INIT_LVL. -/

namespace Sys2Proof.Machine

/-- Step IDLE: accept INIT or READ if one is presented; otherwise change nothing (48_commands R190,
R198, R199). -/
def idleStep (s : State) : State :=
  match s.presented with
  | some (.init pin) => (s.acceptInit pin).tick
  | some (.read pin) => (s.acceptRead pin).tick
  | _ => s.tick

/-- Phase code 1111: "must treat it as IDLE" (30_encoding R91); log 5. -/
def phaseReservedStep (s : State) : State := idleStep s

/-- Step INIT_DIR (48_commands R194). -/
def initDirStep (s : State) : State := gpioStep (s.setDir .output) (·.goto .initLvl)

/-- Step INIT_LVL (48_commands R195). -/
def initLvlStep (s : State) : State := gpioStep (s.setLevel .high) (·.finish .ok)

/-- PHASE row IDLE. -/
def execIdle (s : State) : Out := .next (idleStep s)

/-- PHASE row PHASE_RESERVED. -/
def execPhaseReserved (s : State) : Out := .next (phaseReservedStep s)

/-- PHASE row INIT_DIR. -/
def execInitDir (s : State) : Out := .next (initDirStep s)

/-- PHASE row INIT_LVL. -/
def execInitLvl (s : State) : Out := .next (initLvlStep s)

end Sys2Proof.Machine
end

