-- ==== Sys2Proof/Machine/EdgeWaiter.lean ====
section
/-! DEFINITION. Sys2Proof/Machine/EdgeWaiter.lean: the two phases of AWAIT_LEVEL and the return by
`site` (41_edge_waiter.md). -/

namespace Sys2Proof.Machine

/-- Where control goes "in the same step, by the value of `site`" when a wait returns OK
(R120; 43_handshake_detector R141, R142; 44_bit_decoder R151, R152). -/
def State.waitReturned (s : State) : State :=
  match s.site with
  | .hsRise => s.startWait .hsFall
  | .hsFall => { s with byteIdx := 0, bitIdx := 0 }.startWait .bitRise
  | .bitRise => s.startWait .bitFall
  | .bitFall => s.goto .bitStore

/-- Step EW_ENTRY (R111). -/
def ewEntryStep (s : State) : State :=
  match s.now with
  | (s', some t) => { s' with ewT0 := t }.goto .ewPoll
  | (s', none) => s'

/-- What a poll that showed level `l` with `ew_elapsed` already written does: the level is tested
first, then the bound (R112, R114, R115). -/
def State.judgePoll (s : State) (l : Level) : State :=
  if l = s.site.target then s.waitReturned
  else if boundReached s.ewElapsed s.site.bound then s.finish .timeout
  else s

/-- Step EW_POLL (R112). -/
def ewPollStep (s : State) : State :=
  match s.sample with
  | (s', some (l, t)) => { s' with ewElapsed := elapsedSince s'.ewT0 t }.judgePoll l
  | (s', none) => s'

/-- PHASE row EW_ENTRY. -/
def execEwEntry (s : State) : Out := .next (ewEntryStep s)

/-- PHASE row EW_POLL. -/
def execEwPoll (s : State) : Out := .next (ewPollStep s)

end Sys2Proof.Machine
end

