-- ==== Sys2Proof/Machine/FrameAssembler.lean ====
section
/-! DEFINITION. Sys2Proof/Machine/FrameAssembler.lean: the store of a bit (44_bit_decoder.md) and the
settle phase with the loop of the frame (45_frame_assembler.md). -/

namespace Sys2Proof.Machine

/-- Step BIT_STORE (44_bit_decoder R153). -/
def bitStoreStep (s : State) : State :=
  ((s.orBit (bitValue s.ewElapsed)).goto .faSettle).tick

/-- The counters advance and the loop test is made (45_frame_assembler R163). -/
def State.advanceBit (s : State) : State :=
  if h : s.bitIdx.val < 7 then
    { s with bitIdx := ⟨s.bitIdx.val + 1, by omega⟩ }.startWait .bitRise
  else if g : s.byteIdx.val < 4 then
    { s with bitIdx := 0, byteIdx := ⟨s.byteIdx.val + 1, by omega⟩ }.startWait .bitRise
  else s.goto .check

/-- Step FA_SETTLE (45_frame_assembler R163). -/
def faSettleStep (s : State) : State := delayStep s CFG.interBitSettle State.advanceBit

/-- PHASE row BIT_STORE. -/
def execBitStore (s : State) : Out := .next (bitStoreStep s)

/-- PHASE row FA_SETTLE. -/
def execFaSettle (s : State) : Out := .next (faSettleStep s)

end Sys2Proof.Machine
end

