-- ==== Sys2Proof/Machine/Reading.lean ====
section
/-! DEFINITION. Sys2Proof/Machine/Reading.lean: the phases CHECK (46_checksum_validator.md) and DECODE
(47_reading_decoder.md). -/

namespace Sys2Proof.Machine

/-- Step CHECK: `rd_checksum <- buf[4]` first, then the comparison (46_checksum_validator R171, R173). -/
def checkStep (s : State) : State :=
  let s := { s with rdChecksum := s.buf[4] }.tick
  if checksumValid s.buf then s.goto .decode else s.finish .badChecksum

/-- Step DECODE: the three writes, then `finish(OK)` (47_reading_decoder R186). -/
def decodeStep (s : State) : State := (s.latchReading.finish .ok).tick

/-- PHASE row CHECK. -/
def execCheck (s : State) : Out := .next (checkStep s)

/-- PHASE row DECODE. -/
def execDecode (s : State) : Out := .next (decodeStep s)

end Sys2Proof.Machine
end

