-- ==== Sys2Proof/Machine/RequestSequencer.lean ====
section
/-! DEFINITION. Sys2Proof/Machine/RequestSequencer.lean: the six phases of REQUEST_READINGS
(42_request_sequencer.md). -/

namespace Sys2Proof.Machine

/-- Step RQ_DIR_OUT (R131). -/
def rqDirOutStep (s : State) : State := gpioStep (s.setDir .output) (·.goto .rqLow)

/-- Step RQ_LOW (R132). -/
def rqLowStep (s : State) : State := gpioStep (s.setLevel .low) (·.goto .rqDlyLow)

/-- Step RQ_DLY_LOW (R133). -/
def rqDlyLowStep (s : State) : State := delayStep s CFG.requestLow (·.goto .rqHigh)

/-- Step RQ_HIGH (R134). -/
def rqHighStep (s : State) : State := gpioStep (s.setLevel .high) (·.goto .rqDlyHigh)

/-- Step RQ_DLY_HIGH (R135). -/
def rqDlyHighStep (s : State) : State := delayStep s CFG.requestHigh (·.goto .rqDirIn)

/-- Step RQ_DIR_IN: on ok the Handshake Detector starts in the same step (R136). -/
def rqDirInStep (s : State) : State := gpioStep (s.setDir .input) (·.startWait .hsRise)

/-- PHASE row RQ_DIR_OUT. -/
def execRqDirOut (s : State) : Out := .next (rqDirOutStep s)

/-- PHASE row RQ_LOW. -/
def execRqLow (s : State) : Out := .next (rqLowStep s)

/-- PHASE row RQ_DLY_LOW. -/
def execRqDlyLow (s : State) : Out := .next (rqDlyLowStep s)

/-- PHASE row RQ_HIGH. -/
def execRqHigh (s : State) : Out := .next (rqHighStep s)

/-- PHASE row RQ_DLY_HIGH. -/
def execRqDlyHigh (s : State) : Out := .next (rqDlyHighStep s)

/-- PHASE row RQ_DIR_IN. -/
def execRqDirIn (s : State) : Out := .next (rqDirInStep s)

end Sys2Proof.Machine
end

