-- ==== Sys2Proof/Machine/Sequencer.lean ====
section
/-! DEFINITION. Sys2Proof/Machine/Sequencer.lean: one step of the sequencer, and the run of the steps
that carry out an operation of several phases. -/

namespace Sys2Proof.Machine

/-- The step of a phase (30_encoding R89, R91). -/
def phaseStep (p : Option Phase) (s : State) : State :=
  match p with
  | some .idle => idleStep s
  | some .initDir => initDirStep s
  | some .initLvl => initLvlStep s
  | some .rqDirOut => rqDirOutStep s
  | some .rqLow => rqLowStep s
  | some .rqDlyLow => rqDlyLowStep s
  | some .rqHigh => rqHighStep s
  | some .rqDlyHigh => rqDlyHighStep s
  | some .rqDirIn => rqDirInStep s
  | some .ewEntry => ewEntryStep s
  | some .ewPoll => ewPollStep s
  | some .bitStore => bitStoreStep s
  | some .faSettle => faSettleStep s
  | some .check => checkStep s
  | some .decode => decodeStep s
  | none => phaseReservedStep s

/-- One step of the block, reset included (00_scope R2, 70_reset_and_hazards R240). -/
def seqStep (s : State) : State :=
  if s.rstAsserted then s.resetByPort else phaseStep (Phase.ofCode s.phase) s

/-- At most `n` steps, while the operation `inOp` describes is still running. -/
def runWhile (inOp : State → Bool) : Nat → State → State
  | 0, s => s
  | n + 1, s => if inOp s then runWhile inOp n (seqStep s) else s

/-- The steps of an operation until it returns, or until the environment gives no further answer: a
step consumes one port record, and with none left at most two steps still do something (BIT_STORE; or
CHECK and DECODE). -/
def runOp (inOp : State → Bool) (s : State) : State := runWhile inOp (s.inputs.length + 2) s

/-! ### Which operation is running -/

/-- The wait at site `w` is running: phases EW_ENTRY and EW_POLL (41_edge_waiter R110). -/
def inWait (w : Site) (s : State) : Bool :=
  s.site == w && (s.phase == Phase.ewEntry.code || s.phase == Phase.ewPoll.code)

/-- REQUEST_READINGS is running: "six phases with codes 3 to 8" (42_request_sequencer R130). -/
def inRequest (s : State) : Bool :=
  s.phase == Phase.rqDirOut.code || s.phase == Phase.rqLow.code || s.phase == Phase.rqDlyLow.code ||
  s.phase == Phase.rqHigh.code || s.phase == Phase.rqDlyHigh.code || s.phase == Phase.rqDirIn.code

/-- AWAIT_DATA is running: the waits HS_RISE and HS_FALL (43_handshake_detector R140). -/
def inHandshake (s : State) : Bool := inWait .hsRise s || inWait .hsFall s

/-- READ_BIT is running: the waits BIT_RISE and BIT_FALL, and BIT_STORE (44_bit_decoder R150). -/
def inBit (s : State) : Bool :=
  inWait .bitRise s || inWait .bitFall s || s.phase == Phase.bitStore.code

/-- ASSEMBLE_FRAME is running: READ_BIT and FA_SETTLE (45_frame_assembler R160). -/
def inFrame (s : State) : Bool := inBit s || s.phase == Phase.faSettle.code

/-- The one phase of an operation that has one. -/
def inPhase (p : Phase) (s : State) : Bool := s.phase == p.code

end Sys2Proof.Machine
end

