-- ==== Sys2Proof/Machine/Macros.lean ====
section
/-! DEFINITION. Sys2Proof/Machine/Macros.lean: the operations of several steps: the commands (format
CMD), the component operations (format OP) and the waits (format SITE), each carried out by the steps of
its phases until it returns or the environment gives no further answer (log 7). -/

namespace Sys2Proof.Machine

/-! ### Host commands (30_encoding R82, 48_commands.md) -/

/-- The host presents a command in this step: `cmd_valid = 1`, `cmd_op`, `cmd_pin`. -/
def State.present (s : State) (cmdOp : BitVec 2) (cmdPin : Pin) : State :=
  let r := { s.inputs.headD Inputs.quiet with cmdValid := true, cmdOp := cmdOp, cmdPin := cmdPin }
  { s with inputs := r :: s.inputs.tail }

/-- A command presented to an idle block is accepted and run to its `finish` (48_commands R190, R197);
presented to a busy one "is not accepted: … the running command is not disturbed, and the presented
command is neither queued nor remembered" (R200). -/
def runCommand (cmdOp : BitVec 2) (cmdPin : Pin) (s : State) : State :=
  if s.busy then s else runOp State.busy (seqStep (s.present cmdOp cmdPin))

/-- NOP: "nothing is accepted, no state changes" (48_commands R198). -/
def execNop (s : State) : Out := .next s

/-- INIT (48_commands R193). -/
def execInit (pin : Pin) (s : State) : Out := .next (runCommand 0b01#2 pin s)

/-- READ (48_commands R191, R192; 30_encoding R97). -/
def execRead (pin : Pin) (s : State) : Out := .next (runCommand 0b10#2 pin s)

/-- The reserved command code: "treated exactly as NOP" (48_commands R199, 30_encoding R83). -/
def execCmdReserved (s : State) : Out := .next s

/-! ### Component operations (30_encoding R97) -/

/-- REQUEST_READINGS, entry phase RQ_DIR_OUT (42_request_sequencer R130). -/
def execRequestReadings (s : State) : Out := .next (runOp inRequest (s.goto .rqDirOut))

/-- The wait AWAIT_LEVEL at a site: EW_ENTRY, then polls until OK or TIMEOUT (41_edge_waiter R110),
with the return of R120. -/
def runWait (w : Site) (s : State) : State := runOp (inWait w) (s.startWait w)

/-- AWAIT_LEVEL, entry phase EW_ENTRY; `site` selects target and bound (41_edge_waiter R110). -/
def execAwaitLevel (s : State) : Out := .next (runWait s.site s)

/-- AWAIT_DATA, entered at EW_ENTRY with `site = HS_RISE` (43_handshake_detector R140). -/
def execAwaitData (s : State) : Out := .next (runOp inHandshake (s.startWait .hsRise))

/-- READ_BIT, entered at EW_ENTRY with `site = BIT_RISE` (44_bit_decoder R150). -/
def execReadBit (s : State) : Out := .next (runOp inBit (s.startWait .bitRise))

/-- ASSEMBLE_FRAME, entered at EW_ENTRY with `site = BIT_RISE` and both counters 0
(45_frame_assembler R160, R166). -/
def execAssembleFrame (s : State) : Out :=
  .next (runOp inFrame ({ s with byteIdx := 0, bitIdx := 0 }.startWait .bitRise))

/-- VALIDATE_CHECKSUM, one phase, CHECK (46_checksum_validator R170). -/
def execValidateChecksum (s : State) : Out := .next (runOp (inPhase .check) (s.goto .check))

/-- DECODE_READING, one phase, DECODE (47_reading_decoder R180). -/
def execDecodeReading (s : State) : Out := .next (runOp (inPhase .decode) (s.goto .decode))

/-! ### The four waits (30_encoding R90, 41_edge_waiter R120) -/

/-- SITE row HS_RISE: wait for HIGH, bound 90. -/
def execHsRise (s : State) : Out := .next (runWait .hsRise s)

/-- SITE row HS_FALL: wait for LOW, bound 90. -/
def execHsFall (s : State) : Out := .next (runWait .hsFall s)

/-- SITE row BIT_RISE: wait for HIGH, bound 70. -/
def execBitRise (s : State) : Out := .next (runWait .bitRise s)

/-- SITE row BIT_FALL: wait for LOW, bound 90. -/
def execBitFall (s : State) : Out := .next (runWait .bitFall s)

end Sys2Proof.Machine
end

