-- ==== Sys2Proof/Machine/Statuses.lean ====
section
/-! DEFINITION. Sys2Proof/Machine/Statuses.lean: the four outcomes (30_encoding R84, 60_exceptions R210),
each what `finish` does with it: "`raise S` stands for `finish(S)`" (00_scope R13; 48_commands R196). It
is the last action of a step, so the step's port record is not touched (log 9). -/

namespace Sys2Proof.Machine

/-- STATUS row OK. -/
def execOk (s : State) : Out := .next (s.finish .ok)

/-- STATUS row GPIO_ERROR (60_exceptions R211). -/
def execGpioError (s : State) : Out := .next (s.finish .gpioError)

/-- STATUS row BADCHECKSUM (60_exceptions R213). -/
def execBadChecksum (s : State) : Out := .next (s.finish .badChecksum)

/-- STATUS row TIMEOUT (60_exceptions R212). -/
def execTimeout (s : State) : Out := .next (s.finish .timeout)

end Sys2Proof.Machine
end

