-- ==== Sys2Proof/Machine/Dispatch.lean ====
section
/-! DEFINITION. Sys2Proof/Machine/Dispatch.lean: exec, one arm per row of spec/opcode_table.json. -/

namespace Sys2Proof.Machine

def exec (i : Instr) (s : State) : Host.Outcome State Fault Refusal :=
  match i with
  | .nop => Sys2Proof.Machine.execNop s
  | .init pin => Sys2Proof.Machine.execInit pin s
  | .read pin => Sys2Proof.Machine.execRead pin s
  | .cmdReserved => Sys2Proof.Machine.execCmdReserved s
  | .requestReadings => Sys2Proof.Machine.execRequestReadings s
  | .awaitLevel => Sys2Proof.Machine.execAwaitLevel s
  | .awaitData => Sys2Proof.Machine.execAwaitData s
  | .readBit => Sys2Proof.Machine.execReadBit s
  | .assembleFrame => Sys2Proof.Machine.execAssembleFrame s
  | .validateChecksum => Sys2Proof.Machine.execValidateChecksum s
  | .decodeReading => Sys2Proof.Machine.execDecodeReading s
  | .idle => Sys2Proof.Machine.execIdle s
  | .initDir => Sys2Proof.Machine.execInitDir s
  | .initLvl => Sys2Proof.Machine.execInitLvl s
  | .rqDirOut => Sys2Proof.Machine.execRqDirOut s
  | .rqLow => Sys2Proof.Machine.execRqLow s
  | .rqDlyLow => Sys2Proof.Machine.execRqDlyLow s
  | .rqHigh => Sys2Proof.Machine.execRqHigh s
  | .rqDlyHigh => Sys2Proof.Machine.execRqDlyHigh s
  | .rqDirIn => Sys2Proof.Machine.execRqDirIn s
  | .ewEntry => Sys2Proof.Machine.execEwEntry s
  | .ewPoll => Sys2Proof.Machine.execEwPoll s
  | .bitStore => Sys2Proof.Machine.execBitStore s
  | .faSettle => Sys2Proof.Machine.execFaSettle s
  | .check => Sys2Proof.Machine.execCheck s
  | .decode => Sys2Proof.Machine.execDecode s
  | .phaseReserved => Sys2Proof.Machine.execPhaseReserved s
  | .hsRise => Sys2Proof.Machine.execHsRise s
  | .hsFall => Sys2Proof.Machine.execHsFall s
  | .bitRise => Sys2Proof.Machine.execBitRise s
  | .bitFall => Sys2Proof.Machine.execBitFall s
  | .getLevel arg => Sys2Proof.Machine.execGetLevel arg s
  | .setLevel level => Sys2Proof.Machine.execSetLevel level s
  | .setDirection dir => Sys2Proof.Machine.execSetDirection dir s
  | .gpioReserved arg => Sys2Proof.Machine.execGpioReserved arg s
  | .ok => Sys2Proof.Machine.execOk s
  | .gpioError => Sys2Proof.Machine.execGpioError s
  | .badChecksum => Sys2Proof.Machine.execBadChecksum s
  | .timeout => Sys2Proof.Machine.execTimeout s

end Sys2Proof.Machine
end

