-- ==== Sys2Proof/Machine/Step.lean ====
section
/-! DEFINITION. Sys2Proof/Machine/Step.lean: one step of the machine, and how the host places an
operation where the step fetches it. -/

namespace Sys2Proof.Machine

/-- One step: with `rst = 1` the reset state is held (70_reset_and_hazards R240); otherwise the step of
the phase that the `phase` register names (10_state R21). -/
def step (s : State) : Host.Outcome State Fault Refusal :=
  if s.rstAsserted then .next s.resetByPort else exec s.fetch s

/-- `s` with the operation whose bits are `w` placed where `step` takes it from. A phase code goes into
the `phase` register, "the block's program counter" (10_state R21), and the step's port record
acknowledges the transaction it issues, so that the step runs it to its end; a command code (two bits)
is presented on the command port of an idle block. Nothing else changes; log 8. -/
def State.withFetchWord (s : State) (nbits w : Nat) : State :=
  let r := s.inputs.headD Inputs.quiet
  if nbits = 2 then
    { s with phase := Phase.idle.code,
             inputs := { r with rst := false, cmdValid := true, cmdOp := BitVec.ofNat 2 w } :: s.inputs.tail }
  else
    { s with phase := BitVec.ofNat 4 w,
             inputs := { r with rst := false, gAck := true, gFail := false, dAck := true } :: s.inputs.tail }

end Sys2Proof.Machine
end

