-- ==== Sys2Proof/Machine/Ports.lean ====
section
/-! DEFINITION. Sys2Proof/Machine/Ports.lean: the output ports (30_encoding R95) and the host-visible
state (10_state R39), as functions of the state; and what the trace says was last commanded of a pin
(42_request_sequencer R138). -/

namespace Sys2Proof.Machine

/-- `cmd_ready` is `not busy` (30_encoding R95). -/
def State.cmdReady (s : State) : Bool := !s.busy

/-- The GPIO request the block holds in this step (30_encoding R89, column "transaction"; `Sample`
contains GET_LEVEL); none is issued while `rst = 1` (70_reset_and_hazards R240). -/
def State.gpioRequest (s : State) : Option Instr :=
  if s.rstAsserted then none else
  match Phase.ofCode s.phase with
  | some .initDir | some .rqDirOut => some (.setDirection .output)
  | some .rqDirIn => some (.setDirection .input)
  | some .rqLow => some (.setLevel .low)
  | some .initLvl | some .rqHigh => some (.setLevel .high)
  | some .ewPoll => some (.getLevel 0#1)
  | _ => none

/-- `g_op`, `g_arg`, `g_pin` while `g_req = 1`; none is `g_req = 0`. `g_pin` is "always the latched
`pin`" (30_encoding R87, R95). -/
def State.gpioPort (s : State) : Option (BitVec 2 × BitVec 1 × Pin) :=
  match s.gpioRequest with
  | some i =>
    match encode i with
    | .gpio gOp gArg => some (gOp, gArg, s.pin)
    | _ => none
  | none => none

/-- The duration of the delay the block holds a request for (30_encoding R88, R89). -/
def State.delayRequest (s : State) : Option Nat :=
  if s.rstAsserted then none else
  match Phase.ofCode s.phase with
  | some .rqDlyLow => some CFG.requestLow
  | some .rqDlyHigh => some CFG.requestHigh
  | some .faSettle => some CFG.interBitSettle
  | _ => none

/-- `d_duration[11:0]` while `d_req = 1`; none is `d_req = 0` (30_encoding R88, R95). -/
def State.delayPort (s : State) : Option (BitVec 12) := s.delayRequest.map (BitVec.ofNat 12)

/-- "Host-visible state is exactly" this (10_state R39). -/
structure HostView where
  busy          : Bool
  done          : Bool
  status        : BitVec 2
  rdHumidity    : BitVec 16
  rdTempNeg     : Bool
  rdTempMag     : BitVec 15
  rdTemperature : BitVec 16
  rdChecksum    : Byte
deriving DecidableEq, Repr

/-- What the host reads (10_state R39, 30_encoding R93, R95). -/
def State.hostView (s : State) : HostView where
  busy          := s.busy
  done          := s.done
  status        := s.status.code
  rdHumidity    := s.rdHumidity
  rdTempNeg     := s.rdTempNeg
  rdTempMag     := s.rdTempMag
  rdTemperature := s.rdTemperature
  rdChecksum    := s.rdChecksum

/-- The direction last commanded ok for a pin: "the last `SetDir` … answered `ok`"
(42_request_sequencer R138). -/
def lastDir (pin : Pin) (trace : List Event) : Option Dir :=
  trace.foldl (fun before e =>
    match e with
    | .setDir p d .ok => if p = pin then some d else before
    | _ => before) none

/-- The level last commanded ok for a pin (42_request_sequencer R138). -/
def lastLevel (pin : Pin) (trace : List Event) : Option Level :=
  trace.foldl (fun before e =>
    match e with
    | .setLvl p l .ok => if p = pin then some l else before
    | _ => before) none

end Sys2Proof.Machine
end

