-- ==== Sys2Proof/Safety.lean ====
section
/-! DEFINITION. Sys2Proof/Safety.lean: the words the statements are written in: the invariants of the
registers and of the line, which registers are live, the environment's premises (00_scope R12), answered
port records, and the spec's pseudocode of a wait. No step reads any of it. -/

namespace Sys2Proof.Machine

/-! ### Registers -/

/-- A READ is running: the phases from RQ_DIR_OUT to DECODE, codes 3 to 14 (30_encoding R89). -/
def State.inRead (s : State) : Bool := decide (3 ≤ s.phase.toNat ∧ s.phase.toNat ≤ 14)

/-- The bit with arrival index `n`: "lands in `buf[n div 8]` at bit `7 - (n mod 8)`" (30_encoding R92). -/
def frameBit (buf : Vector Byte 5) (n : Fin 40) : Bool :=
  (buf[n.val / 8]'(by omega)).getLsbD (7 - n.val % 8)

/-- How many bits of the frame the running READ has stored (45_frame_assembler R161): bit number `n` is
read with `byte_idx = n div 8` and `bit_idx = n mod 8`. -/
def State.bitsStored (s : State) : Nat :=
  match Phase.ofCode s.phase with
  | some .ewEntry | some .ewPoll =>
    if s.site = .bitRise ∨ s.site = .bitFall then 8 * s.byteIdx.val + s.bitIdx.val else 0
  | some .bitStore => 8 * s.byteIdx.val + s.bitIdx.val
  | some .faSettle => 8 * s.byteIdx.val + s.bitIdx.val + 1
  | some .check | some .decode => 40
  | _ => 0

/-- What the rules keep true of the registers between steps. -/
structure State.Inv (s : State) : Prop where
  /-- "Phase code `1111` … No rule writes it" (30_encoding R91). -/
  phase_legal : s.phase ≠ 0b1111#4
  /-- `done` is cleared by acceptance and set by `finish` (10_state R31). -/
  busy_not_done : s.busy = true → s.done = false
  /-- The zeroed reading stays zero until DECODE (48_commands R192). -/
  reading_zero : s.inRead = true →
    s.rdHumidity = 0#16 ∧ s.rdTempNeg = false ∧ s.rdTempMag = 0#15
  /-- `rd_checksum` stays zero until CHECK (46_checksum_validator R173). -/
  checksum_zero : s.inRead = true → s.phase ≠ Phase.decode.code → s.rdChecksum = 0#8
  /-- DECODE "is reached only through a passing CHECK" (47_reading_decoder R186). -/
  decode_checked : s.phase = Phase.decode.code →
    checksumValid s.buf = true ∧ s.rdChecksum = s.buf[4]
  /-- Bits not yet stored are zero (45_frame_assembler R162, R166). -/
  unstored_zero : s.inRead = true → ∀ n : Fin 40, s.bitsStored ≤ n.val → frameBit s.buf n = false

/-- What the trace says of the pin in each phase (20_memory R62, 42_request_sequencer R138). -/
structure State.LineInv (s : State) : Prop where
  /-- After the first `SetDir` of a command the pin is an output until RQ_DIR_IN has been answered. -/
  output : s.phase ∈ [Phase.initLvl.code, Phase.rqLow.code, Phase.rqDlyLow.code, Phase.rqHigh.code,
      Phase.rqDlyHigh.code, Phase.rqDirIn.code] → lastDir s.pin s.trace = some .output
  /-- During the request's low pulse the level last commanded is 0. -/
  low : s.phase ∈ [Phase.rqDlyLow.code, Phase.rqHigh.code] → lastLevel s.pin s.trace = some .low
  /-- After the release it is 1. -/
  high : s.phase ∈ [Phase.rqDlyHigh.code, Phase.rqDirIn.code] → lastLevel s.pin s.trace = some .high
  /-- From the handshake on the pin is an input, last commanded to 1. -/
  input : 9 ≤ s.phase.toNat → s.phase.toNat ≤ 14 →
    lastDir s.pin s.trace = some .input ∧ lastLevel s.pin s.trace = some .high

/-- Two states that agree on everything a later step can read: 10_state R41 says which registers a
phase reads before it writes them. -/
structure State.LiveAgree (s t : State) : Prop where
  phase : s.phase = t.phase
  inputs : s.inputs = t.inputs
  trace : s.trace = t.trace
  status : s.status = t.status
  done : s.done = t.done
  rdHumidity : s.rdHumidity = t.rdHumidity
  rdTempNeg : s.rdTempNeg = t.rdTempNeg
  rdTempMag : s.rdTempMag = t.rdTempMag
  rdChecksum : s.rdChecksum = t.rdChecksum
  pin : s.busy = true → s.pin = t.pin
  buf : s.inRead = true → s.buf = t.buf
  site : s.phase = Phase.ewEntry.code ∨ s.phase = Phase.ewPoll.code → s.site = t.site
  counters : (s.phase = Phase.ewEntry.code ∨ s.phase = Phase.ewPoll.code) ∧
      (s.site = .bitRise ∨ s.site = .bitFall) ∨
      s.phase = Phase.bitStore.code ∨ s.phase = Phase.faSettle.code →
    s.byteIdx = t.byteIdx ∧ s.bitIdx = t.bitIdx
  ewT0 : s.phase = Phase.ewPoll.code → s.ewT0 = t.ewT0
  ewElapsed : s.phase = Phase.bitStore.code → s.ewElapsed = t.ewElapsed

/-! ### Renaming the sensor handle (10_state R23: "No rule computes on it or compares it") -/

/-- A port record with its handle renamed. -/
def Inputs.mapPin (f : Pin → Pin) (r : Inputs) : Inputs := { r with cmdPin := f r.cmdPin }

/-- A trace entry with its handle renamed. -/
def Event.mapPin (f : Pin → Pin) : Event → Event
  | .cmd op pin => .cmd op (f pin)
  | .setDir pin d a => .setDir (f pin) d a
  | .setLvl pin l a => .setLvl (f pin) l a
  | .now t => .now t
  | .sample pin l t => .sample (f pin) l t
  | .delay d => .delay d
  | .fin st => .fin st

/-- A state with every handle renamed. -/
def State.mapPin (f : Pin → Pin) (s : State) : State :=
  { s with pin := f s.pin, inputs := s.inputs.map (Inputs.mapPin f), trace := s.trace.map (Event.mapPin f) }

/-- A step's answer with every handle renamed. -/
def mapPinOut (f : Pin → Pin) : Out → Out
  | .next s => .next (s.mapPin f)
  | .fault r => .fault r
  | .refused r => .refused r

/-! ### The control graph -/

/-- Every arrow of 48_commands R203 as (phase, next phase), the steps that leave the phase as it is
(a held request, a poll with neither level nor bound, an idle step) included. -/
def arrowsFrom : Phase → List Phase
  | .idle => [.idle, .initDir, .rqDirOut]
  | .initDir => [.initDir, .initLvl, .idle]
  | .initLvl => [.initLvl, .idle]
  | .rqDirOut => [.rqDirOut, .rqLow, .idle]
  | .rqLow => [.rqLow, .rqDlyLow, .idle]
  | .rqDlyLow => [.rqDlyLow, .rqHigh]
  | .rqHigh => [.rqHigh, .rqDlyHigh, .idle]
  | .rqDlyHigh => [.rqDlyHigh, .rqDirIn]
  | .rqDirIn => [.rqDirIn, .ewEntry, .idle]
  | .ewEntry => [.ewEntry, .ewPoll]
  | .ewPoll => [.ewPoll, .ewEntry, .bitStore, .idle]
  | .bitStore => [.faSettle]
  | .faSettle => [.faSettle, .ewEntry, .check]
  | .check => [.decode, .idle]
  | .decode => [.idle]

/-- A trace entry that is a transaction with a collaborator or the host, not the report of an ending. -/
def Event.isFin : Event → Bool
  | .fin _ => true
  | _ => false

/-- The transaction a phase performs when it is answered (30_encoding R89, column "transaction"). -/
def Event.fitsPhase (p : Phase) (pin : Pin) : Event → Prop
  | .cmd _ _ => p = .idle
  | .setDir q d _ => q = pin ∧
      (((p = .initDir ∨ p = .rqDirOut) ∧ d = .output) ∨ (p = .rqDirIn ∧ d = .input))
  | .setLvl q l _ => q = pin ∧
      ((p = .rqLow ∧ l = .low) ∨ ((p = .initLvl ∨ p = .rqHigh) ∧ l = .high))
  | .now _ => p = .ewEntry
  | .sample q _ _ => q = pin ∧ p = .ewPoll
  | .delay d => (p = .rqDlyLow ∧ d = 3000) ∨ (p = .rqDlyHigh ∧ d = 20) ∨ (p = .faSettle ∧ d = 10)
  | .fin _ => False

/-! ### Premises about the environment (00_scope R12): hypotheses of statements, "never … facts of the
machine". They speak of the transactions the block issues in one run and of their answers. -/

/-- An environment without end: what the input ports show in each step. -/
abbrev Environment := Nat → Inputs

/-- The block before step `n` of its run from `s` in `env`, with the port record of that step. -/
def State.atStep (env : Environment) (s : State) : Nat → State
  | 0 => { s with inputs := [env 0] }
  | n + 1 => { seqStep (s.atStep env n) with inputs := [env (n + 1)] }

/-- The time that `Now()` or `Sample` returns in this step; none where the step makes neither or it is
not answered. -/
def State.timeReturned (s : State) : Option Nat :=
  if s.rstAsserted then none else
  match Phase.ofCode s.phase with
  | some .ewEntry => s.nowAnswer
  | some .ewPoll => s.sampleAnswer.map Prod.snd
  | _ => none

/-- The block asks for the time: it is in a wait. -/
def State.asksTime (s : State) : Bool := s.phase == Phase.ewEntry.code || s.phase == Phase.ewPoll.code

/-- The command that the host issues in this step: INIT or READ. Presenting NOP or the reserved code
issues none and is allowed "at any time" (48_commands R204). -/
def State.issued (s : State) : Option (Command × Pin) :=
  match s.presented with
  | some (.init pin) => some (.init, pin)
  | some (.read pin) => some (.read, pin)
  | _ => none

/-- P1 `MonotonicTime`: "successive values returned by `Now()` and `Sample()` never decrease". -/
def MonotonicTime (env : Environment) (s : State) : Prop :=
  ∀ (m n t u : Nat), m < n → (s.atStep env m).timeReturned = some t →
    (s.atStep env n).timeReturned = some u → t ≤ u

/-- P2 `TimeProgress`: "for every bound `b` and every time `t0` returned, a later transaction returns a
time `t` with `t - t0 >= b`, unless the block stops asking". -/
def TimeProgress (env : Environment) (s : State) : Prop :=
  ∀ (n t0 b : Nat), (s.atStep env n).timeReturned = some t0 →
    (∃ m t, n < m ∧ (s.atStep env m).timeReturned = some t ∧ t0 + b ≤ t) ∨
    (∃ m, n < m ∧ ∀ k, m ≤ k → (s.atStep env k).asksTime = false)

/-- P3 `CollaboratorsAnswer`: "every transaction the block issues is answered": a GPIO or delay request
held in some step meets its acknowledge in that step or in a later one, however long it is held, unless
a reset withdraws it. A clock read is answered in its own step (30_encoding R95). -/
def CollaboratorsAnswer (env : Environment) (s : State) : Prop :=
  ∀ n : Nat,
    ((s.atStep env n).gpioRequest ≠ none → ∃ m, n ≤ m ∧ ((env m).gAck = true ∨ (env m).rst = true)) ∧
    ((s.atStep env n).delayRequest ≠ none → ∃ m, n ≤ m ∧ ((env m).dAck = true ∨ (env m).rst = true))

/-- P4 `DelayAtLeast`: for a `Delay(d)` that ends in step `n`, "the time returned by the first clock read
after `Delay(d)` is at least `d` more than the last time returned before it". -/
def DelayAtLeast (env : Environment) (s : State) : Prop :=
  ∀ (m n k d t u : Nat), (s.atStep env n).delayRequest = some d → (env n).dAck = true →
    m < n → n < k → (s.atStep env m).timeReturned = some t → (s.atStep env k).timeReturned = some u →
    (∀ j, m < j → j < k → (s.atStep env j).timeReturned = none) → t + d ≤ u

/-- P5 `Serialised`: "the host issues a command only when `busy = 0`". -/
def Serialised (env : Environment) (s : State) : Prop :=
  ∀ n : Nat, (s.atStep env n).busy = true → (s.atStep env n).issued = none

/-- No reset comes while the records last. -/
def NoReset (rs : List Inputs) : Prop := ∀ r ∈ rs, r.rst = false

/-! ### The pseudocode of AWAIT_LEVEL (41_edge_waiter R110) -/

/-- What a wait returns. -/
inductive WaitResult where
  | ok
  | timeout
deriving DecidableEq, Repr

/-- The loop of 41_edge_waiter R110 on the list of `Sample` answers: result, elapsed time and the number
of polls made; none where the answers end before the wait does. -/
def awaitLevel (target : Level) (timeout t0 : Nat) :
    List (Level × Nat) → Option (WaitResult × Nat × Nat)
  | [] => none
  | (l, t) :: later =>
    let elapsed := elapsedSince t0 t
    if l = target then some (.ok, elapsed, 1)
    else if timeout ≤ elapsed then some (.timeout, elapsed, 1)
    else (awaitLevel target timeout t0 later).map fun (r, e, n) => (r, e, n + 1)

/-! ### Answered port records: what the environment shows while a command runs well -/

/-- A GPIO request is answered `ok`: records without `g_ack`, then one with it. -/
def GpioOk (rs : List Inputs) : Prop :=
  ∃ held r, rs = held ++ [r] ∧ (∀ h ∈ held, h.rst = false ∧ h.gAck = false) ∧
    r.rst = false ∧ r.gAck = true ∧ r.gFail = false

/-- A GPIO request is answered `fail`. -/
def GpioFail (rs : List Inputs) : Prop :=
  ∃ held r, rs = held ++ [r] ∧ (∀ h ∈ held, h.rst = false ∧ h.gAck = false) ∧
    r.rst = false ∧ r.gAck = true ∧ r.gFail = true

/-- A delay request is answered. -/
def DelayOver (rs : List Inputs) : Prop :=
  ∃ held r, rs = held ++ [r] ∧ (∀ h ∈ held, h.rst = false ∧ h.dAck = false) ∧
    r.rst = false ∧ r.dAck = true

/-- A wait at site `w` returns OK with `elapsed`: the entry record, records that answer no poll or show
neither level nor bound, and one that shows the target level. -/
def WaitOk (w : Site) (rs : List Inputs) (elapsed : Nat) : Prop :=
  ∃ r0 misses hit, rs = r0 :: (misses ++ [hit]) ∧ r0.rst = false ∧
    (∀ m ∈ misses, m.rst = false ∧
      (m.gAck = true → m.gLevel ≠ w.target ∧ elapsedSince r0.timeUs m.timeUs < w.bound)) ∧
    hit.rst = false ∧ hit.gAck = true ∧ hit.gLevel = w.target ∧
    elapsed = elapsedSince r0.timeUs hit.timeUs

/-- A wait at site `w` times out: as above, but the last record shows the other level at or past the
bound. -/
def WaitTimeout (w : Site) (rs : List Inputs) : Prop :=
  ∃ r0 misses last, rs = r0 :: (misses ++ [last]) ∧ r0.rst = false ∧
    (∀ m ∈ misses, m.rst = false ∧
      (m.gAck = true → m.gLevel ≠ w.target ∧ elapsedSince r0.timeUs m.timeUs < w.bound)) ∧
    last.rst = false ∧ last.gAck = true ∧ last.gLevel ≠ w.target ∧
    w.bound ≤ elapsedSince r0.timeUs last.timeUs

/-- One bit is read with high time `tHigh`, stored, and followed by its settle delay
(45_frame_assembler R160). -/
def BitRead (rs : List Inputs) (tHigh : Nat) : Prop :=
  ∃ rise riseTime fall store settle, rs = rise ++ fall ++ [store] ++ settle ∧
    WaitOk .bitRise rise riseTime ∧ WaitOk .bitFall fall tHigh ∧ store.rst = false ∧ DelayOver settle

/-- The bits of a frame are read one after another with these high times. -/
def BitsRead : List Inputs → List Nat → Prop
  | rs, [] => rs = []
  | rs, tHigh :: later => ∃ bit rest, rs = bit ++ rest ∧ BitRead bit tHigh ∧ BitsRead rest later

/-- REQUEST_READINGS is answered well throughout (42_request_sequencer R130). -/
def RequestOk (rs : List Inputs) : Prop :=
  ∃ dirOut low dlyLow high dlyHigh dirIn,
    rs = dirOut ++ low ++ dlyLow ++ high ++ dlyHigh ++ dirIn ∧
    GpioOk dirOut ∧ GpioOk low ∧ DelayOver dlyLow ∧ GpioOk high ∧ DelayOver dlyHigh ∧ GpioOk dirIn

/-- AWAIT_DATA is answered well (43_handshake_detector R140). -/
def HandshakeOk (rs : List Inputs) : Prop :=
  ∃ rise riseTime fall fallTime, rs = rise ++ fall ∧
    WaitOk .hsRise rise riseTime ∧ WaitOk .hsFall fall fallTime

/-- A request that the environment answers `fail` somewhere, with the trace entries up to that answer
(42_request_sequencer R130, R137; 95 V21 to V24). -/
def RequestFails (pin : Pin) (rs : List Inputs) (es : List Event) : Prop :=
  (GpioFail rs ∧ es = [.setDir pin .output .fail]) ∨
  (∃ dirOut low, rs = dirOut ++ low ∧ GpioOk dirOut ∧ GpioFail low ∧
    es = [.setDir pin .output .ok, .setLvl pin .low .fail]) ∨
  (∃ dirOut low dlyLow high, rs = dirOut ++ low ++ dlyLow ++ high ∧
    GpioOk dirOut ∧ GpioOk low ∧ DelayOver dlyLow ∧ GpioFail high ∧
    es = [.setDir pin .output .ok, .setLvl pin .low .ok, .delay 3000, .setLvl pin .high .fail]) ∨
  (∃ dirOut low dlyLow high dlyHigh dirIn, rs = dirOut ++ low ++ dlyLow ++ high ++ dlyHigh ++ dirIn ∧
    GpioOk dirOut ∧ GpioOk low ∧ DelayOver dlyLow ∧ GpioOk high ∧ DelayOver dlyHigh ∧ GpioFail dirIn ∧
    es = [.setDir pin .output .ok, .setLvl pin .low .ok, .delay 3000, .setLvl pin .high .ok, .delay 20,
      .setDir pin .input .fail])

/-- AWAIT_DATA times out at its first or at its second wait (43_handshake_detector R143). -/
def HandshakeTimeout (rs : List Inputs) : Prop :=
  WaitTimeout .hsRise rs ∨
  ∃ rise riseTime fall, rs = rise ++ fall ∧ WaitOk .hsRise rise riseTime ∧ WaitTimeout .hsFall fall

/-- READ_BIT times out at its first or at its second wait (44_bit_decoder R157). -/
def BitTimeout (rs : List Inputs) : Prop :=
  WaitTimeout .bitRise rs ∨
  ∃ rise riseTime fall, rs = rise ++ fall ∧ WaitOk .bitRise rise riseTime ∧ WaitTimeout .bitFall fall

/-- The byte that eight high times make, the first its most significant bit (45_frame_assembler R162). -/
def byteOf (tHighs : List Nat) : Byte :=
  tHighs.foldl (fun b t => b <<< 1 ||| (if bitValue t then 1#8 else 0#8)) 0#8

/-- The frame that forty high times make, byte 0 first (20_memory R64, 30_encoding R92). -/
def frameOf (tHighs : List Nat) : Vector Byte 5 :=
  #v[byteOf (tHighs.take 8), byteOf ((tHighs.drop 8).take 8), byteOf ((tHighs.drop 16).take 8),
     byteOf ((tHighs.drop 24).take 8), byteOf ((tHighs.drop 32).take 8)]

/-! ### The shapes of the statements -/

/-- The operands of the four waits, written from 30_encoding R90: site, target, bound in µs. -/
def waitOperands : List (Site × Level × Nat) :=
  [(.hsRise, .high, 90), (.hsFall, .low, 90), (.bitRise, .high, 70), (.bitFall, .low, 90)]

/-- The state a command ends in, written from 48_commands R196. -/
def ended (st : Status) (s : State) : State :=
  { s with status := st, done := true, phase := Phase.idle.code, trace := s.trace ++ [.fin st] }

/-- Where a wait that returned OK hands control, written from the table of 41_edge_waiter R120. -/
def waitReturnedOk (w : Site) (s : State) : State :=
  match w with
  | .hsRise => { s with site := .hsFall, phase := Phase.ewEntry.code }
  | .hsFall => { s with byteIdx := 0, bitIdx := 0, site := .bitRise, phase := Phase.ewEntry.code }
  | .bitRise => { s with site := .bitFall, phase := Phase.ewEntry.code }
  | .bitFall => { s with phase := Phase.bitStore.code }

/-- A phase that performs one `SetDir` or `SetLevel`: what it does on ok and on fail; every field not
named keeps its value. -/
def GpioPhase (i : Instr) (entry : Pin → Answer → Event) (afterOk : State → State) : Prop :=
  ∀ (s : State) (r : Inputs) (rest : List Inputs), s.inputs = r :: rest → r.gAck = true →
    (r.gFail = false → exec i s =
      .next (afterOk { s with inputs := rest, trace := s.trace ++ [entry s.pin .ok] })) ∧
    (r.gFail = true → exec i s =
      .next (ended .gpioError { s with inputs := rest, trace := s.trace ++ [entry s.pin .fail] }))

/-- A phase that performs one `Delay(d)`: what it does when the delay is over. -/
def DelayPhase (i : Instr) (d : Nat) (after : State → State) : Prop :=
  ∀ (s : State) (r : Inputs) (rest : List Inputs), s.inputs = r :: rest → r.dAck = true →
    exec i s = .next (after { s with inputs := rest, trace := s.trace ++ [.delay d] })

/-- From step `n` on the run comes to its end: a step of a busy block that leaves it idle with `done`
set and `FIN` of its status as the trace's last entry (00_scope R9). -/
def RunEnds (env : Environment) (s : State) (n : Nat) : Prop :=
  ∃ m t, n ≤ m ∧ (s.atStep env m).busy = true ∧ step (s.atStep env m) = .next t ∧
    t.phase = Phase.idle.code ∧ t.done = true ∧ t.trace.getLast? = some (.fin t.status)

/-- The steps that hold a request until `ack` shows its acknowledge. -/
def Holds (steps : List Instr) (ack : Inputs → Bool) : Prop :=
  ∀ i ∈ steps, ∀ (s : State) (r : Inputs) (rest : List Inputs), s.inputs = r :: rest → ack r = false →
    exec i s = .next { s with inputs := rest }

/-- What an answered poll does with elapsed time `e`, target and bound: 41_edge_waiter R112. -/
def PollOutcome (s : State) (r : Inputs) (rest : List Inputs) (target : Level) (bound e : Nat) : Prop :=
  let u : State := { s with inputs := rest, ewElapsed := e,
                            trace := s.trace ++ [.sample s.pin r.gLevel r.timeUs] }
  (r.gLevel = target → exec .ewPoll s = .next (waitReturnedOk s.site u)) ∧
  (r.gLevel ≠ target → bound ≤ e → exec .ewPoll s = .next (ended .timeout u)) ∧
  (r.gLevel ≠ target → e < bound → exec .ewPoll s = .next u)

/-- Run `i` next if the state reached meets `c`. -/
def thenIf (c : State → Bool) (i : Instr) (o : Out) : Out :=
  match o with
  | .next t => if c t then exec i t else .next t
  | .fault r => .fault r
  | .refused r => .refused r

/-- A wait at site `w` is about to start. -/
def atEntry (w : Site) (s : State) : Bool := s.phase == Phase.ewEntry.code && s.site == w

/-- How many entries of a kind a trace has. -/
def countEvents (kind : Event → Bool) (trace : List Event) : Nat := (trace.filter kind).length

/-- A `NOW` entry. -/
def Event.isNow : Event → Bool
  | .now _ => true
  | _ => false

/-- A `DELAY(d)` entry. -/
def Event.isDelay (d : Nat) : Event → Bool
  | .delay d' => d' == d
  | _ => false

/-- A `SAMPLE` entry. -/
def Event.isSample : Event → Bool
  | .sample _ _ _ => true
  | _ => false

/-- A `SETDIR` or `SETLVL` entry. -/
def Event.isGpio : Event → Bool
  | .setDir _ _ _ => true
  | .setLvl _ _ _ => true
  | _ => false

end Sys2Proof.Machine
end

