-- ==== Sys2Proof/Certificates/Slice0/Obligations.lean ====
section
/-! DEFINITION. Sys2Proof/Certificates/Slice0/Obligations.lean: the statements about the model, from the
numbered rules of spec/. -/

open Sys2Proof Sys2Proof.Machine

/-! ### Encoding -/

/-- 30_encoding R82, R84, R87, R89, R90 and opcode_table.json: decoding the code of a well-formed
operation gives it back, and a code that decodes is, but for an ignored operand, the code of a
well-formed operation. -/
def Obligations.DecodeInvertsEncode : Prop :=
  (∀ i : Instr, i.wellFormed = true → decode (encode i) = .instr i) ∧
  (∀ (c : Code) (i : Instr), decode c = .instr i → i.wellFormed = true ∧ encode i = c.withoutIgnored)

/-- A few codes written out from the tables of 30_encoding.md and opcode_table.json. -/
def Obligations.WrittenCodesDecode : Prop :=
  (∀ p : Pin, decode (.cmd 0b00#2 p) = .instr .nop ∧ decode (.cmd 0b01#2 p) = .instr (.init p) ∧
    decode (.cmd 0b10#2 p) = .instr (.read p) ∧ decode (.cmd 0b11#2 p) = .instr .cmdReserved) ∧
  decode (.op 0b1001#4 (some 0b10#2) (some (0#3, 0#3))) = .instr .assembleFrame ∧
  decode (.phase 0b1010#4) = .instr .ewPoll ∧ decode (.phase 0b1111#4) = .instr .phaseReserved ∧
  decode (.site 0b11#2) = .instr .bitFall ∧
  decode (.gpio 0b01#2 0#1) = .instr (.setLevel .low) ∧
  decode (.gpio 0b10#2 1#1) = .instr (.setDirection .output) ∧
  decode (.gpio 0b00#2 1#1) = .rejected .getLevelWithArgument ∧
  decode (.status 0b10#2) = .instr .badChecksum

/-- 10_state R21: `phase` "names the transaction the next step performs". Without `rst` a step is exec of
the operation that the phase register's code decodes to, with nothing around it. -/
def Obligations.StepRunsThePhase : Prop :=
  ∀ (s : State) (i : Instr), s.rstAsserted = false → decode (.phase s.phase) = .instr i →
    step s = exec i s

/-! ### Reset -/

/-- 10_state R40, 70_reset_and_hazards R241: the values the spec gives for reset. -/
def Obligations.ResetValues : Prop :=
  State.reset.phase = Phase.idle.code ∧ State.reset.done = false ∧ State.reset.status = .ok ∧
  State.reset.rdHumidity = 0#16 ∧ State.reset.rdTempNeg = false ∧ State.reset.rdTempMag = 0#15 ∧
  State.reset.rdChecksum = 0#8 ∧ State.reset.buf = #v[0#8, 0#8, 0#8, 0#8, 0#8] ∧
  State.reset.byteIdx = 0 ∧ State.reset.bitIdx = 0 ∧ State.reset.site = .hsRise ∧
  State.reset.busy = false ∧ State.reset.cmdReady = true ∧ State.reset.rdTemperature = 0#16

/-- 70_reset_and_hazards R240: "While `rst = 1` the block holds the reset state of 10_state.md rule R40,
accepts no command, and issues no transaction. The first step after `rst` falls is an IDLE step." -/
def Obligations.ResetInputHoldsResetState : Prop :=
  ∀ s : State, s.rstAsserted = true → ∃ t, step s = .next t ∧
    t.phase = Phase.idle.code ∧ t.done = false ∧ t.status = .ok ∧ t.rdHumidity = 0#16 ∧
    t.rdTempNeg = false ∧ t.rdTempMag = 0#15 ∧ t.rdChecksum = 0#8 ∧
    t.buf = #v[0#8, 0#8, 0#8, 0#8, 0#8] ∧ t.byteIdx = 0 ∧ t.bitIdx = 0 ∧ t.site = .hsRise ∧
    t.trace = s.trace ∧ t.inputs = s.inputs.tail ∧
    s.gpioRequest = none ∧ s.delayRequest = none ∧
    (t.rstAsserted = false → step t = exec .idle t)

/-- The invariants of the registers and of the line hold at reset. -/
def Obligations.ResetMeetsInvariants : Prop := State.reset.Inv ∧ State.reset.LineInv

/-! ### The command port -/

/-- 48_commands R190, R192 (the zeroing), R198, R199: the step IDLE with INIT, with READ, and with
nothing that is accepted. -/
def Obligations.IdleAcceptsCommands : Prop :=
  ∀ (s : State) (r : Inputs) (rest : List Inputs), s.inputs = r :: rest →
    (r.cmdValid = true → r.cmdOp = 0b01#2 → exec .idle s = .next
      { s with inputs := rest, trace := s.trace ++ [.cmd .init r.cmdPin], pin := r.cmdPin,
               done := false, phase := Phase.initDir.code }) ∧
    (r.cmdValid = true → r.cmdOp = 0b10#2 → exec .idle s = .next
      { s with inputs := rest, trace := s.trace ++ [.cmd .read r.cmdPin], pin := r.cmdPin,
               done := false, phase := Phase.rqDirOut.code,
               rdHumidity := 0#16, rdTempNeg := false, rdTempMag := 0#15, rdChecksum := 0#8,
               buf := #v[0#8, 0#8, 0#8, 0#8, 0#8] }) ∧
    (r.cmdValid = false ∨ r.cmdOp = 0b00#2 ∨ r.cmdOp = 0b11#2 →
      exec .idle s = .next { s with inputs := rest })

/-- 48_commands R198, R199: NOP and the reserved command code change nothing. -/
def Obligations.NopAndReservedChangeNothing : Prop :=
  ∀ s : State, exec .nop s = .next s ∧ exec .cmdReserved s = .next s

/-- 30_encoding R91: phase code 1111 is treated as IDLE; the step runs it so, and it is not busy. -/
def Obligations.ReservedPhaseActsAsIdle : Prop :=
  ∀ s : State, ∃ t, exec .phaseReserved s = .next t ∧ exec .idle s = .next t ∧
    (s.phase = 0b1111#4 → s.busy = false ∧ (s.rstAsserted = false → step s = .next t))

/-- 48_commands R200: while a command runs, whatever the command port shows changes nothing, and INIT
and READ presented then are not accepted. -/
def Obligations.BusyIgnoresCommands : Prop :=
  ∀ s : State, s.busy = true →
    s.cmdReady = false ∧
    (∀ (r : Inputs) (rest : List Inputs) (valid : Bool) (op : BitVec 2) (pin : Pin),
      s.inputs = r :: rest →
      step { s with inputs := { r with cmdValid := valid, cmdOp := op, cmdPin := pin } :: rest } = step s) ∧
    (∀ pin : Pin, exec (.init pin) s = .next s ∧ exec (.read pin) s = .next s)

/-- 48_commands R194, R195: the two phases of INIT. -/
def Obligations.InitPhases : Prop :=
  GpioPhase .initDir (fun pin a => .setDir pin .output a)
    (fun t => { t with phase := Phase.initLvl.code }) ∧
  GpioPhase .initLvl (fun pin a => .setLvl pin .high a) (ended .ok)

/-- 48_commands R193: INIT run to its end, answered well, and failing at either of its two steps. -/
def Obligations.InitRun : Prop :=
  ∀ (s : State) (pin : Pin) (r0 : Inputs) (dir lvl rest : List Inputs),
    s.busy = false → r0.rst = false →
    (s.inputs = r0 :: (dir ++ lvl ++ rest) → GpioOk dir → GpioOk lvl →
      exec (.init pin) s = .next (ended .ok { s with
        pin := pin, inputs := rest,
        trace := s.trace ++ [.cmd .init pin, .setDir pin .output .ok, .setLvl pin .high .ok] })) ∧
    (s.inputs = r0 :: (dir ++ rest) → GpioFail dir →
      exec (.init pin) s = .next (ended .gpioError { s with
        pin := pin, inputs := rest,
        trace := s.trace ++ [.cmd .init pin, .setDir pin .output .fail] })) ∧
    (s.inputs = r0 :: (dir ++ lvl ++ rest) → GpioOk dir → GpioFail lvl →
      exec (.init pin) s = .next (ended .gpioError { s with
        pin := pin, inputs := rest,
        trace := s.trace ++ [.cmd .init pin, .setDir pin .output .ok, .setLvl pin .high .fail] }))

/-! ### The Request Sequencer -/

/-- 42_request_sequencer R131, R132, R134, R136: its four GPIO phases. -/
def Obligations.RequestGpioPhases : Prop :=
  GpioPhase .rqDirOut (fun pin a => .setDir pin .output a)
    (fun t => { t with phase := Phase.rqLow.code }) ∧
  GpioPhase .rqLow (fun pin a => .setLvl pin .low a)
    (fun t => { t with phase := Phase.rqDlyLow.code }) ∧
  GpioPhase .rqHigh (fun pin a => .setLvl pin .high a)
    (fun t => { t with phase := Phase.rqDlyHigh.code }) ∧
  GpioPhase .rqDirIn (fun pin a => .setDir pin .input a)
    (fun t => { t with site := .hsRise, phase := Phase.ewEntry.code })

/-- 42_request_sequencer R133, R135: its two delays. -/
def Obligations.RequestDelayPhases : Prop :=
  DelayPhase .rqDlyLow 3000 (fun t => { t with phase := Phase.rqHigh.code }) ∧
  DelayPhase .rqDlyHigh 20 (fun t => { t with phase := Phase.rqDirIn.code })

/-- 42_request_sequencer R130, R137: REQUEST_READINGS answered well, and failing fast at any of its four
GPIO steps. -/
def Obligations.RequestReadingsRun : Prop :=
  ∀ (s : State) (rs rest : List Inputs), s.inputs = rs ++ rest →
    (RequestOk rs → exec .requestReadings s = .next
      { s with inputs := rest, site := .hsRise, phase := Phase.ewEntry.code,
               trace := s.trace ++ [.setDir s.pin .output .ok, .setLvl s.pin .low .ok, .delay 3000,
                 .setLvl s.pin .high .ok, .delay 20, .setDir s.pin .input .ok] }) ∧
    (∀ es : List Event, RequestFails s.pin rs es → exec .requestReadings s = .next
      (ended .gpioError { s with inputs := rest, trace := s.trace ++ es }))

/-! ### The Edge Waiter -/

/-- 41_edge_waiter R111: the step EW_ENTRY. -/
def Obligations.EdgeEntryStamps : Prop :=
  ∀ (s : State) (r : Inputs) (rest : List Inputs), s.inputs = r :: rest →
    exec .ewEntry s = .next { s with inputs := rest, trace := s.trace ++ [.now r.timeUs],
                                     ewT0 := r.timeUs, phase := Phase.ewPoll.code }

/-- 41_edge_waiter R112, R114, R115 with the operands of 30_encoding R90: the step EW_POLL on a clock
that has not run backwards. -/
def Obligations.EdgePollJudges : Prop :=
  ∀ (w : Site) (target : Level) (bound : Nat), (w, target, bound) ∈ waitOperands →
    ∀ (s : State) (r : Inputs) (rest : List Inputs), s.inputs = r :: rest → s.site = w →
      r.gAck = true → s.ewT0 ≤ r.timeUs → PollOutcome s r rest target bound (r.timeUs - s.ewT0)

/-- The model's choice (log 4), on 70_reset_and_hazards R249: with a clock value below the entry stamp
the step EW_POLL still runs, with some elapsed time the rules do not give. -/
def Obligations.BackwardClockPollGoesOn : Prop :=
  ∀ (w : Site) (target : Level) (bound : Nat), (w, target, bound) ∈ waitOperands →
    ∀ (s : State) (r : Inputs) (rest : List Inputs), s.inputs = r :: rest → s.site = w →
      r.gAck = true → r.timeUs < s.ewT0 → ∃ e, PollOutcome s r rest target bound e

/-- 30_encoding R87: `g_fail` is "ignored for GET_LEVEL". -/
def Obligations.PollIgnoresFailureFlag : Prop :=
  ∀ (s : State) (r : Inputs) (rest : List Inputs) (failFlag : Bool), s.inputs = r :: rest →
    s.phase = Phase.ewPoll.code →
    step { s with inputs := { r with gFail := failFlag } :: rest } = step s

/-- 41_edge_waiter R110: a wait, run by its two phases, returns what the pseudocode returns on the same
samples, after the same number of polls; AWAIT_LEVEL is the wait at the `site` register's site. -/
def Obligations.WaitsRefineThePseudocode : Prop :=
  ∀ (w : Site) (target : Level) (bound : Nat) (i : Instr),
    (w, target, bound) ∈ waitOperands →
    (w, i) ∈ [(Site.hsRise, Instr.hsRise), (.hsFall, .hsFall), (.bitRise, .bitRise), (.bitFall, .bitFall)] →
    ∀ (s : State) (r0 : Inputs) (polls rest : List Inputs) (result : WaitResult) (e n : Nat),
      s.inputs = r0 :: (polls ++ rest) → r0.rst = false →
      (∀ m ∈ polls, m.rst = false ∧ m.gAck = true) →
      awaitLevel target bound r0.timeUs (polls.map fun m => (m.gLevel, m.timeUs)) = some (result, e, n) →
      let u : State := { s with
        site := w, phase := Phase.ewPoll.code, ewT0 := r0.timeUs, ewElapsed := e,
        inputs := polls.drop n ++ rest,
        trace := s.trace ++ .now r0.timeUs :: (polls.take n).map fun m => .sample s.pin m.gLevel m.timeUs }
      let t := match result with
        | .ok => waitReturnedOk w u
        | .timeout => ended .timeout u
      exec i s = .next t ∧ (s.site = w → exec .awaitLevel s = .next t)

/-- 41_edge_waiter R117: under P2 a wait ends: some number of records suffices, whatever comes after
them; and "If the level never matches … it ends with TIMEOUT". -/
def Obligations.WaitEndsWhenTimePasses : Prop :=
  ∀ (w : Site) (target : Level) (bound : Nat), (w, target, bound) ∈ waitOperands →
    ∀ (env : Environment) (s : State), s.site = w → (∀ n, (env n).rst = false) →
      TimeProgress env { s with phase := Phase.ewEntry.code } →
      ∃ n : Nat, ∀ rest : List Inputs, ∃ t,
        exec .awaitLevel { s with inputs := (List.range n).map env ++ rest } = .next t ∧
        inWait w t = false ∧
        ((∀ m, (env m).gLevel ≠ target) →
          t.phase = Phase.idle.code ∧ t.done = true ∧ t.status = .timeout)

/-- 41_edge_waiter R117: "a clock that stands still": if no answered poll shows the target level and the
elapsed time never reaches the bound, the block goes on polling and the run has no status. That exec of
a wait that has not ended answers the state it waits in when the port records are used up is the
model's choice (log 7, with log 1). -/
def Obligations.StoppedClockPollsForEver : Prop :=
  ∀ (w : Site) (target : Level) (bound : Nat), (w, target, bound) ∈ waitOperands →
    ∀ (s : State) (r0 : Inputs) (polls : List Inputs), s.inputs = r0 :: polls → s.site = w →
      NoReset (r0 :: polls) →
      (∀ m ∈ polls, m.gAck = true →
        m.gLevel ≠ target ∧ r0.timeUs ≤ m.timeUs ∧ m.timeUs - r0.timeUs < bound) →
      ∃ t, exec .awaitLevel s = .next t ∧ t.phase = Phase.ewPoll.code ∧ t.site = w ∧
        t.status = s.status ∧ t.done = s.done ∧ t.inputs = [] ∧
        t.trace = s.trace ++ .now r0.timeUs ::
          (polls.filter (·.gAck)).map fun m => .sample s.pin m.gLevel m.timeUs

/-- 41_edge_waiter R113: under P1 `elapsed` "is at least 0 and never decreases from poll to poll within
one wait", in every run that does not begin inside a wait; so the free value (log 4) is never used. -/
def Obligations.ElapsedUnderMonotonicTime : Prop :=
  ∀ (env : Environment) (s : State), s.phase ≠ Phase.ewPoll.code → MonotonicTime env s →
    ∀ n t : Nat, (s.atStep env n).phase = Phase.ewPoll.code → (s.atStep env n).timeReturned = some t →
      (s.atStep env n).ewT0 ≤ t ∧
      (s.atStep env (n + 1)).ewElapsed = t - (s.atStep env n).ewT0 ∧
      ∀ m : Nat, m < n → (∀ k, m ≤ k → k ≤ n → (s.atStep env k).phase = Phase.ewPoll.code) →
        (s.atStep env m).timeReturned ≠ none →
        (s.atStep env (m + 1)).ewElapsed ≤ (s.atStep env (n + 1)).ewElapsed

/-! ### The Handshake Detector -/

/-- 43_handshake_detector R140 to R143: AWAIT_DATA returns OK or TIMEOUT; `ew_t0`, `ew_elapsed` and the
trace are the waits'. -/
def Obligations.AwaitDataRun : Prop :=
  ∀ (s : State) (rs rest : List Inputs), s.inputs = rs ++ rest →
    (HandshakeOk rs → ∃ t, exec .awaitData s = .next t ∧
      t = { s with inputs := rest, byteIdx := 0, bitIdx := 0, site := .bitRise,
                   phase := Phase.ewEntry.code, ewT0 := t.ewT0, ewElapsed := t.ewElapsed,
                   trace := t.trace }) ∧
    (HandshakeTimeout rs → ∃ t before, exec .awaitData s = .next t ∧
      t = { s with inputs := rest, site := t.site, phase := Phase.idle.code, status := .timeout,
                   done := true, ewT0 := t.ewT0, ewElapsed := t.ewElapsed,
                   trace := before ++ [.fin .timeout] })

/-- 30_encoding R97: "AWAIT_DATA is AWAIT_LEVEL at site HS_RISE then AWAIT_LEVEL at site HS_FALL", in
every environment. -/
def Obligations.AwaitDataExpands : Prop :=
  ∀ s : State, exec .awaitData s = thenIf (atEntry .hsFall) .hsFall (exec .hsRise s)

/-! ### The Bit Decoder and the Frame Assembler -/

/-- 44_bit_decoder R153: the step BIT_STORE changes the bit with arrival index `8 * byte_idx + bit_idx`
and no other, by an OR with the comparison of `ew_elapsed` with 40. -/
def Obligations.BitStoreSetsOneBit : Prop :=
  ∀ s : State, ∃ t, exec .bitStore s = .next t ∧
    t = { s with buf := t.buf, phase := Phase.faSettle.code, inputs := s.inputs.tail } ∧
    ∀ n : Fin 40, frameBit t.buf n =
      if n.val = 8 * s.byteIdx.val + s.bitIdx.val then frameBit s.buf n || decide (40 ≤ s.ewElapsed)
      else frameBit s.buf n

/-- 45_frame_assembler R163: the step FA_SETTLE. -/
def Obligations.SettleAdvances : Prop :=
  ∀ (s : State) (r : Inputs) (rest : List Inputs), s.inputs = r :: rest → r.dAck = true →
    (∀ h : s.bitIdx.val < 7, exec .faSettle s = .next
      { s with inputs := rest, trace := s.trace ++ [.delay 10], bitIdx := ⟨s.bitIdx.val + 1, by omega⟩,
               site := .bitRise, phase := Phase.ewEntry.code }) ∧
    (∀ h : s.byteIdx.val < 4, s.bitIdx = 7 → exec .faSettle s = .next
      { s with inputs := rest, trace := s.trace ++ [.delay 10], bitIdx := 0,
               byteIdx := ⟨s.byteIdx.val + 1, by omega⟩,
               site := .bitRise, phase := Phase.ewEntry.code }) ∧
    (s.bitIdx = 7 → s.byteIdx = 4 → exec .faSettle s = .next
      { s with inputs := rest, trace := s.trace ++ [.delay 10], phase := Phase.check.code })

/-- 44_bit_decoder R150, R157: READ_BIT stores the decoded bit, or times out with no bit stored. -/
def Obligations.ReadBitRun : Prop :=
  ∀ (s : State) (rest : List Inputs),
    (∀ (rise fall : List Inputs) (store : Inputs) (riseTime tHigh : Nat),
      s.inputs = rise ++ fall ++ store :: rest → WaitOk .bitRise rise riseTime →
      WaitOk .bitFall fall tHigh → store.rst = false → ∃ t, exec .readBit s = .next t ∧
        t = { s with inputs := rest, site := .bitFall, phase := Phase.faSettle.code,
                     ewT0 := t.ewT0, ewElapsed := tHigh, buf := t.buf, trace := t.trace } ∧
        ∀ n : Fin 40, frameBit t.buf n =
          if n.val = 8 * s.byteIdx.val + s.bitIdx.val then frameBit s.buf n || decide (40 ≤ tHigh)
          else frameBit s.buf n) ∧
    (∀ rs : List Inputs, s.inputs = rs ++ rest → BitTimeout rs → ∃ t before,
      exec .readBit s = .next t ∧
      t = { s with inputs := rest, site := t.site, phase := Phase.idle.code, status := .timeout,
                   done := true, ewT0 := t.ewT0, ewElapsed := t.ewElapsed,
                   trace := before ++ [.fin .timeout] })

/-- 30_encoding R97: "READ_BIT is AWAIT_LEVEL at site BIT_RISE, AWAIT_LEVEL at site BIT_FALL, BIT_STORE",
in every environment that does not reset the block. -/
def Obligations.ReadBitExpands : Prop :=
  ∀ s : State, NoReset s.inputs → exec .readBit s =
    thenIf (inPhase .bitStore) .bitStore (thenIf (atEntry .bitFall) .bitFall (exec .bitRise s))

/-- 45_frame_assembler R160 to R165: from a zeroed buffer, forty bits read in time fill it in arrival
order and lead to CHECK; a bit that does not arrive in time abandons the frame. -/
def Obligations.AssembleFrameRun : Prop :=
  ∀ (s : State) (bits rest : List Inputs) (tHighs : List Nat), BitsRead bits tHighs →
    s.buf = #v[0#8, 0#8, 0#8, 0#8, 0#8] →
    (tHighs.length = 40 → s.inputs = bits ++ rest → ∃ t, exec .assembleFrame s = .next t ∧
      t = { s with inputs := rest, site := .bitFall, phase := Phase.check.code, byteIdx := 4, bitIdx := 7,
                   buf := frameOf tHighs, ewT0 := t.ewT0, ewElapsed := t.ewElapsed, trace := t.trace } ∧
      ∀ (n : Nat) (h : n < 40) (h' : n < tHighs.length),
        frameBit (frameOf tHighs) ⟨n, h⟩ = decide (40 ≤ tHighs[n])) ∧
    (∀ last : List Inputs, tHighs.length < 40 → s.inputs = bits ++ last ++ rest → BitTimeout last →
      ∃ t before, exec .assembleFrame s = .next t ∧
        t = { s with inputs := rest, site := t.site, phase := Phase.idle.code, status := .timeout,
                     done := true, byteIdx := t.byteIdx, bitIdx := t.bitIdx, buf := t.buf,
                     ewT0 := t.ewT0, ewElapsed := t.ewElapsed, trace := before ++ [.fin .timeout] } ∧
        8 * t.byteIdx.val + t.bitIdx.val = tHighs.length ∧
        ∀ n : Fin 40, frameBit t.buf n = if h : n.val < tHighs.length then decide (40 ≤ tHighs[n.val])
          else false)

/-- 70_reset_and_hazards R251, 45_frame_assembler R165: under P4 the first clock value after the poll
that ends a bit is at least 10 past that poll's: the settle delay lies between them. -/
def Obligations.SettleSeparatesBits : Prop :=
  ∀ (env : Environment) (s : State), DelayAtLeast env s → ∀ (n k t u : Nat),
    (s.atStep env n).phase = Phase.ewPoll.code → (s.atStep env n).timeReturned = some t →
    (s.atStep env (n + 1)).phase = Phase.bitStore.code → n < k →
    (∀ j, n ≤ j → j < k → (env j).rst = false) →
    (∀ j, n < j → j < k → (s.atStep env j).timeReturned = none) →
    (s.atStep env k).timeReturned = some u → t + 10 ≤ u

/-! ### Checksum and reading -/

/-- 46_checksum_validator R170 to R173: the step CHECK and the operation VALIDATE_CHECKSUM. -/
def Obligations.CheckValidates : Prop :=
  ∀ s : State,
    let u : State := { s with rdChecksum := s.buf[4], inputs := s.inputs.tail }
    let sum := (s.buf[0].toNat + s.buf[1].toNat + s.buf[2].toNat + s.buf[3].toNat) % 256
    (s.buf[4].toNat = sum → exec .check s = .next { u with phase := Phase.decode.code }) ∧
    (s.buf[4].toNat ≠ sum → exec .check s = .next (ended .badChecksum u)) ∧
    (s.rstAsserted = false → exec .validateChecksum s = exec .check s)

/-- 46_checksum_validator R175: "one checksum byte for each choice of four data bytes". -/
def Obligations.OneChecksumPerFrame : Prop :=
  ∀ b0 b1 b2 b3 : Byte, ∃! c : Byte, checksumValid #v[b0, b1, b2, b3, c] = true

/-- 47_reading_decoder R180 to R183, R186: the step DECODE and the operation DECODE_READING. -/
def Obligations.DecodeLatchesReading : Prop :=
  ∀ s : State, ∃ t, exec .decode s = .next t ∧
    t = ended .ok { s with inputs := s.inputs.tail, rdHumidity := t.rdHumidity,
                           rdTempMag := t.rdTempMag, rdTempNeg := t.rdTempNeg } ∧
    t.rdHumidity.toNat = s.buf[0].toNat * 256 + s.buf[1].toNat ∧
    t.rdTempMag.toNat = (s.buf[2] &&& 0x7F#8).toNat * 256 + s.buf[3].toNat ∧
    t.rdTempNeg = decide (128 ≤ s.buf[2].toNat) ∧
    (s.rstAsserted = false → exec .decodeReading s = exec .decode s)

/-- 10_state R34, 47_reading_decoder R184: the signed temperature is `+mag` or `-mag`, so it lies in
-32767..32767, and negative zero reads 0. -/
def Obligations.TemperatureIsSignedMagnitude : Prop :=
  ∀ s : State,
    s.rdTemperature.toInt = (if s.rdTempNeg then -(s.rdTempMag.toNat : Int) else s.rdTempMag.toNat) ∧
    -32767 ≤ s.rdTemperature.toInt ∧ s.rdTemperature.toInt ≤ 32767 ∧
    s.hostView.rdTemperature = s.rdTemperature

/-- 30_encoding R93: taken together, `rd_humidity`, `rd_temp_neg`, `rd_temp_mag` and `rd_checksum` after
DECODE are the 40-bit frame again, in a state that CHECK has passed. -/
def Obligations.ReadingIsTheFrame : Prop :=
  ∀ s : State, s.Inv → s.phase = Phase.decode.code → ∃ t, exec .decode s = .next t ∧
    t.rdHumidity ++ (BitVec.ofBool t.rdTempNeg ++ t.rdTempMag) ++ t.rdChecksum =
      s.buf[0] ++ s.buf[1] ++ (s.buf[2] ++ s.buf[3]) ++ s.buf[4]

/-! ### READ -/

/-- 48_commands R191: READ of a frame that arrives whole ends with OK and the decoded reading, or with
BADCHECKSUM and the checksum byte alone. -/
def Obligations.ReadOfACompleteFrame : Prop :=
  ∀ (s : State) (pin : Pin) (r0 chk : Inputs) (req hs bits rest : List Inputs) (tHighs : List Nat),
    s.busy = false → s.inputs = r0 :: (req ++ hs ++ bits ++ chk :: rest) → r0.rst = false →
    RequestOk req → HandshakeOk hs → BitsRead bits tHighs → tHighs.length = 40 → chk.rst = false →
    let f := frameOf tHighs
    let sum := (f[0].toNat + f[1].toNat + f[2].toNat + f[3].toNat) % 256
    (∀ (dec : Inputs) (later : List Inputs), rest = dec :: later → dec.rst = false → f[4].toNat = sum →
      ∃ t, exec (.read pin) s = .next t ∧
        t.phase = Phase.idle.code ∧ t.done = true ∧ t.status = .ok ∧ t.pin = pin ∧ t.buf = f ∧
        t.rdHumidity.toNat = f[0].toNat * 256 + f[1].toNat ∧
        t.rdTempMag.toNat = (f[2] &&& 0x7F#8).toNat * 256 + f[3].toNat ∧
        t.rdTempNeg = decide (128 ≤ f[2].toNat) ∧ t.rdChecksum = f[4] ∧
        t.byteIdx = 4 ∧ t.bitIdx = 7 ∧ t.site = .bitFall ∧ t.inputs = later) ∧
    (f[4].toNat ≠ sum →
      ∃ t, exec (.read pin) s = .next t ∧
        t.phase = Phase.idle.code ∧ t.done = true ∧ t.status = .badChecksum ∧ t.pin = pin ∧ t.buf = f ∧
        t.rdHumidity = 0#16 ∧ t.rdTempMag = 0#15 ∧ t.rdTempNeg = false ∧ t.rdChecksum = f[4] ∧
        t.byteIdx = 4 ∧ t.bitIdx = 7 ∧ t.site = .bitFall ∧ t.inputs = rest)

/-- 45_frame_assembler R167, 95 V50: the trace of a READ whose frame arrives whole has 82 `NOW` entries,
42 `DELAY` entries (3000, 20, and forty of 10), four GPIO entries, at least 82 `SAMPLE` entries and one
`FIN`, its last. -/
def Obligations.CompleteReadCounts : Prop :=
  ∀ (s t : State) (pin : Pin) (r0 chk dec : Inputs) (req hs bits rest : List Inputs) (tHighs : List Nat),
    s.busy = false → s.inputs = r0 :: (req ++ hs ++ bits ++ chk :: dec :: rest) → r0.rst = false →
    RequestOk req → HandshakeOk hs → BitsRead bits tHighs → tHighs.length = 40 → chk.rst = false →
    dec.rst = false → exec (.read pin) s = .next t →
    ∃ es, t.trace = s.trace ++ .cmd .read pin :: es ++ [.fin t.status] ∧
      countEvents Event.isNow es = 82 ∧ countEvents (Event.isDelay 10) es = 40 ∧
      countEvents (Event.isDelay 20) es = 1 ∧ countEvents (Event.isDelay 3000) es = 1 ∧
      countEvents Event.isGpio es = 4 ∧ 82 ≤ countEvents Event.isSample es ∧
      countEvents Event.isFin es = 0

/-- 42_request_sequencer R137, 60_exceptions R218: READ whose request fails ends with GPIO_ERROR, the
reading and the buffer zero, and nothing in the trace after the failing answer but `FIN`. -/
def Obligations.ReadFailsFast : Prop :=
  ∀ (s : State) (pin : Pin) (r0 : Inputs) (req rest : List Inputs) (es : List Event),
    s.busy = false → s.inputs = r0 :: (req ++ rest) → r0.rst = false → RequestFails pin req es →
    exec (.read pin) s = .next (ended .gpioError { s with
      pin := pin, inputs := rest, trace := s.trace ++ .cmd .read pin :: es,
      rdHumidity := 0#16, rdTempNeg := false, rdTempMag := 0#15, rdChecksum := 0#8,
      buf := #v[0#8, 0#8, 0#8, 0#8, 0#8] })

/-- 43_handshake_detector R143, 45_frame_assembler R164, 60_exceptions R218: READ with a wait that times
out, in the handshake or at any bit, ends with TIMEOUT and an all-zero reading; the buffer holds the
bits stored so far and zeros elsewhere. -/
def Obligations.ReadTimesOut : Prop :=
  ∀ (s : State) (pin : Pin) (r0 : Inputs) (req late rest : List Inputs) (tHighs : List Nat),
    s.busy = false → r0.rst = false → RequestOk req →
    (s.inputs = r0 :: (req ++ late ++ rest) ∧ HandshakeTimeout late ∧ tHighs = []) ∨
    (∃ hs bits last, s.inputs = r0 :: (req ++ hs ++ bits ++ last ++ rest) ∧ HandshakeOk hs ∧
      BitsRead bits tHighs ∧ tHighs.length < 40 ∧ BitTimeout last) →
    ∃ t before, exec (.read pin) s = .next t ∧
      t.phase = Phase.idle.code ∧ t.done = true ∧ t.status = .timeout ∧ t.pin = pin ∧
      t.rdHumidity = 0#16 ∧ t.rdTempNeg = false ∧ t.rdTempMag = 0#15 ∧ t.rdChecksum = 0#8 ∧
      t.inputs = rest ∧ t.trace = s.trace ++ .cmd .read pin :: before ++ [.fin .timeout] ∧
      ∀ n : Fin 40, frameBit t.buf n = if h : n.val < tHighs.length then decide (40 ≤ tHighs[n.val])
        else false

/-- 30_encoding R97, 48_commands R191: READ "is REQUEST_READINGS, AWAIT_DATA, ASSEMBLE_FRAME,
VALIDATE_CHECKSUM, DECODE_READING", after the acceptance, each stopping at the first failure, in every
environment. -/
def Obligations.ReadExpands : Prop :=
  ∀ (s : State) (pin : Pin), s.busy = false → s.rstAsserted = false →
    let accepted : State := { s with
      inputs := s.inputs.tail, trace := s.trace ++ [.cmd .read pin], pin := pin, done := false,
      phase := Phase.rqDirOut.code, rdHumidity := 0#16, rdTempNeg := false, rdTempMag := 0#15,
      rdChecksum := 0#8, buf := #v[0#8, 0#8, 0#8, 0#8, 0#8] }
    exec (.read pin) s =
      thenIf (inPhase .decode) .decodeReading (thenIf (inPhase .check) .validateChecksum
        (thenIf (atEntry .bitRise) .assembleFrame (thenIf (atEntry .hsRise) .awaitData
          (exec .requestReadings accepted))))

/-! ### Endings, requests -/

/-- 48_commands R196: `finish(s)` writes `status`, `done`, `phase` and the `FIN` entry, "It writes nothing
else", for each of the four statuses. -/
def Obligations.FinishWritesOnlyTheOutcome : Prop :=
  ∀ (i : Instr) (st : Status),
    (i, st) ∈ [(Instr.ok, Status.ok), (.gpioError, .gpioError), (.badChecksum, .badChecksum),
      (.timeout, .timeout)] →
    ∀ s : State, exec i s = .next { s with status := st, done := true, phase := Phase.idle.code,
                                           trace := s.trace ++ [.fin st] }

/-- 30_encoding R87, 20_memory R67: the three GPIO requests, answered and held; none changes a
register. -/
def Obligations.GpioRequestsOnlyTrace : Prop :=
  ∀ (s : State) (r : Inputs) (rest : List Inputs) (l : Level) (d : Dir), s.inputs = r :: rest →
    (r.gAck = true →
      let a := if r.gFail then Answer.fail else Answer.ok
      exec (.setLevel l) s = .next { s with inputs := rest, trace := s.trace ++ [.setLvl s.pin l a] } ∧
      exec (.setDirection d) s = .next { s with inputs := rest, trace := s.trace ++ [.setDir s.pin d a] } ∧
      exec (.getLevel 0#1) s = .next { s with
        inputs := rest, trace := s.trace ++ [.sample s.pin r.gLevel r.timeUs] }) ∧
    (r.gAck = false →
      exec (.setLevel l) s = .next { s with inputs := rest } ∧
      exec (.setDirection d) s = .next { s with inputs := rest } ∧
      exec (.getLevel 0#1) s = .next { s with inputs := rest })

/-- 30_encoding R87, 93 U22: the reserved request is refused by its name, and the block never issues it;
whatever it issues carries the latched `pin` and, for GET_LEVEL, `g_arg = 0`. -/
def Obligations.ReservedRequestNeverIssued : Prop :=
  (∀ (s : State) (arg : BitVec 1), exec (.gpioReserved arg) s = .refused .reservedGpioRequest) ∧
  (∀ (s : State) (gOp : BitVec 2) (gArg : BitVec 1) (pin : Pin), s.gpioPort = some (gOp, gArg, pin) →
    gOp ≠ 0b11#2 ∧ pin = s.pin ∧ (gOp = 0b00#2 → gArg = 0#1))

/-- 30_encoding R88: "the only values the block ever issues are 3000, 20 and 10". -/
def Obligations.DelayPortValues : Prop :=
  ∀ (s : State) (d : BitVec 12), s.delayPort = some d → d = 3000#12 ∨ d = 20#12 ∨ d = 10#12

/-- 20_memory R62: the request the block holds is the transaction its step performs when it is answered:
the step's trace begins with the request's. -/
def Obligations.StepPerformsItsRequest : Prop :=
  ∀ (s : State) (i : Instr), s.gpioRequest = some i → s.gpioAnswer ≠ none →
    ∃ t u e fin, step s = .next t ∧ exec i s = .next u ∧ u.trace = s.trace ++ [e] ∧
      t.trace = u.trace ++ fin ∧ ∀ f ∈ fin, Event.isFin f = true

/-- 30_encoding R95: "a transaction is a request held until the matching acknowledge": a step whose
request is not acknowledged changes nothing. And the model's choice (log 1): with no port record left
nothing is presented and nothing answered, so a step changes nothing. -/
def Obligations.RequestsAreHeld : Prop :=
  Holds [.initDir, .initLvl, .rqDirOut, .rqLow, .rqHigh, .rqDirIn, .ewPoll] Inputs.gAck ∧
  Holds [.rqDlyLow, .rqDlyHigh, .faSettle] Inputs.dAck ∧
  ∀ i ∈ [Instr.idle, .initDir, .initLvl, .rqDirOut, .rqLow, .rqDlyLow, .rqHigh, .rqDlyHigh, .rqDirIn,
      .ewEntry, .ewPoll, .faSettle], ∀ s : State, s.inputs = [] → exec i s = .next s

/-! ### The whole machine -/

/-- 60_exceptions R230: "every step is total on its inputs": no state stops the block. -/
def Obligations.NoStepFaults : Prop := ∀ s : State, ∃ t, step s = .next t

/-- 60_exceptions R221, 48_commands R203, 00_scope R9: under P2 and P3 and without reset every run ends,
from any state of it; and under P5 too every command the host issues is accepted in the step it is
issued in (48_commands R190, R200) and ends. -/
def Obligations.EveryCommandEnds : Prop :=
  ∀ (env : Environment) (s : State), (∀ n, (env n).rst = false) → TimeProgress env s →
    CollaboratorsAnswer env s →
    (∀ n, (s.atStep env n).busy = true → RunEnds env s n) ∧
    (Serialised env s → ∀ (n : Nat) (op : Command) (pin : Pin), (s.atStep env n).issued = some (op, pin) →
      (s.atStep env (n + 1)).trace = (s.atStep env n).trace ++ [.cmd op pin] ∧
      (s.atStep env (n + 1)).pin = pin ∧ (s.atStep env (n + 1)).busy = true ∧
      RunEnds env s (n + 1))

/-- 48_commands R203: "The control transfers of the block, complete." -/
def Obligations.ControlGraph : Prop :=
  ∀ (s t : State) (p : Phase), s.rstAsserted = false → s.phase = p.code → step s = .next t →
    ∃ q ∈ arrowsFrom p, t.phase = q.code

/-- 00_scope R2, R8, 30_encoding R89: a step appends to the trace at most one transaction, the one of its
phase on the latched pin, and after it at most one `FIN`, which leads to IDLE. -/
def Obligations.OneTransactionPerStep : Prop :=
  ∀ (s t : State) (p : Phase), s.rstAsserted = false → s.phase = p.code → step s = .next t →
    ∃ tx fin, t.trace = s.trace ++ tx ++ fin ∧ tx.length ≤ 1 ∧
      (∀ e ∈ tx, Event.fitsPhase p s.pin e) ∧
      (fin = [] ∨ (fin = [.fin t.status] ∧ t.phase = Phase.idle.code ∧ t.done = true))

/-- 60_exceptions R211 to R213, 47_reading_decoder R186: which step ends a command with which status, and
why. -/
def Obligations.StatusCauses : Prop :=
  ∀ (s t : State) (p : Phase), s.rstAsserted = false → s.phase = p.code → p ≠ .idle → step s = .next t →
    t.phase = Phase.idle.code →
    match t.status with
    | .gpioError => p ∈ [.initDir, .initLvl, .rqDirOut, .rqLow, .rqHigh, .rqDirIn] ∧
        s.gpioAnswer = some .fail
    | .timeout => p = .ewPoll ∧ ∃ l u, s.sampleAnswer = some (l, u) ∧ l ≠ s.site.target ∧
        s.site.bound ≤ elapsedSince s.ewT0 u
    | .badChecksum => p = .check ∧
        s.buf[4].toNat ≠ (s.buf[0].toNat + s.buf[1].toNat + s.buf[2].toNat + s.buf[3].toNat) % 256
    | .ok => (p = .initLvl ∧ s.gpioAnswer = some .ok) ∨ p = .decode

/-- 10_state R23 to R35: which steps write which register; every other step leaves it as it was. -/
def Obligations.RegisterWriters : Prop :=
  ∀ (s t : State) (p : Phase), s.rstAsserted = false → s.phase = p.code → step s = .next t →
    (t.pin ≠ s.pin → p = .idle ∧ t.busy = true) ∧
    (t.buf ≠ s.buf → p = .bitStore ∨ (p = .idle ∧ t.phase = Phase.rqDirOut.code ∧
      t.buf = #v[0#8, 0#8, 0#8, 0#8, 0#8])) ∧
    (t.byteIdx ≠ s.byteIdx ∨ t.bitIdx ≠ s.bitIdx → p = .faSettle ∨
      (p = .ewPoll ∧ s.site = .hsFall ∧ t.byteIdx = 0 ∧ t.bitIdx = 0)) ∧
    (t.ewT0 ≠ s.ewT0 → p = .ewEntry) ∧ (t.ewElapsed ≠ s.ewElapsed → p = .ewPoll) ∧
    (t.site ≠ s.site → t.phase = Phase.ewEntry.code) ∧
    (t.status ≠ s.status → t.phase = Phase.idle.code ∧ t.done = true) ∧
    (t.done ≠ s.done → if p = .idle then t.busy = true ∧ t.done = false
      else t.phase = Phase.idle.code ∧ t.done = true) ∧
    (t.rdHumidity ≠ s.rdHumidity ∨ t.rdTempNeg ≠ s.rdTempNeg ∨ t.rdTempMag ≠ s.rdTempMag →
      p = .decode ∨ (p = .idle ∧ t.phase = Phase.rqDirOut.code)) ∧
    (t.rdChecksum ≠ s.rdChecksum → p = .check ∨ (p = .idle ∧ t.phase = Phase.rqDirOut.code))

/-- Every step, reset included, keeps the invariant of the registers (30_encoding R91, 10_state R31,
48_commands R192, 46 R173, 47 R186, 45 R162). -/
def Obligations.StepKeepsInvariant : Prop :=
  ∀ s t : State, s.Inv → step s = .next t → t.Inv

/-- Every step, reset included, keeps what the trace says of the pin (20_memory R62, 42 R138). -/
def Obligations.StepKeepsLine : Prop :=
  ∀ s t : State, s.LineInv → step s = .next t → t.LineInv

/-- 42_request_sequencer R138: what was last commanded ok of the pin when a READ ends, by exit point. -/
def Obligations.LineAtTheEnd : Prop :=
  ∀ (s t : State) (p : Phase), s.LineInv → s.rstAsserted = false → s.phase = p.code →
    step s = .next t → t.phase = Phase.idle.code →
    (p ∈ [.ewPoll, .check, .decode] →
      lastDir s.pin t.trace = some .input ∧ lastLevel s.pin t.trace = some .high) ∧
    (p = .rqDirIn → lastDir s.pin t.trace = some .output ∧ lastLevel s.pin t.trace = some .high) ∧
    (p = .rqHigh → lastDir s.pin t.trace = some .output ∧ lastLevel s.pin t.trace = some .low) ∧
    (p = .rqLow → lastDir s.pin t.trace = some .output ∧
      lastLevel s.pin t.trace = lastLevel s.pin s.trace) ∧
    (p = .rqDirOut → lastDir s.pin t.trace = lastDir s.pin s.trace ∧
      lastLevel s.pin t.trace = lastLevel s.pin s.trace) ∧
    (p = .initLvl → t.status = .ok →
      lastDir s.pin t.trace = some .output ∧ lastLevel s.pin t.trace = some .high)

/-- 60_exceptions R218, 48_commands R202: what the reading registers hold when a READ ends, by status. -/
def Obligations.ResultTable : Prop :=
  ∀ s t : State, s.Inv → s.inRead = true → s.rstAsserted = false → step s = .next t →
    t.phase = Phase.idle.code →
    t.done = true ∧ t.buf = s.buf ∧
    match t.status with
    | .ok => checksumValid t.buf = true ∧ t.rdChecksum = t.buf[4] ∧
        t.rdHumidity.toNat = t.buf[0].toNat * 256 + t.buf[1].toNat ∧
        t.rdTempMag.toNat = (t.buf[2] &&& 0x7F#8).toNat * 256 + t.buf[3].toNat ∧
        t.rdTempNeg = decide (128 ≤ t.buf[2].toNat)
    | .badChecksum => checksumValid t.buf = false ∧ t.rdChecksum = t.buf[4] ∧
        t.rdHumidity = 0#16 ∧ t.rdTempMag = 0#15 ∧ t.rdTempNeg = false
    | .timeout => t.rdChecksum = 0#8 ∧ t.rdHumidity = 0#16 ∧ t.rdTempMag = 0#15 ∧ t.rdTempNeg = false ∧
        ∀ n : Fin 40, s.bitsStored ≤ n.val → frameBit t.buf n = false
    | .gpioError => t.rdChecksum = 0#8 ∧ t.rdHumidity = 0#16 ∧ t.rdTempMag = 0#15 ∧
        t.rdTempNeg = false ∧ t.buf = #v[0#8, 0#8, 0#8, 0#8, 0#8]

/-- 48_commands R202: status and reading "stay readable and unchanged until the next command is
accepted", and so does the frame buffer. -/
def Obligations.ResultStaysUntilNextCommand : Prop :=
  ∀ s t : State, s.busy = false → s.rstAsserted = false → step s = .next t → t.busy = false →
    t.hostView = s.hostView ∧ t.buf = s.buf ∧ t.trace = s.trace

/-- 10_state R23: "No rule computes on it or compares it": renaming the sensor handles renames the
step's result and nothing else (`rst`, after which the handle is unspecified, apart). -/
def Obligations.HandleIsOpaque : Prop :=
  ∀ (f : Pin → Pin) (s : State), s.rstAsserted = false →
    step (s.mapPin f) = mapPinOut f (step s)

/-- 10_state R41: "No step reads a register that no earlier step of the same run, or reset, has written":
two states that agree on the live registers step to two that do, with the same trace and the same
host-visible state. -/
def Obligations.StaleRegistersDoNotMatter : Prop :=
  ∀ s t : State, s.LiveAgree t → s.hostView = t.hostView ∧
    ∃ s' t', step s = .next s' ∧ step t = .next t' ∧ s'.LiveAgree t' ∧ s'.hostView = t'.hostView
end

