-- ==== Sys2Proof/Laws/State.lean ====
section
/-! SUPPORT. Sys2Proof/Laws/State.lean: for each register transfer of Machine/Ops.lean, what each field of
State is after it: one lemma per field, so that no proof unfolds a record update. -/

namespace Sys2Proof.Machine

variable (s : State)

/-! ### tick -/

@[simp] theorem State.tick_phase : s.tick.phase = s.phase := rfl
@[simp] theorem State.tick_site : s.tick.site = s.site := rfl
@[simp] theorem State.tick_pin : s.tick.pin = s.pin := rfl
@[simp] theorem State.tick_buf : s.tick.buf = s.buf := rfl
@[simp] theorem State.tick_byteIdx : s.tick.byteIdx = s.byteIdx := rfl
@[simp] theorem State.tick_bitIdx : s.tick.bitIdx = s.bitIdx := rfl
@[simp] theorem State.tick_ewT0 : s.tick.ewT0 = s.ewT0 := rfl
@[simp] theorem State.tick_ewElapsed : s.tick.ewElapsed = s.ewElapsed := rfl
@[simp] theorem State.tick_status : s.tick.status = s.status := rfl
@[simp] theorem State.tick_done : s.tick.done = s.done := rfl
@[simp] theorem State.tick_rdHumidity : s.tick.rdHumidity = s.rdHumidity := rfl
@[simp] theorem State.tick_rdTempNeg : s.tick.rdTempNeg = s.rdTempNeg := rfl
@[simp] theorem State.tick_rdTempMag : s.tick.rdTempMag = s.rdTempMag := rfl
@[simp] theorem State.tick_rdChecksum : s.tick.rdChecksum = s.rdChecksum := rfl
@[simp] theorem State.tick_inputs : s.tick.inputs = s.inputs.tail := rfl
@[simp] theorem State.tick_trace : s.tick.trace = s.trace := rfl

/-! ### goto -/

@[simp] theorem State.goto_phase (p : Phase) : (s.goto p).phase = p.code := rfl
@[simp] theorem State.goto_site (p : Phase) : (s.goto p).site = s.site := rfl
@[simp] theorem State.goto_pin (p : Phase) : (s.goto p).pin = s.pin := rfl
@[simp] theorem State.goto_buf (p : Phase) : (s.goto p).buf = s.buf := rfl
@[simp] theorem State.goto_byteIdx (p : Phase) : (s.goto p).byteIdx = s.byteIdx := rfl
@[simp] theorem State.goto_bitIdx (p : Phase) : (s.goto p).bitIdx = s.bitIdx := rfl
@[simp] theorem State.goto_ewT0 (p : Phase) : (s.goto p).ewT0 = s.ewT0 := rfl
@[simp] theorem State.goto_ewElapsed (p : Phase) : (s.goto p).ewElapsed = s.ewElapsed := rfl
@[simp] theorem State.goto_status (p : Phase) : (s.goto p).status = s.status := rfl
@[simp] theorem State.goto_done (p : Phase) : (s.goto p).done = s.done := rfl
@[simp] theorem State.goto_rdHumidity (p : Phase) : (s.goto p).rdHumidity = s.rdHumidity := rfl
@[simp] theorem State.goto_rdTempNeg (p : Phase) : (s.goto p).rdTempNeg = s.rdTempNeg := rfl
@[simp] theorem State.goto_rdTempMag (p : Phase) : (s.goto p).rdTempMag = s.rdTempMag := rfl
@[simp] theorem State.goto_rdChecksum (p : Phase) : (s.goto p).rdChecksum = s.rdChecksum := rfl
@[simp] theorem State.goto_inputs (p : Phase) : (s.goto p).inputs = s.inputs := rfl
@[simp] theorem State.goto_trace (p : Phase) : (s.goto p).trace = s.trace := rfl

/-! ### record -/

@[simp] theorem State.record_phase (e : Event) : (s.record e).phase = s.phase := rfl
@[simp] theorem State.record_site (e : Event) : (s.record e).site = s.site := rfl
@[simp] theorem State.record_pin (e : Event) : (s.record e).pin = s.pin := rfl
@[simp] theorem State.record_buf (e : Event) : (s.record e).buf = s.buf := rfl
@[simp] theorem State.record_byteIdx (e : Event) : (s.record e).byteIdx = s.byteIdx := rfl
@[simp] theorem State.record_bitIdx (e : Event) : (s.record e).bitIdx = s.bitIdx := rfl
@[simp] theorem State.record_ewT0 (e : Event) : (s.record e).ewT0 = s.ewT0 := rfl
@[simp] theorem State.record_ewElapsed (e : Event) : (s.record e).ewElapsed = s.ewElapsed := rfl
@[simp] theorem State.record_status (e : Event) : (s.record e).status = s.status := rfl
@[simp] theorem State.record_done (e : Event) : (s.record e).done = s.done := rfl
@[simp] theorem State.record_rdHumidity (e : Event) : (s.record e).rdHumidity = s.rdHumidity := rfl
@[simp] theorem State.record_rdTempNeg (e : Event) : (s.record e).rdTempNeg = s.rdTempNeg := rfl
@[simp] theorem State.record_rdTempMag (e : Event) : (s.record e).rdTempMag = s.rdTempMag := rfl
@[simp] theorem State.record_rdChecksum (e : Event) : (s.record e).rdChecksum = s.rdChecksum := rfl
@[simp] theorem State.record_inputs (e : Event) : (s.record e).inputs = s.inputs := rfl
@[simp] theorem State.record_trace (e : Event) : (s.record e).trace = s.trace ++ [e] := rfl

/-! ### finish -/

@[simp] theorem State.finish_phase (st : Status) : (s.finish st).phase = Phase.idle.code := rfl
@[simp] theorem State.finish_site (st : Status) : (s.finish st).site = s.site := rfl
@[simp] theorem State.finish_pin (st : Status) : (s.finish st).pin = s.pin := rfl
@[simp] theorem State.finish_buf (st : Status) : (s.finish st).buf = s.buf := rfl
@[simp] theorem State.finish_byteIdx (st : Status) : (s.finish st).byteIdx = s.byteIdx := rfl
@[simp] theorem State.finish_bitIdx (st : Status) : (s.finish st).bitIdx = s.bitIdx := rfl
@[simp] theorem State.finish_ewT0 (st : Status) : (s.finish st).ewT0 = s.ewT0 := rfl
@[simp] theorem State.finish_ewElapsed (st : Status) : (s.finish st).ewElapsed = s.ewElapsed := rfl
@[simp] theorem State.finish_status (st : Status) : (s.finish st).status = st := rfl
@[simp] theorem State.finish_done (st : Status) : (s.finish st).done = true := rfl
@[simp] theorem State.finish_rdHumidity (st : Status) : (s.finish st).rdHumidity = s.rdHumidity := rfl
@[simp] theorem State.finish_rdTempNeg (st : Status) : (s.finish st).rdTempNeg = s.rdTempNeg := rfl
@[simp] theorem State.finish_rdTempMag (st : Status) : (s.finish st).rdTempMag = s.rdTempMag := rfl
@[simp] theorem State.finish_rdChecksum (st : Status) : (s.finish st).rdChecksum = s.rdChecksum := rfl
@[simp] theorem State.finish_inputs (st : Status) : (s.finish st).inputs = s.inputs := rfl
@[simp] theorem State.finish_trace (st : Status) : (s.finish st).trace = s.trace ++ [.fin st] := rfl

/-! ### startWait -/

@[simp] theorem State.startWait_phase (w : Site) : (s.startWait w).phase = Phase.ewEntry.code := rfl
@[simp] theorem State.startWait_site (w : Site) : (s.startWait w).site = w := rfl
@[simp] theorem State.startWait_pin (w : Site) : (s.startWait w).pin = s.pin := rfl
@[simp] theorem State.startWait_buf (w : Site) : (s.startWait w).buf = s.buf := rfl
@[simp] theorem State.startWait_byteIdx (w : Site) : (s.startWait w).byteIdx = s.byteIdx := rfl
@[simp] theorem State.startWait_bitIdx (w : Site) : (s.startWait w).bitIdx = s.bitIdx := rfl
@[simp] theorem State.startWait_ewT0 (w : Site) : (s.startWait w).ewT0 = s.ewT0 := rfl
@[simp] theorem State.startWait_ewElapsed (w : Site) : (s.startWait w).ewElapsed = s.ewElapsed := rfl
@[simp] theorem State.startWait_status (w : Site) : (s.startWait w).status = s.status := rfl
@[simp] theorem State.startWait_done (w : Site) : (s.startWait w).done = s.done := rfl
@[simp] theorem State.startWait_rdHumidity (w : Site) : (s.startWait w).rdHumidity = s.rdHumidity := rfl
@[simp] theorem State.startWait_rdTempNeg (w : Site) : (s.startWait w).rdTempNeg = s.rdTempNeg := rfl
@[simp] theorem State.startWait_rdTempMag (w : Site) : (s.startWait w).rdTempMag = s.rdTempMag := rfl
@[simp] theorem State.startWait_rdChecksum (w : Site) : (s.startWait w).rdChecksum = s.rdChecksum := rfl
@[simp] theorem State.startWait_inputs (w : Site) : (s.startWait w).inputs = s.inputs := rfl
@[simp] theorem State.startWait_trace (w : Site) : (s.startWait w).trace = s.trace := rfl

/-! ### acceptInit -/

@[simp] theorem State.acceptInit_phase (p : Pin) : (s.acceptInit p).phase = Phase.initDir.code := rfl
@[simp] theorem State.acceptInit_site (p : Pin) : (s.acceptInit p).site = s.site := rfl
@[simp] theorem State.acceptInit_pin (p : Pin) : (s.acceptInit p).pin = p := rfl
@[simp] theorem State.acceptInit_buf (p : Pin) : (s.acceptInit p).buf = s.buf := rfl
@[simp] theorem State.acceptInit_byteIdx (p : Pin) : (s.acceptInit p).byteIdx = s.byteIdx := rfl
@[simp] theorem State.acceptInit_bitIdx (p : Pin) : (s.acceptInit p).bitIdx = s.bitIdx := rfl
@[simp] theorem State.acceptInit_ewT0 (p : Pin) : (s.acceptInit p).ewT0 = s.ewT0 := rfl
@[simp] theorem State.acceptInit_ewElapsed (p : Pin) : (s.acceptInit p).ewElapsed = s.ewElapsed := rfl
@[simp] theorem State.acceptInit_status (p : Pin) : (s.acceptInit p).status = s.status := rfl
@[simp] theorem State.acceptInit_done (p : Pin) : (s.acceptInit p).done = false := rfl
@[simp] theorem State.acceptInit_rdHumidity (p : Pin) : (s.acceptInit p).rdHumidity = s.rdHumidity := rfl
@[simp] theorem State.acceptInit_rdTempNeg (p : Pin) : (s.acceptInit p).rdTempNeg = s.rdTempNeg := rfl
@[simp] theorem State.acceptInit_rdTempMag (p : Pin) : (s.acceptInit p).rdTempMag = s.rdTempMag := rfl
@[simp] theorem State.acceptInit_rdChecksum (p : Pin) : (s.acceptInit p).rdChecksum = s.rdChecksum := rfl
@[simp] theorem State.acceptInit_inputs (p : Pin) : (s.acceptInit p).inputs = s.inputs := rfl
@[simp] theorem State.acceptInit_trace (p : Pin) : (s.acceptInit p).trace = s.trace ++ [.cmd .init p] := rfl

/-! ### acceptRead -/

@[simp] theorem State.acceptRead_phase (p : Pin) : (s.acceptRead p).phase = Phase.rqDirOut.code := rfl
@[simp] theorem State.acceptRead_site (p : Pin) : (s.acceptRead p).site = s.site := rfl
@[simp] theorem State.acceptRead_pin (p : Pin) : (s.acceptRead p).pin = p := rfl
@[simp] theorem State.acceptRead_buf (p : Pin) : (s.acceptRead p).buf = #v[0#8, 0#8, 0#8, 0#8, 0#8] := rfl
@[simp] theorem State.acceptRead_byteIdx (p : Pin) : (s.acceptRead p).byteIdx = s.byteIdx := rfl
@[simp] theorem State.acceptRead_bitIdx (p : Pin) : (s.acceptRead p).bitIdx = s.bitIdx := rfl
@[simp] theorem State.acceptRead_ewT0 (p : Pin) : (s.acceptRead p).ewT0 = s.ewT0 := rfl
@[simp] theorem State.acceptRead_ewElapsed (p : Pin) : (s.acceptRead p).ewElapsed = s.ewElapsed := rfl
@[simp] theorem State.acceptRead_status (p : Pin) : (s.acceptRead p).status = s.status := rfl
@[simp] theorem State.acceptRead_done (p : Pin) : (s.acceptRead p).done = false := rfl
@[simp] theorem State.acceptRead_rdHumidity (p : Pin) : (s.acceptRead p).rdHumidity = 0#16 := rfl
@[simp] theorem State.acceptRead_rdTempNeg (p : Pin) : (s.acceptRead p).rdTempNeg = false := rfl
@[simp] theorem State.acceptRead_rdTempMag (p : Pin) : (s.acceptRead p).rdTempMag = 0#15 := rfl
@[simp] theorem State.acceptRead_rdChecksum (p : Pin) : (s.acceptRead p).rdChecksum = 0#8 := rfl
@[simp] theorem State.acceptRead_inputs (p : Pin) : (s.acceptRead p).inputs = s.inputs := rfl
@[simp] theorem State.acceptRead_trace (p : Pin) : (s.acceptRead p).trace = s.trace ++ [.cmd .read p] := rfl

/-! ### orBit -/

@[simp] theorem State.orBit_phase (b : Bool) : (s.orBit b).phase = s.phase := rfl
@[simp] theorem State.orBit_site (b : Bool) : (s.orBit b).site = s.site := rfl
@[simp] theorem State.orBit_pin (b : Bool) : (s.orBit b).pin = s.pin := rfl
@[simp] theorem State.orBit_buf (b : Bool) : (s.orBit b).buf = s.buf.set s.byteIdx.val (s.buf[s.byteIdx] ||| bitMask b s.bitIdx) s.byteIdx.isLt := rfl
@[simp] theorem State.orBit_byteIdx (b : Bool) : (s.orBit b).byteIdx = s.byteIdx := rfl
@[simp] theorem State.orBit_bitIdx (b : Bool) : (s.orBit b).bitIdx = s.bitIdx := rfl
@[simp] theorem State.orBit_ewT0 (b : Bool) : (s.orBit b).ewT0 = s.ewT0 := rfl
@[simp] theorem State.orBit_ewElapsed (b : Bool) : (s.orBit b).ewElapsed = s.ewElapsed := rfl
@[simp] theorem State.orBit_status (b : Bool) : (s.orBit b).status = s.status := rfl
@[simp] theorem State.orBit_done (b : Bool) : (s.orBit b).done = s.done := rfl
@[simp] theorem State.orBit_rdHumidity (b : Bool) : (s.orBit b).rdHumidity = s.rdHumidity := rfl
@[simp] theorem State.orBit_rdTempNeg (b : Bool) : (s.orBit b).rdTempNeg = s.rdTempNeg := rfl
@[simp] theorem State.orBit_rdTempMag (b : Bool) : (s.orBit b).rdTempMag = s.rdTempMag := rfl
@[simp] theorem State.orBit_rdChecksum (b : Bool) : (s.orBit b).rdChecksum = s.rdChecksum := rfl
@[simp] theorem State.orBit_inputs (b : Bool) : (s.orBit b).inputs = s.inputs := rfl
@[simp] theorem State.orBit_trace (b : Bool) : (s.orBit b).trace = s.trace := rfl

/-! ### latchReading -/

@[simp] theorem State.latchReading_phase : s.latchReading.phase = s.phase := rfl
@[simp] theorem State.latchReading_site : s.latchReading.site = s.site := rfl
@[simp] theorem State.latchReading_pin : s.latchReading.pin = s.pin := rfl
@[simp] theorem State.latchReading_buf : s.latchReading.buf = s.buf := rfl
@[simp] theorem State.latchReading_byteIdx : s.latchReading.byteIdx = s.byteIdx := rfl
@[simp] theorem State.latchReading_bitIdx : s.latchReading.bitIdx = s.bitIdx := rfl
@[simp] theorem State.latchReading_ewT0 : s.latchReading.ewT0 = s.ewT0 := rfl
@[simp] theorem State.latchReading_ewElapsed : s.latchReading.ewElapsed = s.ewElapsed := rfl
@[simp] theorem State.latchReading_status : s.latchReading.status = s.status := rfl
@[simp] theorem State.latchReading_done : s.latchReading.done = s.done := rfl
@[simp] theorem State.latchReading_rdHumidity : s.latchReading.rdHumidity = humidityOf s.buf := rfl
@[simp] theorem State.latchReading_rdTempNeg : s.latchReading.rdTempNeg = tempNegOf s.buf := rfl
@[simp] theorem State.latchReading_rdTempMag : s.latchReading.rdTempMag = tempMagOf s.buf := rfl
@[simp] theorem State.latchReading_rdChecksum : s.latchReading.rdChecksum = s.rdChecksum := rfl
@[simp] theorem State.latchReading_inputs : s.latchReading.inputs = s.inputs := rfl
@[simp] theorem State.latchReading_trace : s.latchReading.trace = s.trace := rfl

/-! ### resetByPort -/

@[simp] theorem State.resetByPort_phase : s.resetByPort.phase = Phase.idle.code := rfl
@[simp] theorem State.resetByPort_site : s.resetByPort.site = .hsRise := rfl
@[simp] theorem State.resetByPort_pin : s.resetByPort.pin = ⟨0⟩ := rfl
@[simp] theorem State.resetByPort_buf : s.resetByPort.buf = #v[0#8, 0#8, 0#8, 0#8, 0#8] := rfl
@[simp] theorem State.resetByPort_byteIdx : s.resetByPort.byteIdx = 0 := rfl
@[simp] theorem State.resetByPort_bitIdx : s.resetByPort.bitIdx = 0 := rfl
@[simp] theorem State.resetByPort_ewT0 : s.resetByPort.ewT0 = 0 := rfl
@[simp] theorem State.resetByPort_ewElapsed : s.resetByPort.ewElapsed = 0 := rfl
@[simp] theorem State.resetByPort_status : s.resetByPort.status = .ok := rfl
@[simp] theorem State.resetByPort_done : s.resetByPort.done = false := rfl
@[simp] theorem State.resetByPort_rdHumidity : s.resetByPort.rdHumidity = 0#16 := rfl
@[simp] theorem State.resetByPort_rdTempNeg : s.resetByPort.rdTempNeg = false := rfl
@[simp] theorem State.resetByPort_rdTempMag : s.resetByPort.rdTempMag = 0#15 := rfl
@[simp] theorem State.resetByPort_rdChecksum : s.resetByPort.rdChecksum = 0#8 := rfl
@[simp] theorem State.resetByPort_inputs : s.resetByPort.inputs = s.inputs.tail := rfl
@[simp] theorem State.resetByPort_trace : s.resetByPort.trace = s.trace := rfl

end Sys2Proof.Machine
end

