-- ==== Sys2Proof/Laws/Ops.lean ====
section
/-! SUPPORT. Sys2Proof/Laws/Ops.lean: what each shared operation of the machine can do, said once:
codes, answers, transactions, GPIO and delay steps, the frame buffer's bits. -/

namespace Sys2Proof

/-- Every phase is the phase of its code. -/
@[simp] theorem Phase.ofCode_code (p : Phase) : Phase.ofCode p.code = some p := by
  cases p <;> rfl

/-- Two phases with one code are one phase. -/
@[simp] theorem Phase.code_inj {p q : Phase} : p.code = q.code ↔ p = q := by
  cases p <;> cases q <;> decide

/-- A code is a phase's, or it is the reserved one. -/
theorem Phase.code_cases (c : BitVec 4) : (∃ p : Phase, c = p.code) ∨ c = 0b1111#4 := by
  have all : ∀ c : BitVec 4, (match Phase.ofCode c with
      | some p => c == p.code
      | none => c == 0b1111#4) = true := by decide
  have h := all c
  split at h
  · exact .inl ⟨_, by simpa using h⟩
  · exact .inr (by simpa using h)

/-- No phase has the reserved code. -/
theorem Phase.code_ne_reserved (p : Phase) : p.code ≠ 0b1111#4 := by cases p <;> decide

namespace Machine

/-! ### Answers of a step's port record -/

/-- A step without a record is no reset. -/
@[simp] theorem State.rstAsserted_nil {s : State} (h : s.inputs = []) : s.rstAsserted = false := by
  simp [State.rstAsserted, h]

/-- `rst` is the record's. -/
theorem State.rstAsserted_cons {s : State} {r : Inputs} {rest : List Inputs}
    (h : s.inputs = r :: rest) : s.rstAsserted = r.rst := by
  simp [State.rstAsserted, h]

/-- The GPIO answer is the record's. -/
theorem State.gpioAnswer_cons {s : State} {r : Inputs} {rest : List Inputs}
    (h : s.inputs = r :: rest) :
    s.gpioAnswer = if r.gAck then some (if r.gFail then .fail else .ok) else none := by
  simp [State.gpioAnswer, h]

/-- The sample is the record's. -/
theorem State.sampleAnswer_cons {s : State} {r : Inputs} {rest : List Inputs}
    (h : s.inputs = r :: rest) :
    s.sampleAnswer = if r.gAck then some (r.gLevel, r.timeUs) else none := by
  simp [State.sampleAnswer, h]

/-- The clock value is the record's. -/
theorem State.nowAnswer_cons {s : State} {r : Inputs} {rest : List Inputs}
    (h : s.inputs = r :: rest) : s.nowAnswer = some r.timeUs := by
  simp [State.nowAnswer, h]

/-- The delay's acknowledge is the record's. -/
theorem State.delayAnswer_cons {s : State} {r : Inputs} {rest : List Inputs}
    (h : s.inputs = r :: rest) : s.delayAnswer = r.dAck := by
  simp [State.delayAnswer, h]

/-! ### Transactions: with an answer the trace grows by one entry, without one only the record goes -/

/-- Everything `SetDir` can do. -/
theorem State.setDir_cases (s : State) (d : Dir) :
    (∃ a, s.gpioAnswer = some a ∧ s.setDir d = ((s.record (.setDir s.pin d a)).tick, some a)) ∨
    (s.gpioAnswer = none ∧ s.setDir d = (s.tick, none)) := by
  unfold State.setDir
  cases h : s.gpioAnswer with
  | none => exact .inr ⟨rfl, rfl⟩
  | some a => exact .inl ⟨a, rfl, rfl⟩

/-- Everything `SetLevel` can do. -/
theorem State.setLevel_cases (s : State) (l : Level) :
    (∃ a, s.gpioAnswer = some a ∧ s.setLevel l = ((s.record (.setLvl s.pin l a)).tick, some a)) ∨
    (s.gpioAnswer = none ∧ s.setLevel l = (s.tick, none)) := by
  unfold State.setLevel
  cases h : s.gpioAnswer with
  | none => exact .inr ⟨rfl, rfl⟩
  | some a => exact .inl ⟨a, rfl, rfl⟩

/-- Everything `Sample` can do. -/
theorem State.sample_cases (s : State) :
    (∃ l t, s.sampleAnswer = some (l, t) ∧
      s.sample = ((s.record (.sample s.pin l t)).tick, some (l, t))) ∨
    (s.sampleAnswer = none ∧ s.sample = (s.tick, none)) := by
  unfold State.sample
  cases h : s.sampleAnswer with
  | none => exact .inr ⟨rfl, rfl⟩
  | some a => exact .inl ⟨a.1, a.2, rfl, rfl⟩

/-- Everything `Now` can do. -/
theorem State.now_cases (s : State) :
    (∃ t, s.nowAnswer = some t ∧ s.now = ((s.record (.now t)).tick, some t)) ∨
    (s.nowAnswer = none ∧ s.now = (s.tick, none)) := by
  unfold State.now
  cases h : s.nowAnswer with
  | none => exact .inr ⟨rfl, rfl⟩
  | some a => exact .inl ⟨a, rfl, rfl⟩

/-- A `SetDir` step: on ok the continuation, on fail GPIO_ERROR, without an answer the held request. -/
theorem gpioStep_setDir_cases (s : State) (d : Dir) (onOk : State → State) :
    (s.gpioAnswer = some .ok ∧
      gpioStep (s.setDir d) onOk = onOk (s.record (.setDir s.pin d .ok)).tick) ∨
    (s.gpioAnswer = some .fail ∧
      gpioStep (s.setDir d) onOk = ((s.record (.setDir s.pin d .fail)).tick).finish .gpioError) ∨
    (s.gpioAnswer = none ∧ gpioStep (s.setDir d) onOk = s.tick) := by
  obtain ⟨a, ha, e⟩ | ⟨ha, e⟩ := s.setDir_cases d
  · cases a
    · exact .inl ⟨ha, by rw [e]; rfl⟩
    · exact .inr (.inl ⟨ha, by rw [e]; rfl⟩)
  · exact .inr (.inr ⟨ha, by rw [e]; rfl⟩)

/-- A `SetLevel` step, likewise. -/
theorem gpioStep_setLevel_cases (s : State) (l : Level) (onOk : State → State) :
    (s.gpioAnswer = some .ok ∧
      gpioStep (s.setLevel l) onOk = onOk (s.record (.setLvl s.pin l .ok)).tick) ∨
    (s.gpioAnswer = some .fail ∧
      gpioStep (s.setLevel l) onOk = ((s.record (.setLvl s.pin l .fail)).tick).finish .gpioError) ∨
    (s.gpioAnswer = none ∧ gpioStep (s.setLevel l) onOk = s.tick) := by
  obtain ⟨a, ha, e⟩ | ⟨ha, e⟩ := s.setLevel_cases l
  · cases a
    · exact .inl ⟨ha, by rw [e]; rfl⟩
    · exact .inr (.inl ⟨ha, by rw [e]; rfl⟩)
  · exact .inr (.inr ⟨ha, by rw [e]; rfl⟩)

/-- A delay step: the entry and the next phase once the delay is over, the held request before. -/
theorem delayStep_cases (s : State) (d : Nat) (after : State → State) :
    (s.delayAnswer = true ∧ delayStep s d after = after (s.record (.delay d)).tick) ∨
    (s.delayAnswer = false ∧ delayStep s d after = s.tick) := by
  unfold delayStep
  cases s.delayAnswer
  · exact .inr ⟨rfl, rfl⟩
  · exact .inl ⟨rfl, rfl⟩

/-- Step EW_ENTRY: the stamp, or the held request. -/
theorem ewEntryStep_cases (s : State) :
    (∃ t, s.nowAnswer = some t ∧
      ewEntryStep s = { (s.record (.now t)).tick with ewT0 := t }.goto .ewPoll) ∨
    (s.nowAnswer = none ∧ ewEntryStep s = s.tick) := by
  unfold ewEntryStep
  obtain ⟨t, ht, e⟩ | ⟨ht, e⟩ := s.now_cases <;> rw [e]
  · exact .inl ⟨t, ht, rfl⟩
  · exact .inr ⟨ht, rfl⟩

/-- The state in which a poll's level and elapsed time are judged. -/
def State.polled (s : State) (l : Level) (t : Nat) : State :=
  { (s.record (.sample s.pin l t)).tick with ewElapsed := elapsedSince s.ewT0 t }

@[simp] theorem State.polled_phase (s : State) (l : Level) (t : Nat) :
    (s.polled l t).phase = s.phase := rfl
@[simp] theorem State.polled_site (s : State) (l : Level) (t : Nat) :
    (s.polled l t).site = s.site := rfl
@[simp] theorem State.polled_pin (s : State) (l : Level) (t : Nat) :
    (s.polled l t).pin = s.pin := rfl
@[simp] theorem State.polled_buf (s : State) (l : Level) (t : Nat) :
    (s.polled l t).buf = s.buf := rfl
@[simp] theorem State.polled_byteIdx (s : State) (l : Level) (t : Nat) :
    (s.polled l t).byteIdx = s.byteIdx := rfl
@[simp] theorem State.polled_bitIdx (s : State) (l : Level) (t : Nat) :
    (s.polled l t).bitIdx = s.bitIdx := rfl
@[simp] theorem State.polled_ewT0 (s : State) (l : Level) (t : Nat) :
    (s.polled l t).ewT0 = s.ewT0 := rfl
@[simp] theorem State.polled_ewElapsed (s : State) (l : Level) (t : Nat) :
    (s.polled l t).ewElapsed = elapsedSince s.ewT0 t := rfl
@[simp] theorem State.polled_status (s : State) (l : Level) (t : Nat) :
    (s.polled l t).status = s.status := rfl
@[simp] theorem State.polled_done (s : State) (l : Level) (t : Nat) :
    (s.polled l t).done = s.done := rfl
@[simp] theorem State.polled_rdHumidity (s : State) (l : Level) (t : Nat) :
    (s.polled l t).rdHumidity = s.rdHumidity := rfl
@[simp] theorem State.polled_rdTempNeg (s : State) (l : Level) (t : Nat) :
    (s.polled l t).rdTempNeg = s.rdTempNeg := rfl
@[simp] theorem State.polled_rdTempMag (s : State) (l : Level) (t : Nat) :
    (s.polled l t).rdTempMag = s.rdTempMag := rfl
@[simp] theorem State.polled_rdChecksum (s : State) (l : Level) (t : Nat) :
    (s.polled l t).rdChecksum = s.rdChecksum := rfl
@[simp] theorem State.polled_inputs (s : State) (l : Level) (t : Nat) :
    (s.polled l t).inputs = s.inputs.tail := rfl
@[simp] theorem State.polled_trace (s : State) (l : Level) (t : Nat) :
    (s.polled l t).trace = s.trace ++ [.sample s.pin l t] := rfl

/-- Step EW_POLL: return, TIMEOUT, another poll, or the held request. -/
theorem ewPollStep_cases (s : State) :
    (∃ l t, s.sampleAnswer = some (l, t) ∧
      ((l = s.site.target ∧ ewPollStep s = (s.polled l t).waitReturned) ∨
       (l ≠ s.site.target ∧ s.site.bound ≤ elapsedSince s.ewT0 t ∧
          ewPollStep s = (s.polled l t).finish .timeout) ∨
       (l ≠ s.site.target ∧ elapsedSince s.ewT0 t < s.site.bound ∧ ewPollStep s = s.polled l t))) ∨
    (s.sampleAnswer = none ∧ ewPollStep s = s.tick) := by
  unfold ewPollStep
  obtain ⟨l, t, h, e⟩ | ⟨h, e⟩ := s.sample_cases <;> rw [e]
  · refine .inl ⟨l, t, h, ?_⟩
    have site : (s.polled l t).site = s.site := rfl
    have elapsed : (s.polled l t).ewElapsed = elapsedSince s.ewT0 t := rfl
    change (_ ∧ (s.polled l t).judgePoll l = _) ∨ (_ ∧ _ ∧ (s.polled l t).judgePoll l = _) ∨
      (_ ∧ _ ∧ (s.polled l t).judgePoll l = _)
    unfold State.judgePoll
    rw [site, elapsed]
    by_cases hl : l = s.site.target
    · exact .inl ⟨hl, by simp [hl]⟩
    · by_cases hb : s.site.bound ≤ elapsedSince s.ewT0 t
      · exact .inr (.inl ⟨hl, hb, by simp [hl, boundReached, hb]⟩)
      · exact .inr (.inr ⟨hl, by omega, by simp [hl, boundReached, hb]⟩)
  · exact .inr ⟨h, rfl⟩

/-- FA_SETTLE's loop: the next bit of the byte, the next byte, or the frame is complete. -/
theorem State.advanceBit_cases (s : State) :
    (∃ h : s.bitIdx.val < 7,
      s.advanceBit = { s with bitIdx := ⟨s.bitIdx.val + 1, by omega⟩ }.startWait .bitRise) ∨
    (s.bitIdx.val = 7 ∧ ∃ h : s.byteIdx.val < 4, s.advanceBit =
      { s with bitIdx := 0, byteIdx := ⟨s.byteIdx.val + 1, by omega⟩ }.startWait .bitRise) ∨
    (s.bitIdx.val = 7 ∧ s.byteIdx.val = 4 ∧ s.advanceBit = s.goto .check) := by
  unfold State.advanceBit
  by_cases h : s.bitIdx.val < 7
  · exact .inl ⟨h, by simp [h]⟩
  · by_cases g : s.byteIdx.val < 4
    · exact .inr (.inl ⟨by omega, g, by simp [h, g]⟩)
    · exact .inr (.inr ⟨by omega, by omega, by simp [h, g]⟩)

/-- Step CHECK: `rd_checksum` is the fifth byte either way. -/
theorem checkStep_cases (s : State) :
    (checksumValid s.buf = true ∧
      checkStep s = { s with rdChecksum := s.buf[4] }.tick.goto .decode) ∨
    (checksumValid s.buf = false ∧
      checkStep s = { s with rdChecksum := s.buf[4] }.tick.finish .badChecksum) := by
  unfold checkStep
  cases h : checksumValid s.buf
  · exact .inr ⟨rfl, by simp [h]⟩
  · exact .inl ⟨rfl, by simp [h]⟩

/-- What a command port record presents: INIT, READ, or nothing that is accepted. -/
theorem idleStep_cases (s : State) :
    (∃ pin, s.presented = some (.init pin) ∧ idleStep s = (s.acceptInit pin).tick) ∨
    (∃ pin, s.presented = some (.read pin) ∧ idleStep s = (s.acceptRead pin).tick) ∨
    ((∀ pin, s.presented ≠ some (.init pin) ∧ s.presented ≠ some (.read pin)) ∧
      idleStep s = s.tick) := by
  unfold idleStep
  split
  · rename_i pin h; exact .inl ⟨pin, h, rfl⟩
  · rename_i pin h; exact .inr (.inl ⟨pin, h, rfl⟩)
  · rename_i h1 h2
    exact .inr (.inr ⟨fun pin => ⟨h1 pin, h2 pin⟩, rfl⟩)

end Machine

end Sys2Proof
end

