-- ==== Sys2Proof/Laws/Sequencer.lean ====
section
/-! SUPPORT. Sys2Proof/Laws/Sequencer.lean: the step of the machine is the step of the sequencer, every
step takes exactly one port record, and how the run of an operation unfolds. -/

namespace Sys2Proof.Machine

/-- The machine's step is the sequencer's step: it never faults and never refuses. -/
theorem step_eq_seqStep (s : State) : step s = .next (seqStep s) := by
  unfold step seqStep
  split
  · rfl
  · obtain ⟨p, hp⟩ | hp := Phase.code_cases s.phase
    · unfold State.fetch decodePhase
      rw [hp, Phase.ofCode_code]
      cases p <;> rfl
    · unfold State.fetch decodePhase
      rw [hp]
      rfl

/-- Without a reset the sequencer's step is the step of its phase. -/
theorem seqStep_of_phase {s : State} {p : Phase} (hp : s.phase = p.code)
    (hr : s.rstAsserted = false) : seqStep s = phaseStep (some p) s := by
  simp [seqStep, hr, hp]

/-- With a reset it is the reset state. -/
theorem seqStep_of_rst {s : State} (hr : s.rstAsserted = true) : seqStep s = s.resetByPort := by
  simp [seqStep, hr]

/-- The return of a wait takes no record. -/
@[simp] theorem State.waitReturned_inputs (s : State) : s.waitReturned.inputs = s.inputs := by
  unfold State.waitReturned; cases s.site <;> rfl

/-- The loop of the frame takes no record. -/
@[simp] theorem State.advanceBit_inputs (s : State) : s.advanceBit.inputs = s.inputs := by
  unfold State.advanceBit
  split
  · rfl
  · split <;> rfl

/-- Every phase's step takes exactly one port record. -/
theorem phaseStep_inputs (p : Option Phase) (s : State) : (phaseStep p s).inputs = s.inputs.tail := by
  have gd : ∀ (d : Dir) (k : State → State), (∀ u : State, (k u).inputs = u.inputs) →
      (gpioStep (s.setDir d) k).inputs = s.inputs.tail := by
    intro d k hk
    obtain ⟨_, e⟩ | ⟨_, e⟩ | ⟨_, e⟩ := gpioStep_setDir_cases s d k <;> simp [e, hk]
  have gl : ∀ (l : Level) (k : State → State), (∀ u : State, (k u).inputs = u.inputs) →
      (gpioStep (s.setLevel l) k).inputs = s.inputs.tail := by
    intro l k hk
    obtain ⟨_, e⟩ | ⟨_, e⟩ | ⟨_, e⟩ := gpioStep_setLevel_cases s l k <;> simp [e, hk]
  have dl : ∀ (d : Nat) (k : State → State), (∀ u : State, (k u).inputs = u.inputs) →
      (delayStep s d k).inputs = s.inputs.tail := by
    intro d k hk
    obtain ⟨_, e⟩ | ⟨_, e⟩ := delayStep_cases s d k <;> simp [e, hk]
  have idle : (idleStep s).inputs = s.inputs.tail := by
    obtain ⟨_, _, e⟩ | ⟨_, _, e⟩ | ⟨_, e⟩ := idleStep_cases s <;> simp [e]
  match p with
  | none | some .idle => exact idle
  | some .initDir | some .rqDirOut | some .rqDirIn => exact gd _ _ fun _ => rfl
  | some .initLvl | some .rqLow | some .rqHigh => exact gl _ _ fun _ => rfl
  | some .rqDlyLow | some .rqDlyHigh => exact dl _ _ fun _ => rfl
  | some .faSettle => exact dl _ _ State.advanceBit_inputs
  | some .ewEntry =>
    obtain ⟨_, _, e⟩ | ⟨_, e⟩ := ewEntryStep_cases s <;> simp [phaseStep, e]
  | some .ewPoll =>
    obtain ⟨l, t, _, ⟨_, e⟩ | ⟨_, _, e⟩ | ⟨_, _, e⟩⟩ | ⟨_, e⟩ := ewPollStep_cases s <;>
      simp [phaseStep, e]
  | some .bitStore | some .decode => rfl
  | some .check => obtain ⟨_, e⟩ | ⟨_, e⟩ := checkStep_cases s <;> simp [phaseStep, e]

/-- Every step takes exactly one port record. -/
@[simp] theorem seqStep_inputs (s : State) : (seqStep s).inputs = s.inputs.tail := by
  unfold seqStep
  split
  · rfl
  · exact phaseStep_inputs _ s

/-! ### The run of an operation -/

/-- Where the operation is over, its run is over. -/
theorem runWhile_stop {inOp : State → Bool} {s : State} (h : inOp s = false) (n : Nat) :
    runWhile inOp n s = s := by
  cases n <;> simp [runWhile, h]

/-- Where the operation is over, its run is over. -/
theorem runOp_stop {inOp : State → Bool} {s : State} (h : inOp s = false) : runOp inOp s = s :=
  runWhile_stop h _

/-- While it runs and a record is left, its run is one step and the run from there. -/
theorem runOp_step {inOp : State → Bool} {s : State} {r : Inputs} {rest : List Inputs}
    (h : inOp s = true) (hi : s.inputs = r :: rest) : runOp inOp s = runOp inOp (seqStep s) := by
  simp [runOp, hi, runWhile, h]

/-- With no record left, a run is at most two steps. -/
theorem runOp_nil {inOp : State → Bool} {s : State} (hi : s.inputs = []) :
    runOp inOp s = if inOp s then (if inOp (seqStep s) then seqStep (seqStep s) else seqStep s) else s := by
  simp only [runOp, hi, List.length_nil, runWhile]

/-- `n` steps. -/
def steps : Nat → State → State
  | 0, s => s
  | n + 1, s => steps n (seqStep s)

/-- Steps one after another. -/
theorem steps_add (m n : Nat) (s : State) : steps (m + n) s = steps n (steps m s) := by
  induction m generalizing s with
  | zero => simp [steps]
  | succ m ih => rw [Nat.succ_add]; exact ih (seqStep s)

/-- If `n` records are left and the operation runs through `n` steps, its run goes on from there. -/
theorem runOp_steps {inOp : State → Bool} {n : Nat} {s : State} (hn : n ≤ s.inputs.length)
    (h : ∀ k < n, inOp (steps k s) = true) : runOp inOp s = runOp inOp (steps n s) := by
  induction n generalizing s with
  | zero => rfl
  | succ n ih =>
    cases hi : s.inputs with
    | nil => simp [hi] at hn
    | cons r rest =>
      rw [runOp_step (s := s) (h 0 (by omega)) hi, steps]
      exact ih (by simp [hi] at hn ⊢; omega) fun k hk => h (k + 1) (by omega)

end Sys2Proof.Machine
end

