-- ==== Sys2Proof/Laws/Runs.lean ====
section
/-! SUPPORT. Sys2Proof/Laws/Runs.lean: how the run of an operation passes through a held request, an
answered transaction, a delay and a wait, and how the run of a larger operation passes through the run of
a smaller one. -/

namespace Sys2Proof.Machine

/-! ### The fuel of a run is enough -/

/-- Without a port record a step takes none. -/
theorem seqStep_inputs_nil {s : State} (hi : s.inputs = []) : (seqStep s).inputs = [] := by simp [hi]

/-- Without port records a step leaves every phase as it is but BIT_STORE, CHECK and DECODE. -/
theorem seqStep_nil {s : State} (hi : s.inputs = []) :
    seqStep s = s ∨ s.phase = Phase.bitStore.code ∨ s.phase = Phase.check.code ∨
      s.phase = Phase.decode.code := by
  have hr : s.rstAsserted = false := State.rstAsserted_nil hi
  have ht : s.tick = s := by cases s; simp_all [State.tick]
  have idle : idleStep s = s := by simp [idleStep, State.presented, hi, ht]
  have ga : s.gpioAnswer = none := by simp [State.gpioAnswer, hi]
  have da : s.delayAnswer = false := by simp [State.delayAnswer, hi]
  obtain ⟨p, hp⟩ | hp := Phase.code_cases s.phase
  · rw [seqStep_of_phase hp hr, hp]
    cases p with
    | idle => exact .inl idle
    | initDir | rqDirOut | rqDirIn =>
      exact .inl (by simp [phaseStep, initDirStep, rqDirOutStep, rqDirInStep, State.setDir, ga, gpioStep, ht])
    | initLvl | rqLow | rqHigh =>
      exact .inl (by simp [phaseStep, initLvlStep, rqLowStep, rqHighStep, State.setLevel, ga, gpioStep, ht])
    | rqDlyLow | rqDlyHigh | faSettle =>
      exact .inl (by simp [phaseStep, rqDlyLowStep, rqDlyHighStep, faSettleStep, delayStep, da, ht])
    | ewEntry => exact .inl (by simp [phaseStep, ewEntryStep, State.now, State.nowAnswer, hi, ht])
    | ewPoll => exact .inl (by simp [phaseStep, ewPollStep, State.sample, State.sampleAnswer, hi, ht])
    | bitStore => exact .inr (.inl rfl)
    | check => exact .inr (.inr (.inl rfl))
    | decode => exact .inr (.inr (.inr rfl))
  · exact .inl (by simp [seqStep, hr, hp, Phase.ofCode, phaseStep, phaseReservedStep, idle])

/-- Without port records two steps reach a state that steps to itself. -/
theorem seqStep_nil_settles {s : State} (hi : s.inputs = []) :
    seqStep (seqStep (seqStep s)) = seqStep (seqStep s) := by
  have settled : ∀ u : State, u.inputs = [] → u.phase = Phase.idle.code ∨ u.phase = Phase.faSettle.code →
      seqStep u = u := by
    intro u hu hp
    obtain h | h := seqStep_nil hu
    · exact h
    · rcases hp with hp | hp <;> simp [hp] at h
  have h1 : (seqStep s).inputs = [] := seqStep_inputs_nil hi
  have h2 : (seqStep (seqStep s)).inputs = [] := seqStep_inputs_nil h1
  have hr : s.rstAsserted = false := State.rstAsserted_nil hi
  have decoded : ∀ u : State, u.inputs = [] → u.phase = Phase.decode.code →
      (seqStep u).phase = Phase.idle.code := by
    intro u hu hp
    rw [seqStep_of_phase hp (State.rstAsserted_nil hu)]; rfl
  obtain h | h | h | h := seqStep_nil hi
  · simp only [h]
  · have e : seqStep s = bitStoreStep s := seqStep_of_phase h hr
    have := settled (seqStep s) h1 (.inr (by rw [e]; rfl))
    rw [this, this]
  · obtain ⟨_, e⟩ | ⟨_, e⟩ := checkStep_cases s
    · have e' : (seqStep s).phase = Phase.decode.code := by
        rw [seqStep_of_phase h hr, phaseStep, e]; rfl
      exact settled _ h2 (.inl (decoded _ h1 e'))
    · have e' : (seqStep s).phase = Phase.idle.code := by
        rw [seqStep_of_phase h hr, phaseStep, e]; rfl
      have := settled (seqStep s) h1 (.inl e')
      rw [this, this]
  · have := settled (seqStep s) h1 (.inl (decoded s hi h))
    rw [this, this]

/-- The run of a larger operation passes through the run of a smaller one. -/
theorem runOp_through {inner outer : State → Bool} (h : ∀ u, inner u = true → outer u = true)
    (s : State) : runOp outer s = runOp outer (runOp inner s) := by
  generalize hn : s.inputs = rs
  induction rs generalizing s with
  | cons r rest ih =>
    cases hin : inner s with
    | false => rw [runOp_stop hin]
    | true =>
      rw [runOp_step hin hn, runOp_step (h s hin) hn]
      exact ih (seqStep s) (by simp [hn])
  | nil =>
    cases hin : inner s with
    | false => rw [runOp_stop hin]
    | true =>
      have h1 : (seqStep s).inputs = [] := seqStep_inputs_nil hn
      have h2 : (seqStep (seqStep s)).inputs = [] := seqStep_inputs_nil h1
      have hf := seqStep_nil_settles hn
      rw [runOp_nil (inOp := inner) hn, runOp_nil (inOp := outer) hn, if_pos hin, if_pos (h s hin)]
      cases hin1 : inner (seqStep s) with
      | true =>
        rw [if_pos rfl, if_pos (h _ hin1), runOp_nil h2, hf, hf]
        simp
      | false =>
        simp only [if_false, Bool.false_eq_true, runOp_nil h1, hf]
        simp

/-- The run of an operation is one step and the run from there, whatever records are left. -/
theorem runOp_unfold {inOp : State → Bool} {s : State} (h : inOp s = true) :
    runOp inOp s = runOp inOp (seqStep s) := by
  cases hi : s.inputs with
  | cons r rest => exact runOp_step h hi
  | nil =>
    have h1 : (seqStep s).inputs = [] := seqStep_inputs_nil hi
    rw [runOp_nil hi, if_pos h, runOp_nil h1, seqStep_nil_settles hi]
    simp

/-- What every step keeps, a run keeps. -/
theorem runOp_keeps {inOp P : State → Bool} (h : ∀ u, P u = true → P (seqStep u) = true) {s : State}
    (hs : P s = true) : P (runOp inOp s) = true := by
  have go : ∀ (n : Nat) (u : State), P u = true → P (runWhile inOp n u) = true := by
    intro n
    induction n with
    | zero => exact fun u hu => hu
    | succ n ih =>
      intro u hu
      unfold runWhile
      split
      · exact ih _ (h u hu)
      · exact hu
  exact go _ s hs

/-- Nothing more happens in this state: no record is left and a step changes nothing. -/
def State.settled (s : State) : Prop := s.inputs = [] ∧ seqStep s = s

/-- A run from a settled state stays there. -/
theorem runOp_settled {inOp : State → Bool} {s : State} (h : s.settled) : runOp inOp s = s := by
  rw [runOp_nil h.1, h.2, h.2]
  simp

/-- How a run ends: outside the operation, in the way its last step left it, or, the records used up,
still inside and settled. -/
theorem runOp_ends {inOp Q : State → Bool}
    (h : ∀ u, inOp u = true → inOp (seqStep u) = true ∨ Q (seqStep u) = true) {s : State}
    (hs : inOp s = true) :
    (inOp (runOp inOp s) = true ∧ (runOp inOp s).settled) ∨ Q (runOp inOp s) = true := by
  by_cases hQ : ∃ u, runOp inOp s = runOp inOp u ∧ inOp u = false ∧ Q u = true
  · obtain ⟨u, e, hu, q⟩ := hQ
    rw [e, runOp_stop hu]
    exact .inr q
  · left
    generalize hn : s.inputs = rs
    induction rs generalizing s with
    | cons r rest ih =>
      rw [runOp_step hs hn] at hQ ⊢
      cases h1 : inOp (seqStep s) with
      | true => exact ih h1 hQ (by simp [hn])
      | false => exact absurd ⟨_, rfl, h1, (h s hs).resolve_left (by simp [h1])⟩ hQ
    | nil =>
      have i1 : (seqStep s).inputs = [] := seqStep_inputs_nil hn
      have i2 : (seqStep (seqStep s)).inputs = [] := seqStep_inputs_nil i1
      have f := seqStep_nil_settles hn
      rw [runOp_unfold hs] at hQ ⊢
      cases h1 : inOp (seqStep s) with
      | false => exact absurd ⟨_, rfl, h1, (h s hs).resolve_left (by simp [h1])⟩ hQ
      | true =>
        rw [runOp_unfold h1] at hQ ⊢
        cases h2 : inOp (seqStep (seqStep s)) with
        | false => exact absurd ⟨_, rfl, h2, (h _ h1).resolve_left (by simp [h2])⟩ hQ
        | true =>
          rw [runOp_settled ⟨i2, f⟩]
          exact ⟨h2, i2, f⟩

/-! ### Held requests and answered transactions -/

/-- A request that is not answered is held: only the records go. -/
theorem runOp_held {inOp : State → Bool} {p : Phase} {s : State} {held rest : List Inputs}
    (hi : s.inputs = held ++ rest) (hp : s.phase = p.code)
    (hin : ∀ ins, inOp { s with inputs := ins } = true)
    (h : ∀ r ∈ held, r.rst = false ∧
      ∀ (u : State) (later : List Inputs), u.inputs = r :: later → phaseStep (some p) u = u.tick) :
    runOp inOp s = runOp inOp { s with inputs := rest } := by
  induction held generalizing s with
  | nil => cases s; simp_all
  | cons r held ih =>
    have hr : s.rstAsserted = false := by
      rw [State.rstAsserted_cons (by simpa using hi)]; exact (h r (by simp)).1
    have e : seqStep s = { s with inputs := held ++ rest } := by
      rw [seqStep_of_phase hp hr, (h r (by simp)).2 s (held ++ rest) (by simpa using hi)]
      cases s; simp_all [State.tick]
    have here : inOp s = true := by have := hin s.inputs; exact this
    rw [runOp_step here (by simpa using hi), e]
    exact ih rfl hp hin fun r' hr' => h r' (List.mem_cons_of_mem r hr')

/-- A request that is answered: the held records go, then the phase makes its step on the last one. -/
theorem runOp_answered {inOp : State → Bool} {p : Phase} {s : State} {held rest : List Inputs}
    {r : Inputs} (hi : s.inputs = held ++ [r] ++ rest) (hp : s.phase = p.code)
    (hin : ∀ ins, inOp { s with inputs := ins } = true) (hr : r.rst = false)
    (h : ∀ r ∈ held, r.rst = false ∧
      ∀ (u : State) (later : List Inputs), u.inputs = r :: later → phaseStep (some p) u = u.tick) :
    runOp inOp s = runOp inOp (phaseStep (some p) { s with inputs := r :: rest }) := by
  rw [runOp_held (by simpa using hi) hp hin h, runOp_step (hin _) rfl,
    seqStep_of_phase (s := { s with inputs := r :: rest }) hp hr]

/-- A `SetDir` phase answered well. -/
theorem runOp_setDir_ok {inOp : State → Bool} {p : Phase} {d : Dir} {k : State → State} {s : State}
    {rs rest : List Inputs} (hk : ∀ u, phaseStep (some p) u = gpioStep (u.setDir d) k)
    (hi : s.inputs = rs ++ rest) (hp : s.phase = p.code)
    (hin : ∀ ins, inOp { s with inputs := ins } = true) (h : GpioOk rs) :
    runOp inOp s = runOp inOp
      (k { s with inputs := rest, trace := s.trace ++ [.setDir s.pin d .ok] }) := by
  obtain ⟨held, r, rfl, hh, hr, ha, hf⟩ := h
  rw [runOp_answered hi hp hin hr fun r' h' => ⟨(hh r' h').1, fun u later hu => by
    simp [hk, State.setDir, State.gpioAnswer_cons hu, (hh r' h').2, gpioStep]⟩, hk]
  simp [State.setDir, State.gpioAnswer, ha, hf, gpioStep, State.record, State.tick]

/-- A `SetDir` phase answered with a failure. -/
theorem runOp_setDir_fail {inOp : State → Bool} {p : Phase} {d : Dir} {k : State → State} {s : State}
    {rs rest : List Inputs} (hk : ∀ u, phaseStep (some p) u = gpioStep (u.setDir d) k)
    (hi : s.inputs = rs ++ rest) (hp : s.phase = p.code)
    (hin : ∀ ins, inOp { s with inputs := ins } = true) (h : GpioFail rs) :
    runOp inOp s = runOp inOp
      (({ s with inputs := rest, trace := s.trace ++ [.setDir s.pin d .fail] } : State).finish .gpioError) := by
  obtain ⟨held, r, rfl, hh, hr, ha, hf⟩ := h
  rw [runOp_answered hi hp hin hr fun r' h' => ⟨(hh r' h').1, fun u later hu => by
    simp [hk, State.setDir, State.gpioAnswer_cons hu, (hh r' h').2, gpioStep]⟩, hk]
  simp [State.setDir, State.gpioAnswer, ha, hf, gpioStep, State.record, State.tick]

/-- A `SetLevel` phase answered well. -/
theorem runOp_setLevel_ok {inOp : State → Bool} {p : Phase} {l : Level} {k : State → State} {s : State}
    {rs rest : List Inputs} (hk : ∀ u, phaseStep (some p) u = gpioStep (u.setLevel l) k)
    (hi : s.inputs = rs ++ rest) (hp : s.phase = p.code)
    (hin : ∀ ins, inOp { s with inputs := ins } = true) (h : GpioOk rs) :
    runOp inOp s = runOp inOp
      (k { s with inputs := rest, trace := s.trace ++ [.setLvl s.pin l .ok] }) := by
  obtain ⟨held, r, rfl, hh, hr, ha, hf⟩ := h
  rw [runOp_answered hi hp hin hr fun r' h' => ⟨(hh r' h').1, fun u later hu => by
    simp [hk, State.setLevel, State.gpioAnswer_cons hu, (hh r' h').2, gpioStep]⟩, hk]
  simp [State.setLevel, State.gpioAnswer, ha, hf, gpioStep, State.record, State.tick]

/-- A `SetLevel` phase answered with a failure. -/
theorem runOp_setLevel_fail {inOp : State → Bool} {p : Phase} {l : Level} {k : State → State}
    {s : State} {rs rest : List Inputs}
    (hk : ∀ u, phaseStep (some p) u = gpioStep (u.setLevel l) k)
    (hi : s.inputs = rs ++ rest) (hp : s.phase = p.code)
    (hin : ∀ ins, inOp { s with inputs := ins } = true) (h : GpioFail rs) :
    runOp inOp s = runOp inOp
      (({ s with inputs := rest, trace := s.trace ++ [.setLvl s.pin l .fail] } : State).finish .gpioError) := by
  obtain ⟨held, r, rfl, hh, hr, ha, hf⟩ := h
  rw [runOp_answered hi hp hin hr fun r' h' => ⟨(hh r' h').1, fun u later hu => by
    simp [hk, State.setLevel, State.gpioAnswer_cons hu, (hh r' h').2, gpioStep]⟩, hk]
  simp [State.setLevel, State.gpioAnswer, ha, hf, gpioStep, State.record, State.tick]

/-- A delay phase whose delay is over. -/
theorem runOp_delay_over {inOp : State → Bool} {p : Phase} {d : Nat} {k : State → State} {s : State}
    {rs rest : List Inputs} (hk : ∀ u, phaseStep (some p) u = delayStep u d k)
    (hi : s.inputs = rs ++ rest) (hp : s.phase = p.code)
    (hin : ∀ ins, inOp { s with inputs := ins } = true) (h : DelayOver rs) :
    runOp inOp s = runOp inOp (k { s with inputs := rest, trace := s.trace ++ [.delay d] }) := by
  obtain ⟨held, r, rfl, hh, hr, ha⟩ := h
  rw [runOp_answered hi hp hin hr fun r' h' => ⟨(hh r' h').1, fun u later hu => by
    simp [hk, delayStep, State.delayAnswer_cons hu, (hh r' h').2]⟩, hk]
  simp [delayStep, State.delayAnswer, ha, State.record, State.tick]

/-! ### Waits -/

/-- The trace entries of the polls a list of records answers. -/
def pollEvents (pin : Pin) (rs : List Inputs) : List Event :=
  rs.filterMap fun r => if r.gAck then some (.sample pin r.gLevel r.timeUs) else none

/-- A poll that is not answered, or shows neither the level nor the bound, leaves the wait running. -/
theorem seqStep_miss {s : State} {r : Inputs} {rest : List Inputs} (hi : s.inputs = r :: rest)
    (hp : s.phase = Phase.ewPoll.code) (hr : r.rst = false)
    (h : r.gAck = true → r.gLevel ≠ s.site.target ∧ elapsedSince s.ewT0 r.timeUs < s.site.bound) :
    ∃ e, seqStep s = { s with ewElapsed := e, inputs := rest, trace := s.trace ++ pollEvents s.pin [r] } := by
  rw [seqStep_of_phase hp (by rw [State.rstAsserted_cons hi, hr]), phaseStep]
  obtain ⟨l, t, ha, hc⟩ | ⟨ha, e⟩ := ewPollStep_cases s <;>
    rw [State.sampleAnswer_cons hi] at ha
  · cases hg : r.gAck with
    | false => simp [hg] at ha
    | true =>
      simp only [hg, if_pos, Option.some.injEq, Prod.mk.injEq] at ha
      obtain ⟨rfl, rfl⟩ := ha
      obtain ⟨h1, h2⟩ := h hg
      obtain ⟨c, _⟩ | ⟨_, c, _⟩ | ⟨_, _, e⟩ := hc
      · exact absurd c h1
      · omega
      · exact ⟨elapsedSince s.ewT0 r.timeUs, by rw [e]; simp [State.polled, State.tick, State.record, hi, pollEvents, hg]⟩
  · cases hg : r.gAck with
    | true => simp [hg] at ha
    | false => exact ⟨s.ewElapsed, by rw [e]; simp [State.tick, hi, pollEvents, hg]⟩

/-- The polls of a wait that show neither the level nor the bound. -/
theorem runOp_misses {inOp : State → Bool} {s : State} {misses rest : List Inputs}
    (hi : s.inputs = misses ++ rest) (hp : s.phase = Phase.ewPoll.code)
    (hin : ∀ u : State, u.site = s.site → u.phase = Phase.ewPoll.code → inOp u = true)
    (h : ∀ m ∈ misses, m.rst = false ∧
      (m.gAck = true → m.gLevel ≠ s.site.target ∧ elapsedSince s.ewT0 m.timeUs < s.site.bound)) :
    ∃ e, runOp inOp s = runOp inOp
      { s with ewElapsed := e, inputs := rest, trace := s.trace ++ pollEvents s.pin misses } := by
  induction misses generalizing s with
  | nil =>
    refine ⟨s.ewElapsed, ?_⟩
    congr 1
    cases s
    simpa [pollEvents] using hi
  | cons m misses ih =>
    have hi' : s.inputs = m :: (misses ++ rest) := by simpa using hi
    obtain ⟨hm, hg⟩ := h m (by simp)
    obtain ⟨e, hs⟩ := seqStep_miss hi' hp hm hg
    rw [runOp_step (hin s rfl hp) hi', hs]
    obtain ⟨e', he'⟩ := ih (s := { s with
      ewElapsed := e, inputs := misses ++ rest, trace := s.trace ++ pollEvents s.pin [m] }) rfl hp hin
      fun m' h' => h m' (List.mem_cons_of_mem m h')
    refine ⟨e', he'.trans ?_⟩
    simp only [List.append_assoc, pollEvents, ← List.filterMap_append, List.singleton_append]

/-- The last poll of a wait: it shows the level. -/
theorem seqStep_hit {s : State} {r : Inputs} {rest : List Inputs} (hi : s.inputs = r :: rest)
    (hp : s.phase = Phase.ewPoll.code) (hr : r.rst = false) (hg : r.gAck = true)
    (hl : r.gLevel = s.site.target) :
    seqStep s = State.waitReturned { s with
      ewElapsed := elapsedSince s.ewT0 r.timeUs, inputs := rest, trace := s.trace ++ pollEvents s.pin [r] } := by
  rw [seqStep_of_phase hp (by rw [State.rstAsserted_cons hi, hr]), phaseStep]
  simp [ewPollStep, State.sample, State.sampleAnswer, hi, hg, hl, State.judgePoll, State.tick, State.record,
    pollEvents]

/-- The last poll of a wait: it shows the other level at or past the bound. -/
theorem seqStep_late {s : State} {r : Inputs} {rest : List Inputs} (hi : s.inputs = r :: rest)
    (hp : s.phase = Phase.ewPoll.code) (hr : r.rst = false) (hg : r.gAck = true)
    (hl : r.gLevel ≠ s.site.target) (hb : s.site.bound ≤ elapsedSince s.ewT0 r.timeUs) :
    seqStep s = State.finish { s with
      ewElapsed := elapsedSince s.ewT0 r.timeUs, inputs := rest,
      trace := s.trace ++ pollEvents s.pin [r] } .timeout := by
  rw [seqStep_of_phase hp (by rw [State.rstAsserted_cons hi, hr]), phaseStep]
  simp [ewPollStep, State.sample, State.sampleAnswer, hi, hg, hl, hb, State.judgePoll, State.tick,
    State.record, pollEvents, boundReached]

/-- The polls of a wait up to the one that shows the level. -/
theorem runOp_polls_ok {inOp : State → Bool} {s : State} {misses rest : List Inputs} {hit : Inputs}
    (hi : s.inputs = misses ++ hit :: rest) (hp : s.phase = Phase.ewPoll.code)
    (hin : ∀ u : State, u.site = s.site → u.phase = Phase.ewPoll.code → inOp u = true)
    (hm : ∀ m ∈ misses, m.rst = false ∧
      (m.gAck = true → m.gLevel ≠ s.site.target ∧ elapsedSince s.ewT0 m.timeUs < s.site.bound))
    (hr : hit.rst = false) (hg : hit.gAck = true) (hl : hit.gLevel = s.site.target) :
    runOp inOp s = runOp inOp (State.waitReturned { s with
      ewElapsed := elapsedSince s.ewT0 hit.timeUs, inputs := rest,
      trace := s.trace ++ pollEvents s.pin (misses ++ [hit]) }) := by
  obtain ⟨e, he⟩ := runOp_misses hi hp hin hm
  rw [he]
  let u : State := { s with
    ewElapsed := e, inputs := hit :: rest, trace := s.trace ++ pollEvents s.pin misses }
  change runOp inOp u = _
  rw [runOp_step (s := u) (hin u rfl hp) rfl, seqStep_hit (s := u) rfl hp hr hg hl]
  simp only [u, List.append_assoc, pollEvents, ← List.filterMap_append]

/-- The polls of a wait up to the one that finds the bound reached. -/
theorem runOp_polls_timeout {inOp : State → Bool} {s : State} {misses rest : List Inputs} {last : Inputs}
    (hi : s.inputs = misses ++ last :: rest) (hp : s.phase = Phase.ewPoll.code)
    (hin : ∀ u : State, u.site = s.site → u.phase = Phase.ewPoll.code → inOp u = true)
    (hm : ∀ m ∈ misses, m.rst = false ∧
      (m.gAck = true → m.gLevel ≠ s.site.target ∧ elapsedSince s.ewT0 m.timeUs < s.site.bound))
    (hr : last.rst = false) (hg : last.gAck = true) (hl : last.gLevel ≠ s.site.target)
    (hb : s.site.bound ≤ elapsedSince s.ewT0 last.timeUs) :
    runOp inOp s = runOp inOp (State.finish { s with
      ewElapsed := elapsedSince s.ewT0 last.timeUs, inputs := rest,
      trace := s.trace ++ pollEvents s.pin (misses ++ [last]) } .timeout) := by
  obtain ⟨e, he⟩ := runOp_misses hi hp hin hm
  rw [he]
  let u : State := { s with
    ewElapsed := e, inputs := last :: rest, trace := s.trace ++ pollEvents s.pin misses }
  change runOp inOp u = _
  rw [runOp_step (s := u) (hin u rfl hp) rfl, seqStep_late (s := u) rfl hp hr hg hl hb]
  simp only [u, List.append_assoc, pollEvents, ← List.filterMap_append]

/-- The entry of a wait. -/
theorem seqStep_entry {s : State} {r : Inputs} {rest : List Inputs} (hi : s.inputs = r :: rest)
    (hp : s.phase = Phase.ewEntry.code) (hr : r.rst = false) :
    seqStep s = { s with
      ewT0 := r.timeUs, phase := Phase.ewPoll.code, inputs := rest,
      trace := s.trace ++ [.now r.timeUs] } := by
  rw [seqStep_of_phase hp (by rw [State.rstAsserted_cons hi, hr]), phaseStep]
  simp [ewEntryStep, State.now, State.nowAnswer, hi, State.tick, State.record, State.goto]

/-- The trace entries of a wait on these records. -/
def waitEvents (pin : Pin) : List Inputs → List Event
  | [] => []
  | r0 :: polls => .now r0.timeUs :: pollEvents pin polls

/-- A wait that returns OK. -/
theorem runOp_wait_ok {inOp : State → Bool} {w : Site} {s : State} {rs rest : List Inputs} {e : Nat}
    (hi : s.inputs = rs ++ rest) (hp : s.phase = Phase.ewEntry.code) (hw : s.site = w)
    (hin : ∀ u : State, u.site = w → u.phase = Phase.ewEntry.code ∨ u.phase = Phase.ewPoll.code →
      inOp u = true) (h : WaitOk w rs e) :
    ∃ t0, runOp inOp s = runOp inOp
      (State.waitReturned { s with
        ewT0 := t0, ewElapsed := e, phase := Phase.ewPoll.code, inputs := rest,
        trace := s.trace ++ waitEvents s.pin rs }) := by
  subst hw
  obtain ⟨r0, misses, hit, rfl, hr0, hm, hr, hg, hl, rfl⟩ := h
  have hi' : s.inputs = r0 :: (misses ++ (hit :: rest)) := by simpa using hi
  let u : State := { s with
    ewT0 := r0.timeUs, phase := Phase.ewPoll.code, inputs := misses ++ hit :: rest,
    trace := s.trace ++ [.now r0.timeUs] }
  refine ⟨r0.timeUs, ?_⟩
  rw [runOp_step (hin s rfl (.inl hp)) hi', seqStep_entry hi' hp hr0]
  change runOp inOp u = _
  rw [runOp_polls_ok (s := u) rfl rfl (fun v hv hpv => hin v hv (.inr hpv)) hm hr hg hl]
  simp only [u, waitEvents, List.append_assoc, List.singleton_append]

/-- A wait that times out. -/
theorem runOp_wait_timeout {inOp : State → Bool} {w : Site} {s : State} {rs rest : List Inputs}
    (hi : s.inputs = rs ++ rest) (hp : s.phase = Phase.ewEntry.code) (hw : s.site = w)
    (hin : ∀ u : State, u.site = w → u.phase = Phase.ewEntry.code ∨ u.phase = Phase.ewPoll.code →
      inOp u = true) (h : WaitTimeout w rs) :
    ∃ t0 e, runOp inOp s = runOp inOp
      (State.finish { s with
        ewT0 := t0, ewElapsed := e, phase := Phase.ewPoll.code, inputs := rest,
        trace := s.trace ++ waitEvents s.pin rs } .timeout) := by
  subst hw
  obtain ⟨r0, misses, last, rfl, hr0, hm, hr, hg, hl, hb⟩ := h
  have hi' : s.inputs = r0 :: (misses ++ (last :: rest)) := by simpa using hi
  let u : State := { s with
    ewT0 := r0.timeUs, phase := Phase.ewPoll.code, inputs := misses ++ last :: rest,
    trace := s.trace ++ [.now r0.timeUs] }
  refine ⟨r0.timeUs, elapsedSince r0.timeUs last.timeUs, ?_⟩
  rw [runOp_step (hin s rfl (.inl hp)) hi', seqStep_entry hi' hp hr0]
  change runOp inOp u = _
  rw [runOp_polls_timeout (s := u) rfl rfl (fun v hv hpv => hin v hv (.inr hpv)) hm hr hg hl hb]
  simp only [u, waitEvents, List.append_assoc, List.singleton_append]

end Sys2Proof.Machine
end

