-- ==== Sys2Proof/Laws/StepCases.lean ====
section
/-! SUPPORT. Sys2Proof/Laws/StepCases.lean: everything one step can do, said once: the inversion lemma that
the whole-machine statements are derived from. -/

namespace Sys2Proof.Machine

/-- The direction a phase's `SetDir` asks for. -/
def dirOf : Phase → Option Dir
  | .initDir | .rqDirOut => some .output
  | .rqDirIn => some .input
  | _ => none

/-- The level a phase's `SetLevel` asks for. -/
def levelOf : Phase → Option Level
  | .rqLow => some .low
  | .initLvl | .rqHigh => some .high
  | _ => none

/-- Phase `p` requests a transaction that is not answered in this step. -/
def unanswered (p : Phase) (s : State) : Prop :=
  match p with
  | .initDir | .initLvl | .rqDirOut | .rqLow | .rqHigh | .rqDirIn => s.gpioAnswer = none
  | .rqDlyLow | .rqDlyHigh | .faSettle => s.delayAnswer = false
  | .ewEntry => s.nowAnswer = none
  | .ewPoll => s.sampleAnswer = none
  | .idle | .bitStore | .check | .decode => False

/-- Every outcome of a step of phase `p` from `s`, with what the environment or the registers showed. -/
inductive StepCase (s : State) : Phase → State → Prop
  | acceptInit (pin : Pin) (h : s.presented = some (.init pin)) :
      StepCase s .idle (s.acceptInit pin).tick
  | acceptRead (pin : Pin) (h : s.presented = some (.read pin)) :
      StepCase s .idle (s.acceptRead pin).tick
  | stayIdle (h : ∀ pin, s.presented ≠ some (.init pin) ∧ s.presented ≠ some (.read pin)) :
      StepCase s .idle s.tick
  | held {p : Phase} (h : unanswered p s) : StepCase s p s.tick
  | dirFail {p : Phase} {d : Dir} (hp : dirOf p = some d) (h : s.gpioAnswer = some .fail) :
      StepCase s p ((s.record (.setDir s.pin d .fail)).tick.finish .gpioError)
  | levelFail {p : Phase} {l : Level} (hp : levelOf p = some l) (h : s.gpioAnswer = some .fail) :
      StepCase s p ((s.record (.setLvl s.pin l .fail)).tick.finish .gpioError)
  | initDirOk (h : s.gpioAnswer = some .ok) :
      StepCase s .initDir ((s.record (.setDir s.pin .output .ok)).tick.goto .initLvl)
  | initLvlOk (h : s.gpioAnswer = some .ok) :
      StepCase s .initLvl ((s.record (.setLvl s.pin .high .ok)).tick.finish .ok)
  | rqDirOutOk (h : s.gpioAnswer = some .ok) :
      StepCase s .rqDirOut ((s.record (.setDir s.pin .output .ok)).tick.goto .rqLow)
  | rqLowOk (h : s.gpioAnswer = some .ok) :
      StepCase s .rqLow ((s.record (.setLvl s.pin .low .ok)).tick.goto .rqDlyLow)
  | rqDlyLowOver (h : s.delayAnswer = true) :
      StepCase s .rqDlyLow ((s.record (.delay 3000)).tick.goto .rqHigh)
  | rqHighOk (h : s.gpioAnswer = some .ok) :
      StepCase s .rqHigh ((s.record (.setLvl s.pin .high .ok)).tick.goto .rqDlyHigh)
  | rqDlyHighOver (h : s.delayAnswer = true) :
      StepCase s .rqDlyHigh ((s.record (.delay 20)).tick.goto .rqDirIn)
  | rqDirInOk (h : s.gpioAnswer = some .ok) :
      StepCase s .rqDirIn ((s.record (.setDir s.pin .input .ok)).tick.startWait .hsRise)
  | stamped (t : Nat) (h : s.nowAnswer = some t) :
      StepCase s .ewEntry ({ (s.record (.now t)).tick with ewT0 := t }.goto .ewPoll)
  | hsRiseOk (l : Level) (t : Nat) (h : s.sampleAnswer = some (l, t)) (hl : l = s.site.target)
      (hs : s.site = .hsRise) : StepCase s .ewPoll ((s.polled l t).startWait .hsFall)
  | hsFallOk (l : Level) (t : Nat) (h : s.sampleAnswer = some (l, t)) (hl : l = s.site.target)
      (hs : s.site = .hsFall) :
      StepCase s .ewPoll ({ s.polled l t with byteIdx := 0, bitIdx := 0 }.startWait .bitRise)
  | bitRiseOk (l : Level) (t : Nat) (h : s.sampleAnswer = some (l, t)) (hl : l = s.site.target)
      (hs : s.site = .bitRise) : StepCase s .ewPoll ((s.polled l t).startWait .bitFall)
  | bitFallOk (l : Level) (t : Nat) (h : s.sampleAnswer = some (l, t)) (hl : l = s.site.target)
      (hs : s.site = .bitFall) : StepCase s .ewPoll ((s.polled l t).goto .bitStore)
  | waitTimeout (l : Level) (t : Nat) (h : s.sampleAnswer = some (l, t)) (hl : l ≠ s.site.target)
      (hb : s.site.bound ≤ elapsedSince s.ewT0 t) :
      StepCase s .ewPoll ((s.polled l t).finish .timeout)
  | pollAgain (l : Level) (t : Nat) (h : s.sampleAnswer = some (l, t)) (hl : l ≠ s.site.target)
      (hb : elapsedSince s.ewT0 t < s.site.bound) :
      StepCase s .ewPoll (s.polled l t)
  | stored : StepCase s .bitStore ((s.orBit (bitValue s.ewElapsed)).goto .faSettle).tick
  | nextBit (h : s.delayAnswer = true) (hb : s.bitIdx.val < 7) :
      StepCase s .faSettle
        ({ (s.record (.delay 10)).tick with bitIdx := ⟨s.bitIdx.val + 1, by omega⟩ }.startWait .bitRise)
  | nextByte (h : s.delayAnswer = true) (hb : s.bitIdx.val = 7) (hB : s.byteIdx.val < 4) :
      StepCase s .faSettle
        ({ (s.record (.delay 10)).tick with
             bitIdx := 0, byteIdx := ⟨s.byteIdx.val + 1, by omega⟩ }.startWait .bitRise)
  | frameComplete (h : s.delayAnswer = true) (hb : s.bitIdx.val = 7) (hB : s.byteIdx.val = 4) :
      StepCase s .faSettle ((s.record (.delay 10)).tick.goto .check)
  | checkPass (h : checksumValid s.buf = true) :
      StepCase s .check ({ s with rdChecksum := s.buf[4] }.tick.goto .decode)
  | checkFail (h : checksumValid s.buf = false) :
      StepCase s .check ({ s with rdChecksum := s.buf[4] }.tick.finish .badChecksum)
  | decoded : StepCase s .decode (s.latchReading.finish .ok).tick

/-- A phase's step is one of these cases. -/
theorem phaseStep_case (p : Phase) (s : State) : StepCase s p (phaseStep (some p) s) := by
  have dir : ∀ {q : Phase} {d : Dir} {k : State → State}, dirOf q = some d →
      (s.gpioAnswer = none → unanswered q s) →
      (s.gpioAnswer = some .ok → StepCase s q (k (s.record (.setDir s.pin d .ok)).tick)) →
      StepCase s q (gpioStep (s.setDir d) k) := by
    intro q d k hq hw hk
    obtain ⟨h, e⟩ | ⟨h, e⟩ | ⟨h, e⟩ := gpioStep_setDir_cases s d k <;> rw [e]
    · exact hk h
    · exact .dirFail hq h
    · exact .held (hw h)
  have level : ∀ {q : Phase} {l : Level} {k : State → State}, levelOf q = some l →
      (s.gpioAnswer = none → unanswered q s) →
      (s.gpioAnswer = some .ok → StepCase s q (k (s.record (.setLvl s.pin l .ok)).tick)) →
      StepCase s q (gpioStep (s.setLevel l) k) := by
    intro q l k hq hw hk
    obtain ⟨h, e⟩ | ⟨h, e⟩ | ⟨h, e⟩ := gpioStep_setLevel_cases s l k <;> rw [e]
    · exact hk h
    · exact .levelFail hq h
    · exact .held (hw h)
  have delay : ∀ {q : Phase} {d : Nat} {k : State → State},
      (s.delayAnswer = false → unanswered q s) →
      (s.delayAnswer = true → StepCase s q (k (s.record (.delay d)).tick)) →
      StepCase s q (delayStep s d k) := by
    intro q d k hw hk
    obtain ⟨h, e⟩ | ⟨h, e⟩ := delayStep_cases s d k <;> rw [e]
    · exact hk h
    · exact .held (hw h)
  cases p with
  | idle =>
    obtain ⟨pin, h, e⟩ | ⟨pin, h, e⟩ | ⟨h, e⟩ := idleStep_cases s <;> rw [phaseStep, e]
    · exact .acceptInit pin h
    · exact .acceptRead pin h
    · exact .stayIdle h
  | initDir => exact dir (q := .initDir) rfl id .initDirOk
  | initLvl => exact level (q := .initLvl) rfl id .initLvlOk
  | rqDirOut => exact dir (q := .rqDirOut) rfl id .rqDirOutOk
  | rqLow => exact level (q := .rqLow) rfl id .rqLowOk
  | rqDlyLow => exact delay (q := .rqDlyLow) (d := CFG.requestLow) (k := (·.goto .rqHigh)) id .rqDlyLowOver
  | rqHigh => exact level (q := .rqHigh) rfl id .rqHighOk
  | rqDlyHigh => exact delay (q := .rqDlyHigh) (d := CFG.requestHigh) (k := (·.goto .rqDirIn)) id .rqDlyHighOver
  | rqDirIn => exact dir (q := .rqDirIn) rfl id .rqDirInOk
  | ewEntry =>
    obtain ⟨t, h, e⟩ | ⟨h, e⟩ := ewEntryStep_cases s <;> rw [phaseStep, e]
    · exact .stamped t h
    · exact .held h
  | ewPoll =>
    obtain ⟨l, t, h, ⟨hl, e⟩ | ⟨hl, hb, e⟩ | ⟨hl, hb, e⟩⟩ | ⟨h, e⟩ := ewPollStep_cases s <;>
      rw [phaseStep, e]
    · unfold State.waitReturned
      rw [State.polled_site]
      cases hs : s.site
      · exact .hsRiseOk l t h hl hs
      · exact .hsFallOk l t h hl hs
      · exact .bitRiseOk l t h hl hs
      · exact .bitFallOk l t h hl hs
    · exact .waitTimeout l t h hl hb
    · exact .pollAgain l t h hl hb
    · exact .held h
  | bitStore => exact .stored
  | faSettle =>
    refine delay (q := .faSettle) id fun h => ?_
    obtain ⟨hb, e⟩ | ⟨hb, hB, e⟩ | ⟨hb, hB, e⟩ :=
      State.advanceBit_cases (s.record (.delay CFG.interBitSettle)).tick <;> rw [e]
    · exact .nextBit h hb
    · exact .nextByte h hb hB
    · exact .frameComplete h hb hB
  | check =>
    obtain ⟨h, e⟩ | ⟨h, e⟩ := checkStep_cases s <;> rw [phaseStep, e]
    · exact .checkPass h
    · exact .checkFail h
  | decode => exact .decoded

/-- What a step of the machine does, without a reset. -/
theorem step_case {s t : State} {p : Phase} (hr : s.rstAsserted = false) (hp : s.phase = p.code)
    (h : step s = .next t) : StepCase s p t := by
  rw [step_eq_seqStep, seqStep_of_phase hp hr] at h
  cases h
  exact phaseStep_case p s

/-- What any step of the machine does: the reset state, a step of its phase, or, from the reserved code,
a step of IDLE. -/
theorem step_cases {s t : State} (h : step s = .next t) :
    (s.rstAsserted = true ∧ t = s.resetByPort) ∨
    (s.rstAsserted = false ∧ ∃ p : Phase, s.phase = p.code ∧ StepCase s p t) ∨
    (s.rstAsserted = false ∧ s.phase = 0b1111#4 ∧ StepCase s .idle t) := by
  cases hr : s.rstAsserted with
  | true =>
    rw [step_eq_seqStep, seqStep_of_rst hr] at h
    cases h
    exact .inl ⟨rfl, rfl⟩
  | false =>
    obtain ⟨p, hp⟩ | hp := Phase.code_cases s.phase
    · exact .inr (.inl ⟨rfl, p, hp, step_case hr hp h⟩)
    · refine .inr (.inr ⟨rfl, hp, ?_⟩)
      rw [step_eq_seqStep] at h
      cases h
      simpa [seqStep, hr, hp, Phase.ofCode, phaseStep, phaseReservedStep] using phaseStep_case .idle s

end Sys2Proof.Machine
end

