-- ==== Sys2Proof/Laws/Environment.lean ====
section
/-! SUPPORT. Sys2Proof/Laws/Environment.lean: a run in an environment without end (Safety.lean): what one
of its steps does, which steps come before a poll, that every step of a command that is not held brings it
nearer its end, and how the run of a wait on finitely many records agrees with it. -/

namespace Sys2Proof.Machine

/-! ### One step of the run -/

/-- The record of step `n` is the port record of the block before step `n`. -/
theorem atStep_inputs (env : Environment) (s : State) (n : Nat) : (s.atStep env n).inputs = [env n] := by
  cases n <;> rfl

/-- Its reset is that step's. -/
theorem atStep_rst (env : Environment) (s : State) (n : Nat) :
    (s.atStep env n).rstAsserted = (env n).rst :=
  State.rstAsserted_cons (atStep_inputs env s n)

/-- The run after its first step is a run in the rest of the environment. -/
theorem atStep_shift (env : Environment) (s : State) (n : Nat) :
    s.atStep env (n + 1) = (seqStep { s with inputs := [env 0] }).atStep (fun i => env (i + 1)) n := by
  induction n with
  | zero => rfl
  | succ n ih => rw [State.atStep, ih]; rfl

/-- What step `n` makes of the block before it. -/
theorem atStep_case {env : Environment} {s : State} {n : Nat} {p : Phase} (hr : (env n).rst = false)
    (hp : (s.atStep env n).phase = p.code) :
    ∃ t, StepCase (s.atStep env n) p t ∧ seqStep (s.atStep env n) = t ∧
      s.atStep env (n + 1) = { t with inputs := [env (n + 1)] } := by
  refine ⟨_, ?_, rfl, rfl⟩
  rw [seqStep_of_phase hp (by rw [atStep_rst, hr])]
  exact phaseStep_case p _

/-- After a step with reset the block is idle. -/
theorem atStep_after_rst {env : Environment} {s : State} {n : Nat} (hr : (env n).rst = true) :
    (s.atStep env (n + 1)).phase = Phase.idle.code := by
  rw [State.atStep, seqStep_of_rst (by rw [atStep_rst, hr])]; rfl

/-! ### The times a run returns -/

/-- A time returned is the one the port shows, in a step without reset. -/
theorem timeReturned_eq {env : Environment} {s : State} {n t : Nat}
    (h : (s.atStep env n).timeReturned = some t) : t = (env n).timeUs ∧ (env n).rst = false := by
  have hi := atStep_inputs env s n
  unfold State.timeReturned at h
  rw [atStep_rst] at h
  split at h
  · cases h
  · refine ⟨?_, by simp_all⟩
    split at h
    · rw [State.nowAnswer_cons hi] at h; cases h; rfl
    · rw [State.sampleAnswer_cons hi] at h; split at h <;> simp_all
    · cases h

/-- EW_ENTRY always returns one. -/
theorem timeReturned_entry {env : Environment} {s : State} {n : Nat} (hr : (env n).rst = false)
    (hp : (s.atStep env n).phase = Phase.ewEntry.code) :
    (s.atStep env n).timeReturned = some (env n).timeUs := by
  simp [State.timeReturned, atStep_rst, hr, hp, State.nowAnswer_cons (atStep_inputs env s n)]

/-- EW_POLL returns the one of its sample. -/
theorem timeReturned_poll {env : Environment} {s : State} {n t : Nat}
    (hp : (s.atStep env n).phase = Phase.ewPoll.code)
    (h : (s.atStep env n).timeReturned = some t) :
    ∃ l, (s.atStep env n).sampleAnswer = some (l, t) := by
  have hr := (timeReturned_eq h).2
  unfold State.timeReturned at h
  rw [atStep_rst, hr, hp, Phase.ofCode_code] at h
  cases ha : (s.atStep env n).sampleAnswer with
  | none => simp [ha] at h
  | some x => obtain ⟨l, u⟩ := x; simp [ha] at h; subst h; exact ⟨l, rfl⟩

/-- No other phase returns one. -/
theorem timeReturned_none {env : Environment} {s : State} {n : Nat} {p : Phase}
    (hp : (s.atStep env n).phase = p.code) (h1 : p ≠ .ewEntry) (h2 : p ≠ .ewPoll) :
    (s.atStep env n).timeReturned = none := by
  unfold State.timeReturned
  split
  · rfl
  · rw [hp, Phase.ofCode_code]; cases p <;> simp_all

/-- Before a poll stands the entry of its wait, which wrote `ew_t0`, or another poll of it. -/
theorem atStep_before_poll {env : Environment} {s : State} {n : Nat}
    (h : (s.atStep env (n + 1)).phase = Phase.ewPoll.code) : (env n).rst = false ∧
    (((s.atStep env n).phase = Phase.ewEntry.code ∧ (s.atStep env (n + 1)).ewT0 = (env n).timeUs) ∨
    ((s.atStep env n).phase = Phase.ewPoll.code ∧
      (s.atStep env (n + 1)).ewT0 = (s.atStep env n).ewT0)) := by
  cases hr : (env n).rst with
  | true => rw [atStep_after_rst hr] at h; simp at h
  | false =>
    refine ⟨rfl, ?_⟩
    obtain ⟨p, hp⟩ | hp := Phase.code_cases (s.atStep env n).phase
    · obtain ⟨t, c, _, e⟩ := atStep_case hr hp
      rw [e] at h ⊢
      rw [hp]
      simp only at h
      cases c with
      | stamped t ht =>
        rw [State.nowAnswer_cons (atStep_inputs env s n)] at ht
        cases ht
        exact .inl ⟨rfl, rfl⟩
      | held hu => simp [hp] at h; subst h; exact .inr ⟨rfl, rfl⟩
      | pollAgain => exact .inr ⟨rfl, rfl⟩
      | stayIdle => simp [hp] at h
      | _ => simp at h
    · have e : seqStep (s.atStep env n) = phaseReservedStep (s.atStep env n) := by
        simp [seqStep, atStep_rst, hr, hp, Phase.ofCode, phaseStep]
      rw [State.atStep, e] at h
      obtain ⟨_, _, e⟩ | ⟨_, _, e⟩ | ⟨_, e⟩ := idleStep_cases (s.atStep env n) <;>
        simp [phaseReservedStep, e, hp] at h
      exact absurd h (by decide)

/-! ### Every step that is not held brings a command nearer its end -/

/-- The most steps, held ones not counted and each wait taken as two, that a command still has. -/
def State.stepsLeft (s : State) : Nat :=
  let bits := 39 - (8 * s.byteIdx.val + s.bitIdx.val)
  match Phase.ofCode s.phase with
  | none | some .idle => 0
  | some .initLvl | some .decode => 1
  | some .initDir | some .check => 2
  | some .faSettle => 3 + 6 * bits
  | some .bitStore => 4 + 6 * bits
  | some .ewPoll =>
    match s.site with
    | .bitFall => 5 + 6 * bits
    | .bitRise => 7 + 6 * bits
    | .hsFall => 243
    | .hsRise => 245
  | some .ewEntry =>
    match s.site with
    | .bitFall => 6 + 6 * bits
    | .bitRise => 8 + 6 * bits
    | .hsFall => 244
    | .hsRise => 246
  | some .rqDirIn => 247
  | some .rqDlyHigh => 248
  | some .rqHigh => 249
  | some .rqDlyLow => 250
  | some .rqLow => 251
  | some .rqDirOut => 252

/-- A step that leaves the command where it was: a held request, or a poll with neither level nor bound. -/
def Stuck (p : Phase) (s t : State) : Prop :=
  t.phase = p.code ∧ t.site = s.site ∧ t.stepsLeft = s.stepsLeft ∧ t.ewT0 = s.ewT0 ∧
  (unanswered p s ∨ (p = .ewPoll ∧ ∃ l u, s.sampleAnswer = some (l, u) ∧ l ≠ s.site.target ∧
    elapsedSince s.ewT0 u < s.site.bound))

/-- A step of a command brings it nearer its end, ends it, or leaves it where it was. -/
theorem StepCase.progress {s t : State} {p : Phase} (hp : s.phase = p.code) (hi : p ≠ .idle)
    (c : StepCase s p t) :
    (t.stepsLeft < s.stepsLeft ∧ t.busy = true) ∨
    (t.phase = Phase.idle.code ∧ t.done = true ∧ t.trace.getLast? = some (.fin t.status)) ∨
    Stuck p s t := by
  cases c with
  | acceptInit | acceptRead | stayIdle => exact absurd rfl hi
  | held h => exact .inr (.inr ⟨by simp [hp], rfl, by simp [State.stepsLeft], rfl, .inl h⟩)
  | pollAgain l t h hl hb =>
    exact .inr (.inr ⟨by simp [hp], by simp, by simp [State.stepsLeft], by simp, .inr ⟨rfl, l, t, h, hl, hb⟩⟩)
  | dirFail | levelFail | initLvlOk | waitTimeout | checkFail =>
    exact .inr (.inl ⟨rfl, rfl, by simp [State.finish]⟩)
  | decoded => exact .inr (.inl ⟨rfl, rfl, by simp [State.finish, State.tick]⟩)
  | stamped t h => left; cases hs : s.site <;> simp [State.stepsLeft, hp, hs, State.busy]
  | _ => left; simp_all [State.stepsLeft, State.busy]; try omega

/-! ### The run of a wait on finitely many records -/

/-- A step of a wait does not look past its own record. -/
theorem seqStep_local {s : State} {w : Site} (h : inWait w s = true) (r : Inputs) (rest : List Inputs) :
    seqStep { s with inputs := r :: rest } = { seqStep { s with inputs := [r] } with inputs := rest } := by
  cases hr : r.rst with
  | true =>
    rw [seqStep_of_rst (by simp [State.rstAsserted, hr]), seqStep_of_rst (by simp [State.rstAsserted, hr])]
    rfl
  | false =>
    simp only [inWait, Bool.and_eq_true, Bool.or_eq_true, beq_iff_eq] at h
    obtain ⟨hs, hp | hp⟩ := h
    · rw [seqStep_entry (s := { s with inputs := r :: rest }) rfl hp hr,
        seqStep_entry (s := { s with inputs := [r] }) rfl hp hr]
    · rw [seqStep_of_phase (s := { s with inputs := r :: rest }) hp (by simp [State.rstAsserted, hr]),
        seqStep_of_phase (s := { s with inputs := [r] }) hp (by simp [State.rstAsserted, hr])]
      cases hg : r.gAck
      · simp [phaseStep, ewPollStep, State.sample, State.sampleAnswer, hg, State.tick]
      · simp only [phaseStep, ewPollStep, State.sample, State.sampleAnswer, hg, State.tick, State.record,
          State.judgePoll, State.waitReturned, State.startWait, State.goto, State.finish, hs, if_true]
        split
        · cases w <;> simp
        · split <;> simp

/-- On the first `n` records a wait that is over before step `n` and not earlier reaches the state before
step `n`, whatever records come after. -/
theorem runOp_until {w : Site} (rest : List Inputs) : ∀ (n : Nat) (env : Environment) (s : State),
    (∀ k < n, inWait w (s.atStep env k) = true) → inWait w (s.atStep env n) = false →
    runOp (inWait w) { s with inputs := (List.range n).map env ++ rest } =
      { s.atStep env n with inputs := rest } := by
  intro n
  induction n with
  | zero => intro env s _ h; exact runOp_stop (s := { s with inputs := [] ++ rest }) h
  | succ n ih =>
    intro env s h1 h2
    have h0 : inWait w s = true := h1 0 (by omega)
    rw [List.range_succ_eq_map, List.map_cons, List.map_map, List.cons_append,
      runOp_step (s := { s with inputs := env 0 :: _ }) h0 rfl, seqStep_local h0, atStep_shift]
    exact ih (fun i => env (i + 1)) (seqStep { s with inputs := [env 0] })
      (fun k hk => by rw [← atStep_shift]; exact h1 (k + 1) (by omega)) (by rw [← atStep_shift]; exact h2)

end Sys2Proof.Machine
end

