-- ==== Sys2Proof/Laws/PerInstr.lean ====
section
/-! SUPPORT. Sys2Proof/Laws/PerInstr.lean: the family Opcode: the bits `encode` writes for an operation
are the table's `match` under its `mask`, row by row (spec/opcode_table.json). -/

namespace Sys2Proof.Laws.Opcode

/-- The table's format and the operation's bits as one number, bit 0 least significant: `{g_op, g_arg}`
for format GPIO, the entry phase for format OP. -/
def bits : Code → String × Nat
  | .cmd cmdOp _ => ("CMD", cmdOp.toNat)
  | .op entryPhase _ _ => ("OP", entryPhase.toNat)
  | .phase c => ("PHASE", c.toNat)
  | .site c => ("SITE", c.toNat)
  | .gpio gOp gArg => ("GPIO", gOp.toNat * 2 + gArg.toNat)
  | .status c => ("STATUS", c.toNat)

/-- The row of spec/opcode_table.json: format, mask, match. -/
def row : Instr → String × Nat × Nat
  | .nop => ("CMD", 0x3, 0x0)
  | .init _ => ("CMD", 0x3, 0x1)
  | .read _ => ("CMD", 0x3, 0x2)
  | .cmdReserved => ("CMD", 0x3, 0x3)
  | .requestReadings => ("OP", 0xF, 0x3)
  | .awaitLevel => ("OP", 0xF, 0x9)
  | .awaitData => ("OP", 0xF, 0x9)
  | .readBit => ("OP", 0xF, 0x9)
  | .assembleFrame => ("OP", 0xF, 0x9)
  | .validateChecksum => ("OP", 0xF, 0xD)
  | .decodeReading => ("OP", 0xF, 0xE)
  | .idle => ("PHASE", 0xF, 0x0)
  | .initDir => ("PHASE", 0xF, 0x1)
  | .initLvl => ("PHASE", 0xF, 0x2)
  | .rqDirOut => ("PHASE", 0xF, 0x3)
  | .rqLow => ("PHASE", 0xF, 0x4)
  | .rqDlyLow => ("PHASE", 0xF, 0x5)
  | .rqHigh => ("PHASE", 0xF, 0x6)
  | .rqDlyHigh => ("PHASE", 0xF, 0x7)
  | .rqDirIn => ("PHASE", 0xF, 0x8)
  | .ewEntry => ("PHASE", 0xF, 0x9)
  | .ewPoll => ("PHASE", 0xF, 0xA)
  | .bitStore => ("PHASE", 0xF, 0xB)
  | .faSettle => ("PHASE", 0xF, 0xC)
  | .check => ("PHASE", 0xF, 0xD)
  | .decode => ("PHASE", 0xF, 0xE)
  | .phaseReserved => ("PHASE", 0xF, 0xF)
  | .hsRise => ("SITE", 0x3, 0x0)
  | .hsFall => ("SITE", 0x3, 0x1)
  | .bitRise => ("SITE", 0x3, 0x2)
  | .bitFall => ("SITE", 0x3, 0x3)
  | .getLevel _ => ("GPIO", 0x6, 0x0)
  | .setLevel _ => ("GPIO", 0x6, 0x2)
  | .setDirection _ => ("GPIO", 0x6, 0x4)
  | .gpioReserved _ => ("GPIO", 0x6, 0x6)
  | .ok => ("STATUS", 0x3, 0x0)
  | .gpioError => ("STATUS", 0x3, 0x1)
  | .badChecksum => ("STATUS", 0x3, 0x2)
  | .timeout => ("STATUS", 0x3, 0x3)

/-- The bits `encode` writes are the row's. -/
def Statement (i : Instr) : Prop :=
  (bits (encode i)).1 = (row i).1 ∧ (bits (encode i)).2 &&& (row i).2.1 = (row i).2.2

theorem nop : Statement .nop := ⟨rfl, rfl⟩
theorem init (pin : Pin) : Statement (.init pin) := by simp [Statement, bits, encode, row]
theorem read (pin : Pin) : Statement (.read pin) := by simp [Statement, bits, encode, row]
theorem cmdReserved : Statement .cmdReserved := ⟨rfl, rfl⟩
theorem requestReadings : Statement .requestReadings := ⟨rfl, rfl⟩
theorem awaitLevel : Statement .awaitLevel := ⟨rfl, rfl⟩
theorem awaitData : Statement .awaitData := ⟨rfl, rfl⟩
theorem readBit : Statement .readBit := ⟨rfl, rfl⟩
theorem assembleFrame : Statement .assembleFrame := ⟨rfl, rfl⟩
theorem validateChecksum : Statement .validateChecksum := ⟨rfl, rfl⟩
theorem decodeReading : Statement .decodeReading := ⟨rfl, rfl⟩
theorem idle : Statement .idle := ⟨rfl, rfl⟩
theorem initDir : Statement .initDir := ⟨rfl, rfl⟩
theorem initLvl : Statement .initLvl := ⟨rfl, rfl⟩
theorem rqDirOut : Statement .rqDirOut := ⟨rfl, rfl⟩
theorem rqLow : Statement .rqLow := ⟨rfl, rfl⟩
theorem rqDlyLow : Statement .rqDlyLow := ⟨rfl, rfl⟩
theorem rqHigh : Statement .rqHigh := ⟨rfl, rfl⟩
theorem rqDlyHigh : Statement .rqDlyHigh := ⟨rfl, rfl⟩
theorem rqDirIn : Statement .rqDirIn := ⟨rfl, rfl⟩
theorem ewEntry : Statement .ewEntry := ⟨rfl, rfl⟩
theorem ewPoll : Statement .ewPoll := ⟨rfl, rfl⟩
theorem bitStore : Statement .bitStore := ⟨rfl, rfl⟩
theorem faSettle : Statement .faSettle := ⟨rfl, rfl⟩
theorem check : Statement .check := ⟨rfl, rfl⟩
theorem decode : Statement .decode := ⟨rfl, rfl⟩
theorem phaseReserved : Statement .phaseReserved := ⟨rfl, rfl⟩
theorem hsRise : Statement .hsRise := ⟨rfl, rfl⟩
theorem hsFall : Statement .hsFall := ⟨rfl, rfl⟩
theorem bitRise : Statement .bitRise := ⟨rfl, rfl⟩
theorem bitFall : Statement .bitFall := ⟨rfl, rfl⟩
theorem getLevel (arg : BitVec 1) : Statement (.getLevel arg) := by
  revert arg; unfold Statement; decide
theorem setLevel (level : Level) : Statement (.setLevel level) := by cases level <;> exact ⟨rfl, rfl⟩
theorem setDirection (dir : Dir) : Statement (.setDirection dir) := by cases dir <;> exact ⟨rfl, rfl⟩
theorem gpioReserved (arg : BitVec 1) : Statement (.gpioReserved arg) := by
  revert arg; unfold Statement; decide
theorem ok : Statement .ok := ⟨rfl, rfl⟩
theorem gpioError : Statement .gpioError := ⟨rfl, rfl⟩
theorem badChecksum : Statement .badChecksum := ⟨rfl, rfl⟩
theorem timeout : Statement .timeout := ⟨rfl, rfl⟩

end Sys2Proof.Laws.Opcode
end

