-- ==== Sys2Proof/Tests/Slice0.lean ====
section
/-! SUPPORT. Sys2Proof/Tests/Slice0.lean: well-formedness, the codes of every row, one step or one short run
per operation with the results of 95_test_vectors.md, and for each statement a state and operands that meet
its hypotheses. -/

namespace Sys2Proof.Tests

open Sys2Proof.Machine

/-! ### Small port records and states -/

/-- A GPIO request answered ok. -/
def ok : Inputs := { Inputs.quiet with gAck := true }
/-- A GPIO request answered fail. -/
def bad : Inputs := { Inputs.quiet with gAck := true, gFail := true }
/-- A delay that is over. -/
def delayed : Inputs := { Inputs.quiet with dAck := true }
/-- The clock shows `t`. -/
def now (t : Nat) : Inputs := { Inputs.quiet with timeUs := t }
/-- A poll answered with level 1 at `t`. -/
def hi (t : Nat) : Inputs := { Inputs.quiet with gAck := true, gLevel := .high, timeUs := t }
/-- A poll answered with level 0 at `t`. -/
def lo (t : Nat) : Inputs := { Inputs.quiet with gAck := true, gLevel := .low, timeUs := t }
/-- A command is presented. -/
def cmd (op : BitVec 2) (pin : Nat) : Inputs := { Inputs.quiet with cmdValid := true, cmdOp := op, cmdPin := ⟨pin⟩ }

/-- The reset state with these port records to come. -/
def idleAt (rs : List Inputs) : State := { State.reset with inputs := rs }
/-- The same in another phase, with `pin = 4`. -/
def inPh (p : Phase) (rs : List Inputs) : State := { idleAt rs with phase := p.code, pin := ⟨4⟩ }
/-- The same in EW_POLL at a site, entered at time 100. -/
def polling (w : Site) (rs : List Inputs) : State := { inPh .ewPoll rs with site := w, ewT0 := 100 }
/-- The same in BIT_STORE with these indices, buffer byte 2 and high time (V46). -/
def storing (bit : Fin 8) (byte2 : Byte) (tHigh : Nat) : State :=
  { inPh .bitStore [Inputs.quiet] with
    byteIdx := 2, bitIdx := bit, ewElapsed := tHigh, buf := #v[0#8, 0#8, byte2, 0#8, 0#8] }
/-- The same with this frame in the buffer. -/
def holding (p : Phase) (b0 b1 b2 b3 b4 : Byte) : State :=
  { inPh p [Inputs.quiet] with buf := #v[b0, b1, b2, b3, b4] }

/-- The next state of an outcome. -/
def nextOf (o : Out) : Option State :=
  match o with
  | .next s => some s
  | .fault _ => none
  | .refused _ => none

/-! ### Well-formedness: the one check -/

/-- 30_encoding R87: `g_arg` is 0 for GET_LEVEL. -/
theorem test_wellFormed_getLevel : (Instr.getLevel 1#1).wellFormed = false ∧ (Instr.getLevel 0#1).wellFormed = true := by
  decide

/-! ### Decoding: every row's code, written out from 30_encoding.md and opcode_table.json -/

/-- 30_encoding R82. -/
theorem test_decode_cmd :
    decode (.cmd 0b00#2 ⟨4⟩) = .instr .nop ∧ decode (.cmd 0b01#2 ⟨4⟩) = .instr (.init ⟨4⟩) ∧
    decode (.cmd 0b10#2 ⟨4⟩) = .instr (.read ⟨4⟩) ∧ decode (.cmd 0b11#2 ⟨4⟩) = .instr .cmdReserved := by
  decide

/-- opcode_table.json, format OP: entry phases 3, 9, 13, 14; AWAIT_DATA at site 0; READ_BIT and
ASSEMBLE_FRAME at site 2, the latter with both counters 0. -/
theorem test_decode_op :
    decode (.op 0b0011#4 none none) = .instr .requestReadings ∧
    decode (.op 0b1001#4 none none) = .instr .awaitLevel ∧
    decode (.op 0b1001#4 (some 0b00#2) none) = .instr .awaitData ∧
    decode (.op 0b1001#4 (some 0b10#2) none) = .instr .readBit ∧
    decode (.op 0b1001#4 (some 0b10#2) (some (0#3, 0#3))) = .instr .assembleFrame ∧
    decode (.op 0b1101#4 none none) = .instr .validateChecksum ∧
    decode (.op 0b1110#4 none none) = .instr .decodeReading ∧
    decode (.op 0b0000#4 none none) = .rejected .noOperationEntersHere := by
  decide

/-- 30_encoding R89, R91. -/
theorem test_decode_phase :
    [0b0000#4, 0b0001#4, 0b0010#4, 0b0011#4, 0b0100#4, 0b0101#4, 0b0110#4, 0b0111#4,
     0b1000#4, 0b1001#4, 0b1010#4, 0b1011#4, 0b1100#4, 0b1101#4, 0b1110#4, 0b1111#4].map decodePhase =
    [.idle, .initDir, .initLvl, .rqDirOut, .rqLow, .rqDlyLow, .rqHigh, .rqDlyHigh,
     .rqDirIn, .ewEntry, .ewPoll, .bitStore, .faSettle, .check, .decode, .phaseReserved] := by
  decide

/-- 30_encoding R90. -/
theorem test_decode_site :
    decode (.site 0b00#2) = .instr .hsRise ∧ decode (.site 0b01#2) = .instr .hsFall ∧
    decode (.site 0b10#2) = .instr .bitRise ∧ decode (.site 0b11#2) = .instr .bitFall := by
  decide

/-- 30_encoding R85 to R87. -/
theorem test_decode_gpio :
    decode (.gpio 0b00#2 0#1) = .instr (.getLevel 0#1) ∧ decode (.gpio 0b00#2 1#1) = .rejected .getLevelWithArgument ∧
    decode (.gpio 0b01#2 0#1) = .instr (.setLevel .low) ∧ decode (.gpio 0b01#2 1#1) = .instr (.setLevel .high) ∧
    decode (.gpio 0b10#2 0#1) = .instr (.setDirection .input) ∧
    decode (.gpio 0b10#2 1#1) = .instr (.setDirection .output) ∧
    decode (.gpio 0b11#2 1#1) = .instr (.gpioReserved 1#1) := by
  decide

/-- 30_encoding R84. -/
theorem test_decode_status :
    decode (.status 0b00#2) = .instr .ok ∧ decode (.status 0b01#2) = .instr .gpioError ∧
    decode (.status 0b10#2) = .instr .badChecksum ∧ decode (.status 0b11#2) = .instr .timeout := by
  decide

/-- The table's numbering: two bits a command, three a GPIO request, else a phase (log 8). -/
theorem test_decodeTableWord :
    decodeTableWord 2 1 = some (.init ⟨0⟩) ∧ decodeTableWord 3 0b101 = some (.setDirection .output) ∧
    decodeTableWord 3 0b001 = none ∧ decodeTableWord 4 13 = some .check ∧ decodeTableWord 8 16 = none := by
  decide

/-- A placed phase code is what the next step runs: RQ_LOW, answered. -/
theorem test_withFetchWord_phase :
    nextOf (step (State.reset.withFetchWord 4 4)) =
      some { State.reset with phase := Phase.rqDlyLow.code, trace := [.setLvl ⟨0⟩ .low .ok] } := by
  decide

/-- A placed command code is accepted by the next step (R190). -/
theorem test_withFetchWord_cmd :
    nextOf (step (State.reset.withFetchWord 2 1)) =
      some { State.reset with phase := Phase.initDir.code, trace := [.cmd .init ⟨0⟩] } := by
  decide

/-! ### Commands: 95_test_vectors.md V80 to V84, P1 -/

/-- V80: the whole run of INIT. -/
theorem test_init_ok :
    nextOf (exec (.init ⟨4⟩) (idleAt [Inputs.quiet, ok, ok])) =
      some { State.reset with
        pin := ⟨4⟩, done := true,
        trace := [.cmd .init ⟨4⟩, .setDir ⟨4⟩ .output .ok, .setLvl ⟨4⟩ .high .ok, .fin .ok] } := by
  decide

/-- V81: no `SETLVL` after a failing `SETDIR`. -/
theorem test_init_fail :
    (nextOf (exec (.init ⟨4⟩) (idleAt [Inputs.quiet, bad, ok]))).map (fun s => (s.trace, s.status, s.inputs)) =
      some ([.cmd .init ⟨4⟩, .setDir ⟨4⟩ .output .fail, .fin .gpioError], .gpioError, [ok]) := by
  decide

/-- V21: READ whose first GPIO answer is a failure. -/
theorem test_read_fail :
    (nextOf (exec (.read ⟨4⟩) (idleAt [Inputs.quiet, bad]))).map (fun s => (s.trace, s.status, s.done)) =
      some ([.cmd .read ⟨4⟩, .setDir ⟨4⟩ .output .fail, .fin .gpioError], .gpioError, true) := by
  decide

/-- V83: `cmd_op` 00 and 11 are not accepted. -/
theorem test_nothing_accepted :
    nextOf (step (idleAt [cmd 0b00#2 4])) = some State.reset ∧
    nextOf (step (idleAt [cmd 0b11#2 4])) = some State.reset := by
  decide

/-- V84: a READ presented in RQ_DLY_LOW is not accepted. -/
theorem test_busy : (inPh .rqDlyLow []).cmdReady = false ∧
    nextOf (step (inPh .rqDlyLow [cmd 0b10#2 7])) = some (inPh .rqDlyLow []) := by
  decide

/-- V85: at its acceptance READ zeroes the reading of an earlier one. -/
theorem test_idle_read :
    (nextOf (exec .idle { idleAt [cmd 0b10#2 4] with rdHumidity := 652#16, rdTempMag := 258#15, done := true })).map
      (fun s => (s.phase, s.rdHumidity, s.rdTempMag, s.done)) = some (3#4, 0#16, 0#15, false) := by
  decide

/-- V86: INIT leaves the reading. -/
theorem test_idle_init :
    (nextOf (exec .idle { idleAt [cmd 0b01#2 4] with rdHumidity := 652#16, done := true })).map
      (fun s => (s.phase, s.pin, s.rdHumidity, s.done)) = some (1#4, ⟨4⟩, 652#16, false) := by
  decide

/-- V90: `rst = 1` in RQ_DLY_LOW. -/
theorem test_rst :
    nextOf (step (inPh .rqDlyLow [{ delayed with rst := true }])) = some State.reset := by
  decide

/-- 30_encoding R91: code 1111 accepts as IDLE does. -/
theorem test_phaseReserved :
    (nextOf (step { idleAt [cmd 0b01#2 4] with phase := 0b1111#4 })).map (fun s => s.phase) = some 1#4 := by
  decide

/-! ### The Request Sequencer: V20, V23, V24 -/

/-- V20: all four answers ok. -/
theorem test_requestReadings_ok :
    nextOf (exec .requestReadings (inPh .rqDirOut [ok, ok, delayed, ok, delayed, ok])) =
      some { inPh .ewEntry [] with
        trace := [.setDir ⟨4⟩ .output .ok, .setLvl ⟨4⟩ .low .ok, .delay 3000, .setLvl ⟨4⟩ .high .ok, .delay 20,
          .setDir ⟨4⟩ .input .ok] } := by
  decide

/-- V23: the third answer is a failure; the pin stays commanded OUTPUT, level 0. -/
theorem test_requestReadings_fail :
    (nextOf (exec .requestReadings (inPh .rqDirOut [ok, ok, delayed, bad]))).map
      (fun s => (s.status, lastDir ⟨4⟩ s.trace, lastLevel ⟨4⟩ s.trace)) =
        some (.gpioError, some .output, some .low) := by
  decide

/-- A request without `g_ack` is held (R95), then answered: RQ_LOW. -/
theorem test_rqLow_held : nextOf (step (inPh .rqLow [Inputs.quiet, ok])) = some (inPh .rqLow [ok]) := by decide

/-- V24: RQ_DIR_IN failing. -/
theorem test_rqDirIn_fail :
    (nextOf (step (inPh .rqDirIn [bad]))).map (fun s => (s.phase, s.status, s.trace)) =
      some (0#4, .gpioError, [.setDir ⟨4⟩ .input .fail, .fin .gpioError]) := by
  decide

/-! ### The Edge Waiter: V10 to V19, R112 to R115 -/

/-- EW_ENTRY stamps the clock. -/
theorem test_ewEntry :
    (nextOf (step (inPh .ewEntry [now 3024]))).map (fun s => (s.ewT0, s.phase, s.trace)) =
      some (3024, 10#4, [.now 3024]) := by
  decide

/-- R115: `elapsed == bound` is a TIMEOUT; one less polls again. -/
theorem test_ewPoll_bound :
    (nextOf (step (polling .hsRise [lo 190]))).map (fun s => (s.phase, s.status, s.ewElapsed)) =
      some (0#4, .timeout, 90) ∧
    (nextOf (step (polling .hsRise [lo 189]))).map (fun s => (s.phase, s.status, s.ewElapsed)) =
      some (10#4, .ok, 89) := by
  decide

/-- R114: the level wins over the bound (V44, h = 91: LOW at `elapsed == 90`). -/
theorem test_ewPoll_level_first :
    (nextOf (step (polling .bitFall [lo 190]))).map (fun s => (s.phase, s.ewElapsed)) = some (11#4, 90) := by
  decide

/-- The four returns of 41_edge_waiter R120. -/
theorem test_ewPoll_returns :
    (nextOf (step (polling .hsRise [hi 101]))).map (fun s => (s.phase, s.site)) = some (9#4, .hsFall) ∧
    (nextOf (step { polling .hsFall [lo 101] with byteIdx := 4, bitIdx := 7 })).map
      (fun s => (s.phase, s.site, s.byteIdx, s.bitIdx)) = some (9#4, .bitRise, 0, 0) ∧
    (nextOf (step (polling .bitRise [hi 101]))).map (fun s => (s.phase, s.site)) = some (9#4, .bitFall) ∧
    (nextOf (step (polling .bitFall [lo 101]))).map (fun s => (s.phase, s.site)) = some (11#4, .bitFall) := by
  decide

/-- V19's shape at site HS_RISE: (0,101) (1,102) (0,103) returns at the second poll. -/
theorem test_hsRise :
    (nextOf (exec .hsRise (inPh .idle [now 100, lo 101, hi 102, lo 103]))).map
      (fun s => (s.phase, s.site, s.ewElapsed, s.inputs)) = some (9#4, .hsFall, 2, [lo 103]) := by
  decide

/-- V34's shape at site HS_FALL, and the bounds of the two bit waits (V45: 70; R154: 90). -/
theorem test_wait_bounds :
    (nextOf (exec .hsFall (inPh .idle [now 100, hi 190]))).map (fun s => s.status) = some .timeout ∧
    (nextOf (exec .bitRise (inPh .idle [now 3184, lo 3253, lo 3254]))).map (fun s => (s.status, s.inputs)) =
      some (.timeout, []) ∧
    (nextOf (exec .bitFall (inPh .idle [now 3234, hi 3323, hi 3324]))).map (fun s => (s.status, s.inputs)) =
      some (.timeout, []) := by
  decide

/-- AWAIT_LEVEL takes target and bound from `site`. -/
theorem test_awaitLevel :
    (nextOf (exec .awaitLevel { inPh .idle [now 100, hi 150, lo 151] with site := .bitFall })).map
      (fun s => (s.phase, s.ewElapsed)) = some (11#4, 51) := by
  decide

/-- V18: a clock that stands still goes on polling until the level matches. -/
theorem test_wait_still_clock :
    (nextOf (exec .bitFall (inPh .idle [now 100, hi 100, hi 100, lo 100]))).map (fun s => (s.phase, s.ewElapsed)) =
      some (11#4, 0) := by
  decide

/-! ### Handshake and bit: V30 (with fewer polls), V32, V40 to V46 -/

/-- V30: both waits return OK with `elapsed = 79`. -/
theorem test_awaitData_ok :
    (nextOf (exec .awaitData (inPh .idle [now 3024, hi 3103, now 3104, lo 3183]))).map
      (fun s => (s.phase, s.site, s.ewT0, s.ewElapsed)) = some (9#4, .bitRise, 3104, 79) := by
  decide

/-- V32: a line stuck high passes HS_RISE at once and times out at HS_FALL. -/
theorem test_awaitData_stuck_high :
    (nextOf (exec .awaitData (inPh .idle [now 3024, hi 3025, now 3026, hi 3116]))).map
      (fun s => (s.status, s.site, s.ewElapsed)) = some (.timeout, .hsFall, 90) := by
  decide

/-- V44, h = 40 and h = 41: `t_high` 39 stores a 0, 40 a 1. -/
theorem test_readBit :
    (nextOf (exec .readBit (inPh .idle [now 3184, hi 3233, now 3234, lo 3273, Inputs.quiet]))).map
      (fun s => (s.phase, s.buf)) = some (12#4, #v[0#8, 0#8, 0#8, 0#8, 0#8]) ∧
    (nextOf (exec .readBit (inPh .idle [now 3184, hi 3233, now 3234, lo 3274, Inputs.quiet]))).map
      (fun s => (s.phase, s.buf)) = some (12#4, #v[0x80#8, 0#8, 0#8, 0#8, 0#8]) := by
  decide

/-- V46: the place a bit is stored at. -/
theorem test_bitStore :
    (nextOf (step (storing 0 0x00#8 69))).map (fun s => s.buf) = some #v[0#8, 0#8, 0x80#8, 0#8, 0#8] ∧
    (nextOf (step (storing 7 0x80#8 69))).map (fun s => s.buf) = some #v[0#8, 0#8, 0x81#8, 0#8, 0#8] ∧
    (nextOf (step (storing 7 0x80#8 29))).map (fun s => s.buf) = some #v[0#8, 0#8, 0x80#8, 0#8, 0#8] := by
  decide

/-- R163 at the ends of its ranges: next bit, next byte, frame complete. -/
theorem test_faSettle :
    (nextOf (step { inPh .faSettle [delayed] with bitIdx := 6 })).map (fun s => (s.phase, s.byteIdx, s.bitIdx)) =
      some (9#4, 0, 7) ∧
    (nextOf (step { inPh .faSettle [delayed] with byteIdx := 3, bitIdx := 7 })).map
      (fun s => (s.phase, s.byteIdx, s.bitIdx)) = some (9#4, 4, 0) ∧
    (nextOf (step { inPh .faSettle [delayed] with byteIdx := 4, bitIdx := 7 })).map
      (fun s => (s.phase, s.byteIdx, s.bitIdx, s.trace)) = some (13#4, 4, 7, [.delay 10]) := by
  decide

/-- V53's shape: a second bit that stays high abandons the frame; one settle delay in all. -/
theorem test_assembleFrame_abandoned :
    (nextOf (exec .assembleFrame (inPh .idle [now 0, hi 39, now 40, lo 109, Inputs.quiet, delayed,
      now 120, hi 159, now 160, hi 250]))).map (fun s => (s.status, s.bitIdx, s.buf)) =
        some (.timeout, 1, #v[0x80#8, 0#8, 0#8, 0#8, 0#8]) := by
  decide

/-! ### Checksum and reading: V60 to V66, V70 to V76 -/

/-- V60, V63, V64: passes, carries dropped. -/
theorem test_check_pass :
    (nextOf (step (holding .check 0x02#8 0x8C#8 0x01#8 0x02#8 0x91#8))).map (fun s => (s.phase, s.rdChecksum)) =
      some (14#4, 0x91#8) ∧
    (nextOf (exec .validateChecksum (holding .idle 0xFF#8 0xFF#8 0xFF#8 0xFF#8 0xFC#8))).map (fun s => s.phase) =
      some 14#4 ∧
    (nextOf (step (holding .check 0x80#8 0x80#8 0x00#8 0x00#8 0x00#8))).map (fun s => s.phase) = some 14#4 := by
  decide

/-- V62, V66: mismatches; the received byte is kept. -/
theorem test_check_fail :
    (nextOf (step (holding .check 0x02#8 0x8C#8 0x01#8 0x02#8 0x6E#8))).map
      (fun s => (s.phase, s.status, s.rdChecksum, s.rdHumidity)) = some (0#4, .badChecksum, 0x6E#8, 0#16) ∧
    (nextOf (exec .validateChecksum (holding .idle 0x02#8 0x8C#8 0x01#8 0x02#8 0x90#8))).map (fun s => s.status) =
      some .badChecksum := by
  decide

/-- V71, V74: sign and magnitude. -/
theorem test_decode_reading :
    (nextOf (step (holding .decode 0x02#8 0x8C#8 0x81#8 0x02#8 0x11#8))).map
      (fun s => (s.rdHumidity, s.rdTempNeg, s.rdTempMag, s.rdTemperature)) =
        some (652#16, true, 258#15, 0xFEFE#16) ∧
    (nextOf (exec .decodeReading (holding .idle 0xFF#8 0xFF#8 0xFF#8 0xFF#8 0xFC#8))).map
      (fun s => (s.rdHumidity, s.rdTempMag, s.rdTemperature, s.status)) =
        some (65535#16, 32767#15, 0x8001#16, .ok) := by
  decide

/-- V75: negative zero. -/
theorem test_decode_negative_zero :
    (nextOf (step (holding .decode 0#8 0#8 0x80#8 0#8 0x80#8))).map
      (fun s => (s.rdTempNeg, s.rdTempMag, s.rdTemperature)) = some (true, 0#15, 0#16) := by
  decide

/-! ### Requests and endings -/

/-- 30_encoding R87: the requests leave their entry, GET_LEVEL inside `SAMPLE`. -/
theorem test_gpio_requests :
    (nextOf (exec (.setLevel .low) (inPh .idle [bad]))).map (fun s => s.trace) = some [.setLvl ⟨4⟩ .low .fail] ∧
    (nextOf (exec (.setDirection .input) (inPh .idle [ok]))).map (fun s => s.trace) =
      some [.setDir ⟨4⟩ .input .ok] ∧
    (nextOf (exec (.getLevel 0#1) (inPh .idle [{ hi 7 with gFail := true }]))).map (fun s => s.trace) =
      some [.sample ⟨4⟩ .high 7] := by
  decide

/-- The reserved request has no next state. -/
theorem test_gpioReserved : exec (.gpioReserved 0#1) State.reset = .refused .reservedGpioRequest := rfl

/-- 48_commands R196. -/
theorem test_endings :
    (nextOf (exec .ok State.reset)).map (fun s => (s.status.code, s.done)) = some (0b00#2, true) ∧
    (nextOf (exec .gpioError State.reset)).map (fun s => s.status.code) = some 0b01#2 ∧
    (nextOf (exec .badChecksum State.reset)).map (fun s => s.status.code) = some 0b10#2 ∧
    (nextOf (exec .timeout State.reset)).map (fun s => (s.status.code, s.trace)) =
      some (0b11#2, [.fin .timeout]) := by
  decide

/-- 95 section 3: the codes on the GPIO and delay ports in the phases of a READ. -/
theorem test_ports :
    (inPh .rqDirOut []).gpioPort = some (0b10#2, 1#1, ⟨4⟩) ∧ (inPh .rqLow []).gpioPort = some (0b01#2, 0#1, ⟨4⟩) ∧
    (inPh .rqHigh []).gpioPort = some (0b01#2, 1#1, ⟨4⟩) ∧ (inPh .rqDirIn []).gpioPort = some (0b10#2, 0#1, ⟨4⟩) ∧
    (inPh .ewPoll []).gpioPort = some (0b00#2, 0#1, ⟨4⟩) ∧ (inPh .idle []).gpioPort = none ∧
    (inPh .rqDlyLow []).delayPort = some 0xBB8#12 ∧ (inPh .rqDlyHigh []).delayPort = some 0x014#12 ∧
    (inPh .faSettle []).delayPort = some 0x00A#12 := by
  decide

/-! ### Witnesses: for each statement with hypotheses, a state and operands that meet them -/

/-- DecodeInvertsEncode: a well-formed operation, and a code that decodes. -/
theorem witness_DecodeInvertsEncode :
    (Instr.getLevel 0#1).wellFormed = true ∧ decode (.cmd 0b11#2 ⟨4⟩) = .instr .cmdReserved := by decide

/-- StepRunsThePhase. -/
theorem witness_StepRunsThePhase :
    (inPh .ewPoll []).rstAsserted = false ∧ decode (.phase (inPh .ewPoll []).phase) = .instr .ewPoll := by decide

/-- ResetInputHoldsResetState, and its last clause: the next record has no reset. -/
theorem witness_ResetInputHoldsResetState :
    (inPh .rqDlyLow [{ Inputs.quiet with rst := true }, ok]).rstAsserted = true ∧
    (inPh .rqDlyLow [{ Inputs.quiet with rst := true }, ok]).resetByPort.rstAsserted = false := by decide

/-- IdleAcceptsCommands: each clause. -/
theorem witness_IdleAcceptsCommands :
    (idleAt [cmd 0b01#2 4]).inputs = cmd 0b01#2 4 :: [] ∧
    (cmd 0b01#2 4).cmdValid = true ∧ (cmd 0b01#2 4).cmdOp = 0b01#2 ∧
    (cmd 0b10#2 4).cmdValid = true ∧ (cmd 0b10#2 4).cmdOp = 0b10#2 ∧
    Inputs.quiet.cmdValid = false ∧ (cmd 0b00#2 4).cmdOp = 0b00#2 ∧ (cmd 0b11#2 4).cmdOp = 0b11#2 := by
  decide

/-- ReservedPhaseActsAsIdle: its last clause. -/
theorem witness_ReservedPhaseActsAsIdle :
    ({ State.reset with phase := 0b1111#4 } : State).phase = 0b1111#4 ∧
    ({ State.reset with phase := 0b1111#4 } : State).rstAsserted = false := by decide

/-- BusyIgnoresCommands. -/
theorem witness_BusyIgnoresCommands :
    (inPh .rqDlyLow [cmd 0b10#2 7]).busy = true ∧ (inPh .rqDlyLow [cmd 0b10#2 7]).inputs = cmd 0b10#2 7 :: [] := by
  decide

/-- InitPhases and RequestGpioPhases: a record for each clause of GpioPhase. -/
theorem witness_GpioPhases :
    (inPh .initDir [ok]).inputs = ok :: [] ∧ ok.gAck = true ∧ ok.gFail = false ∧
    bad.gAck = true ∧ bad.gFail = true := by decide

/-- RequestDelayPhases and SettleAdvances: each clause, the counters at the ends of their ranges. -/
theorem witness_DelayPhases :
    (inPh .rqDlyLow [delayed]).inputs = delayed :: [] ∧ delayed.dAck = true ∧
    ({ inPh .faSettle [] with bitIdx := 6 } : State).bitIdx.val < 7 ∧
    ({ inPh .faSettle [] with byteIdx := 3, bitIdx := 7 } : State).byteIdx.val < 4 ∧
    ({ inPh .faSettle [] with byteIdx := 3, bitIdx := 7 } : State).bitIdx = 7 ∧
    ({ inPh .faSettle [] with byteIdx := 4, bitIdx := 7 } : State).byteIdx = 4 := by decide

/-- RequestsAreHeld: a request that is not acknowledged, and no record at all. -/
theorem witness_RequestsAreHeld :
    (inPh .rqHigh [Inputs.quiet, ok]).inputs = Inputs.quiet :: [ok] ∧ Inputs.quiet.gAck = false ∧
    Inputs.quiet.dAck = false ∧ (inPh .rqHigh []).inputs = [] := by decide

/-- A GPIO request held for a step, then answered ok. -/
theorem gpioOk_held : GpioOk [Inputs.quiet, ok] := ⟨[Inputs.quiet], ok, rfl, by decide, rfl, rfl, rfl⟩
/-- One answered at once. -/
theorem gpioOk_now : GpioOk [ok] := ⟨[], ok, rfl, by decide, rfl, rfl, rfl⟩
/-- One answered with a failure. -/
theorem gpioFail_now : GpioFail [bad] := ⟨[], bad, rfl, by decide, rfl, rfl, rfl⟩
/-- A delay. -/
theorem delayOver_now : DelayOver [delayed] := ⟨[], delayed, rfl, by decide, rfl, rfl⟩

/-- InitRun: each clause. -/
theorem witness_InitRun :
    (idleAt [Inputs.quiet, ok, ok]).busy = false ∧ Inputs.quiet.rst = false ∧
    (idleAt [Inputs.quiet, ok, ok]).inputs = Inputs.quiet :: ([ok] ++ [ok] ++ []) ∧ GpioOk [ok] ∧
    (idleAt [Inputs.quiet, bad]).inputs = Inputs.quiet :: ([bad] ++ []) ∧ GpioFail [bad] ∧
    (idleAt [Inputs.quiet, Inputs.quiet, ok, bad]).inputs =
      Inputs.quiet :: ([Inputs.quiet, ok] ++ [bad] ++ []) ∧ GpioOk [Inputs.quiet, ok] :=
  ⟨rfl, rfl, rfl, gpioOk_now, rfl, gpioFail_now, rfl, gpioOk_held⟩

/-- The records of a request that is answered well. -/
def reqOk : List Inputs := [ok, ok, delayed, ok, delayed, ok]

/-- They are. -/
theorem requestOk_reqOk : RequestOk reqOk :=
  ⟨[ok], [ok], [delayed], [ok], [delayed], [ok], rfl, gpioOk_now, gpioOk_now, delayOver_now, gpioOk_now,
    delayOver_now, gpioOk_now⟩

/-- RequestReadingsRun and ReadFailsFast: the request answered well, and failing at each of its four GPIO
steps. -/
theorem witness_RequestReadingsRun :
    (inPh .rqDirOut reqOk).inputs = reqOk ++ [] ∧ RequestOk reqOk ∧
    (∃ es, RequestFails ⟨4⟩ [bad] es) ∧ (∃ es, RequestFails ⟨4⟩ [ok, bad] es) ∧
    (∃ es, RequestFails ⟨4⟩ [ok, ok, delayed, bad] es) ∧
    (∃ es, RequestFails ⟨4⟩ [ok, ok, delayed, ok, delayed, bad] es) :=
  ⟨rfl, requestOk_reqOk, ⟨_, .inl ⟨gpioFail_now, rfl⟩⟩,
    ⟨_, .inr (.inl ⟨[ok], [bad], rfl, gpioOk_now, gpioFail_now, rfl⟩)⟩,
    ⟨_, .inr (.inr (.inl ⟨[ok], [ok], [delayed], [bad], rfl, gpioOk_now, gpioOk_now, delayOver_now, gpioFail_now,
      rfl⟩))⟩,
    ⟨_, .inr (.inr (.inr ⟨[ok], [ok], [delayed], [ok], [delayed], [bad], rfl, gpioOk_now, gpioOk_now, delayOver_now,
      gpioOk_now, delayOver_now, gpioFail_now, rfl⟩))⟩⟩

/-- ReadFailsFast. -/
theorem witness_ReadFailsFast :
    (idleAt [Inputs.quiet, bad]).busy = false ∧
    (idleAt [Inputs.quiet, bad]).inputs = Inputs.quiet :: ([bad] ++ []) ∧ Inputs.quiet.rst = false ∧
    ∃ es, RequestFails ⟨4⟩ [bad] es := ⟨rfl, rfl, rfl, _, .inl ⟨gpioFail_now, rfl⟩⟩

/-- EdgeEntryStamps. -/
theorem witness_EdgeEntryStamps :
    (inPh .ewEntry [now 7]).inputs = now 7 :: [] := by decide

/-- EdgePollJudges, BackwardClockPollGoesOn, PollIgnoresFailureFlag: the level shown; the bound just
reached; one microsecond before it; a clock below the entry stamp. -/
theorem witness_EdgePollJudges :
    (Site.bitRise, Level.high, 70) ∈ waitOperands ∧ (polling .bitRise [hi 100]).site = .bitRise ∧
    (polling .bitRise [hi 100]).inputs = hi 100 :: [] ∧ (hi 100).gAck = true ∧
    (polling .bitRise []).ewT0 ≤ (hi 100).timeUs ∧ (hi 100).gLevel = .high ∧
    (lo 170).gLevel ≠ .high ∧ 70 ≤ (lo 170).timeUs - (polling .bitRise []).ewT0 ∧
    (lo 169).timeUs - (polling .bitRise []).ewT0 < 70 ∧
    (lo 99).timeUs < (polling .bitRise []).ewT0 ∧ (polling .bitRise []).phase = Phase.ewPoll.code := by decide

/-- WaitsRefineThePseudocode: V14's shape, the samples (0,189) and (0,190) with bound 90, and an OK. -/
theorem witness_WaitsRefineThePseudocode :
    (Site.hsRise, Level.high, 90) ∈ waitOperands ∧
    (Site.hsRise, Instr.hsRise) ∈ [(Site.hsRise, Instr.hsRise), (.hsFall, .hsFall), (.bitRise, .bitRise),
      (.bitFall, .bitFall)] ∧
    (inPh .idle [now 100, lo 189, lo 190]).inputs = now 100 :: ([lo 189, lo 190] ++ []) ∧ (now 100).rst = false ∧
    (∀ m ∈ [lo 189, lo 190, hi 190], m.rst = false ∧ m.gAck = true) ∧
    awaitLevel .high 90 100 ([lo 189, lo 190].map fun m => (m.gLevel, m.timeUs)) = some (.timeout, 90, 2) ∧
    awaitLevel .high 90 100 ([lo 189, hi 190].map fun m => (m.gLevel, m.timeUs)) = some (.ok, 90, 2) := by decide

/-! ### Environments without end -/

/-- An idle block to which no command is presented stays idle. -/
theorem stays_idle {env : Environment} {s : State} {m : Nat}
    (h : ∀ k, m ≤ k → (env k).rst = false ∧ (env k).cmdValid = false)
    (hm : (s.atStep env m).phase = Phase.idle.code) (k : Nat) (hk : m ≤ k) :
    (s.atStep env k).phase = Phase.idle.code := by
  induction k, hk using Nat.le_induction with
  | base => exact hm
  | succ k hk ih =>
    have hi := atStep_inputs env s k
    rw [State.atStep, seqStep_of_phase ih (by rw [State.rstAsserted_cons hi, (h k hk).1])]
    simp [phaseStep, idleStep, State.presented, hi, (h k hk).2, State.tick, ih]

/-- The line stays low and the clock advances by 100 in each step. -/
def lowFor : Environment := fun n => lo (100 * n)

/-- WaitEndsWhenTimePasses: V15's shape, a line that stays low; after two steps the block asks no more. -/
theorem witness_WaitEndsWhenTimePasses :
    let s := polling .hsRise []
    (Site.hsRise, Level.high, 90) ∈ waitOperands ∧ s.site = .hsRise ∧ (∀ n, (lowFor n).rst = false) ∧
    TimeProgress lowFor { s with phase := Phase.ewEntry.code } ∧ ∀ m, (lowFor m).gLevel ≠ .high := by
  refine ⟨by decide, rfl, fun _ => rfl, fun n t0 b _ => .inr ⟨max (n + 1) 2, by omega, fun k hk => ?_⟩,
    fun _ => by simp [lowFor, lo]⟩
  have idle := stays_idle (env := lowFor) (s := { polling .hsRise [] with phase := Phase.ewEntry.code })
    (m := 2) (fun _ _ => ⟨rfl, rfl⟩) (by decide) k (by omega)
  simpa [State.asksTime] using ⟨fun h => by simp [h] at idle, fun h => by simp [h] at idle⟩

/-- ElapsedUnderMonotonicTime: a wait polled every 30 µs, of which steps 1 and 2 poll. -/
theorem witness_ElapsedUnderMonotonicTime :
    let env : Environment := fun n => lo (100 + 30 * n)
    let s := { polling .hsRise [] with phase := Phase.ewEntry.code }
    s.phase ≠ Phase.ewPoll.code ∧ MonotonicTime env s ∧
    (s.atStep env 1).phase = Phase.ewPoll.code ∧ (s.atStep env 2).phase = Phase.ewPoll.code ∧
    (s.atStep env 1).timeReturned = some 130 ∧ (s.atStep env 2).timeReturned = some 160 := by
  refine ⟨by decide, fun m n t u hmn hm hn => ?_, by decide, by decide, by decide, by decide⟩
  rw [(timeReturned_eq hm).1, (timeReturned_eq hn).1]
  simp only [lo]
  omega

/-- SettleSeparatesBits: the line is low at step 0, the bit is stored at 1 and settled at 2; the next
clock read is at 3. -/
theorem witness_SettleSeparatesBits :
    let env : Environment := fun n => { lo (4000 * n) with dAck := true }
    let s := polling .bitFall []
    DelayAtLeast env s ∧ (s.atStep env 0).phase = Phase.ewPoll.code ∧
    (s.atStep env 0).timeReturned = some 0 ∧ (s.atStep env 1).phase = Phase.bitStore.code ∧
    (∀ j, (env j).rst = false) ∧ (s.atStep env 1).timeReturned = none ∧
    (s.atStep env 2).timeReturned = none ∧ (s.atStep env 3).timeReturned = some 12000 := by
  refine ⟨fun m n k d t u hd _ hmn hnk ht hu _ => ?_, by decide, by decide, by decide, fun _ => rfl,
    by decide, by decide, by decide⟩
  have hd : d ≤ 3000 := by
    unfold State.delayRequest at hd
    split at hd
    · cases hd
    · split at hd <;> cases hd <;> decide
  rw [(timeReturned_eq ht).1, (timeReturned_eq hu).1]
  simp only [lo]
  omega

/-- READ of handle 7 at step 0; from step 2 on whatever is requested fails. -/
def failing : Environment := fun n => if n = 0 then cmd 0b10#2 7 else if n = 1 then Inputs.quiet else bad

/-- EveryCommandEnds: the request of step 1 is held once and fails in step 2. -/
theorem witness_EveryCommandEnds :
    let s := idleAt []
    (∀ n, (failing n).rst = false) ∧ TimeProgress failing s ∧ CollaboratorsAnswer failing s ∧
    Serialised failing s ∧ (s.atStep failing 0).issued = some (.read, ⟨7⟩) ∧
    (s.atStep failing 1).busy = true ∧ (s.atStep failing 1).gpioRequest = some (.setDirection .output) := by
  have late : ∀ n, 3 ≤ n → ((idleAt []).atStep failing n).phase = Phase.idle.code :=
    stays_idle (fun k hk => by simp [failing, show k ≠ 0 by omega, show k ≠ 1 by omega, bad, Inputs.quiet])
      (by decide)
  have small : ∀ (P : Nat → Prop), P 0 → P 1 → P 2 → (∀ n, 3 ≤ n → P n) → ∀ n, P n
    | _, h, _, _, _, 0 => h
    | _, _, h, _, _, 1 => h
    | _, _, _, h, _, 2 => h
    | _, _, _, _, h, n + 3 => h _ (by omega)
  refine ⟨small _ rfl rfl rfl fun n hn => ?_, fun n t0 b h => ?_, small _ ?_ ?_ ?_ fun n hn => ?_,
    small _ ?_ ?_ ?_ fun n hn => ?_, by decide, by decide, by decide⟩
  · simp [failing, show n ≠ 0 by omega, show n ≠ 1 by omega, bad, Inputs.quiet]
  · have never : ∀ n, ((idleAt []).atStep failing n).timeReturned = none :=
      small _ (by decide) (by decide) (by decide) fun n hn => by simp [State.timeReturned, late n hn]
    rw [never n] at h
    cases h
  · exact ⟨fun h => absurd h (by decide), fun h => absurd h (by decide)⟩
  · exact ⟨fun _ => ⟨2, by decide, by decide⟩, fun h => absurd h (by decide)⟩
  · exact ⟨fun _ => ⟨2, by decide, by decide⟩, fun h => absurd h (by decide)⟩
  · simp [State.gpioRequest, State.delayRequest, late n hn]
  · decide
  · decide
  · decide
  · simp [State.busy, late n hn]

/-- StoppedClockPollsForEver: V18's clock, a poll that is held, and a clock that stops a microsecond
before the bound. -/
theorem witness_StoppedClockPollsForEver :
    let polls := [hi 100, Inputs.quiet, hi 189]
    (polling .hsFall (now 100 :: polls)).inputs = now 100 :: polls ∧
    (polling .hsFall (now 100 :: polls)).site = .hsFall ∧ NoReset (now 100 :: polls) ∧
    ∀ m ∈ polls, m.gAck = true →
      m.gLevel ≠ .low ∧ (now 100).timeUs ≤ m.timeUs ∧ m.timeUs - (now 100).timeUs < 90 := by
  simp only [NoReset]
  decide

/-- A wait entered at `t` whose only poll shows `l` at `u`. -/
theorem waitOk_one (w : Site) (t u : Nat) (r : Inputs) (h : r.gAck = true ∧ r.gLevel = w.target ∧
    r.timeUs = u ∧ r.rst = false) (hu : t ≤ u) : WaitOk w [now t, r] (u - t) :=
  ⟨now t, [], r, rfl, rfl, by simp, h.2.2.2, h.1, h.2.1, by simp [elapsedSince, now, h.2.2.1, hu]⟩

/-- AwaitDataRun: V30 with the two deciding polls. -/
def hsOk : List Inputs := [now 3024, hi 3103] ++ [now 3104, lo 3183]

/-- It is answered well. -/
theorem handshakeOk_hsOk : HandshakeOk hsOk :=
  ⟨_, 79, _, 79, rfl, waitOk_one .hsRise 3024 3103 _ ⟨rfl, rfl, rfl, rfl⟩ (by decide),
    waitOk_one .hsFall 3104 3183 _ ⟨rfl, rfl, rfl, rfl⟩ (by decide)⟩

/-- A handshake whose line stays low: V31's last poll. -/
theorem handshakeTimeout_low : HandshakeTimeout [now 3024, lo 3114] :=
  .inl ⟨now 3024, [], lo 3114, rfl, rfl, by simp, rfl, rfl, by decide, by decide⟩

/-- A handshake that times out at its second wait: V32. -/
theorem handshakeTimeout_high : HandshakeTimeout ([now 3024, hi 3025] ++ [now 3026, hi 3116]) :=
  .inr ⟨_, 1, _, rfl, waitOk_one .hsRise 3024 3025 _ ⟨rfl, rfl, rfl, rfl⟩ (by decide),
    ⟨now 3026, [], hi 3116, rfl, rfl, by simp, rfl, rfl, by decide, by decide⟩⟩

/-- AwaitDataRun: each clause. -/
theorem witness_AwaitDataRun :
    (inPh .idle hsOk).inputs = hsOk ++ [] ∧ HandshakeOk hsOk ∧
    HandshakeTimeout [now 3024, lo 3114] ∧ HandshakeTimeout ([now 3024, hi 3025] ++ [now 3026, hi 3116]) :=
  ⟨rfl, handshakeOk_hsOk, handshakeTimeout_low, handshakeTimeout_high⟩

/-- The records of one bit with high time `h`: 39 µs low, the store, the settle delay. -/
def bitRecords (h : Nat) : List Inputs := [now 0, hi 39] ++ [now 40, lo (40 + h)] ++ [Inputs.quiet] ++ [delayed]

/-- They are read with that high time. -/
theorem bitRead_records (h : Nat) : BitRead (bitRecords h) h :=
  ⟨_, 39, _, Inputs.quiet, _, rfl, waitOk_one .bitRise 0 39 _ ⟨rfl, rfl, rfl, rfl⟩ (by decide),
    by simpa using waitOk_one .bitFall 40 (40 + h) (lo (40 + h)) ⟨rfl, rfl, rfl, rfl⟩ (by omega),
    rfl, delayOver_now⟩

/-- One bit after another. -/
theorem bitsRead_records (hs : List Nat) : BitsRead (hs.flatMap bitRecords) hs := by
  induction hs with
  | nil => rfl
  | cons h hs ih => exact ⟨bitRecords h, hs.flatMap bitRecords, by simp, bitRead_records h, ih⟩

/-- A bit that times out at its first wait (V45), and at its second (V44, h = 92). -/
theorem bitTimeout_both : BitTimeout [now 3184, lo 3254] ∧
    BitTimeout ([now 3184, hi 3233] ++ [now 3234, hi 3324]) :=
  ⟨.inl ⟨now 3184, [], lo 3254, rfl, rfl, by simp, rfl, rfl, by decide, by decide⟩,
    .inr ⟨_, 49, _, rfl, waitOk_one .bitRise 3184 3233 _ ⟨rfl, rfl, rfl, rfl⟩ (by decide),
      ⟨now 3234, [], hi 3324, rfl, rfl, by simp, rfl, rfl, by decide, by decide⟩⟩⟩

/-- ReadBitRun: each clause, with the high times 39 and 40; ReadBitExpands. -/
theorem witness_ReadBitRun :
    (inPh .idle ([now 0, hi 39] ++ [now 40, lo 79] ++ Inputs.quiet :: [])).inputs =
      [now 0, hi 39] ++ [now 40, lo 79] ++ Inputs.quiet :: [] ∧
    WaitOk .bitRise [now 0, hi 39] 39 ∧ WaitOk .bitFall [now 40, lo 79] 39 ∧
    WaitOk .bitFall [now 40, lo 80] 40 ∧ Inputs.quiet.rst = false ∧ BitTimeout [now 3184, lo 3254] ∧
    NoReset [now 0, hi 39] :=
  ⟨rfl, waitOk_one .bitRise 0 39 _ ⟨rfl, rfl, rfl, rfl⟩ (by decide),
    waitOk_one .bitFall 40 79 _ ⟨rfl, rfl, rfl, rfl⟩ (by decide),
    waitOk_one .bitFall 40 80 _ ⟨rfl, rfl, rfl, rfl⟩ (by decide), rfl, bitTimeout_both.1,
    by simp only [NoReset]; decide⟩

/-- V51's frame as high times: 29 for a 0, 69 for a 1. -/
def highsV51 : List Nat :=
  [29, 29, 29, 29, 29, 29, 69, 29] ++ [69, 29, 29, 29, 69, 69, 29, 29] ++ [29, 29, 29, 29, 29, 29, 29, 69] ++
  [29, 29, 29, 29, 29, 29, 69, 29] ++ [69, 29, 29, 69, 29, 29, 29, 69]

/-- V51: the bytes these bits make. -/
theorem test_frameOf : frameOf highsV51 = #v[0x02#8, 0x8C#8, 0x01#8, 0x02#8, 0x91#8] := by decide

/-- AssembleFrameRun: a whole frame; and a bit that is late after 0 and after 39 good ones. -/
theorem witness_AssembleFrameRun :
    BitsRead (highsV51.flatMap bitRecords) highsV51 ∧ highsV51.length = 40 ∧
    (inPh .idle []).buf = #v[0#8, 0#8, 0#8, 0#8, 0#8] ∧
    (inPh .idle (highsV51.flatMap bitRecords)).inputs = highsV51.flatMap bitRecords ++ [] ∧
    BitsRead ([] : List Inputs) [] ∧ BitsRead ((highsV51.take 39).flatMap bitRecords) (highsV51.take 39) ∧
    (highsV51.take 39).length < 40 ∧ BitTimeout [now 3184, lo 3254] :=
  ⟨bitsRead_records _, rfl, rfl, by simp [inPh, idleAt], rfl, bitsRead_records _, by decide, bitTimeout_both.1⟩

/-- CheckValidates: V60 passes, V62 does not. -/
theorem witness_CheckValidates :
    (holding .check 0x02#8 0x8C#8 0x01#8 0x02#8 0x91#8).buf[4].toNat = (0x02 + 0x8C + 0x01 + 0x02) % 256 ∧
    (holding .check 0x02#8 0x8C#8 0x01#8 0x02#8 0x6E#8).buf[4].toNat ≠ (0x02 + 0x8C + 0x01 + 0x02) % 256 ∧
    (holding .check 0x02#8 0x8C#8 0x01#8 0x02#8 0x6E#8).rstAsserted = false := by decide

/-- DecodeLatchesReading's last clause. -/
theorem witness_DecodeLatchesReading :
    (holding .decode 0x02#8 0x8C#8 0x01#8 0x02#8 0x91#8).rstAsserted = false := by decide

/-- A state in which CHECK has just passed, of a running READ. -/
def checked : State := { holding .decode 0x02#8 0x8C#8 0x01#8 0x02#8 0x91#8 with rdChecksum := 0x91#8 }

/-- It meets the invariant of the registers. -/
theorem checked_inv : checked.Inv := by
  constructor
  · decide
  · decide
  · decide
  · intro _ h; exact absurd rfl h
  · decide
  · intro _ n h
    have : checked.bitsStored = 40 := by decide
    omega

/-- ReadingIsTheFrame. -/
theorem witness_ReadingIsTheFrame : checked.Inv ∧ checked.phase = Phase.decode.code := ⟨checked_inv, rfl⟩

/-- ReadOfACompleteFrame: V51's frame passes (P1); the same with its last bit a 0 does not (V66). -/
theorem witness_ReadOfACompleteFrame :
    RequestOk reqOk ∧ HandshakeOk hsOk ∧ BitsRead (highsV51.flatMap bitRecords) highsV51 ∧
    highsV51.length = 40 ∧ Inputs.quiet.rst = false ∧ State.reset.busy = false ∧
    (let rs := Inputs.quiet :: (reqOk ++ hsOk ++ highsV51.flatMap bitRecords ++ Inputs.quiet :: [Inputs.quiet])
     (idleAt rs).inputs = rs ∧ (idleAt rs).busy = false) ∧
    (frameOf highsV51)[4].toNat = ((frameOf highsV51)[0].toNat + (frameOf highsV51)[1].toNat +
      (frameOf highsV51)[2].toNat + (frameOf highsV51)[3].toNat) % 256 ∧
    (let f := frameOf (highsV51.take 39 ++ [29])
     f[4].toNat ≠ (f[0].toNat + f[1].toNat + f[2].toNat + f[3].toNat) % 256) :=
  ⟨requestOk_reqOk, handshakeOk_hsOk, bitsRead_records _, rfl, rfl, rfl, ⟨rfl, rfl⟩, by decide, by decide⟩

/-- CompleteReadCounts: such a READ has a next state. -/
theorem witness_CompleteReadCounts :
    ∃ t, exec (.read ⟨4⟩) (idleAt (Inputs.quiet ::
      (reqOk ++ hsOk ++ highsV51.flatMap bitRecords ++ Inputs.quiet :: Inputs.quiet :: []))) = .next t :=
  ⟨_, rfl⟩

/-- ReadTimesOut: late in the handshake, and late at the fortieth bit. -/
theorem witness_ReadTimesOut :
    (let rs := Inputs.quiet :: (reqOk ++ [now 3024, lo 3114] ++ [])
     (idleAt rs).busy = false ∧ (idleAt rs).inputs = rs) ∧
    (let rs := Inputs.quiet :: (reqOk ++ hsOk ++ (highsV51.take 39).flatMap bitRecords ++
       ([now 3184, hi 3233] ++ [now 3234, hi 3324]) ++ [])
     (idleAt rs).busy = false ∧ (idleAt rs).inputs = rs) ∧
    Inputs.quiet.rst = false ∧ RequestOk reqOk ∧
    HandshakeTimeout [now 3024, lo 3114] ∧ HandshakeOk hsOk ∧
    BitsRead ((highsV51.take 39).flatMap bitRecords) (highsV51.take 39) ∧ (highsV51.take 39).length < 40 ∧
    BitTimeout ([now 3184, hi 3233] ++ [now 3234, hi 3324]) :=
  ⟨⟨rfl, rfl⟩, ⟨rfl, rfl⟩, rfl, requestOk_reqOk, handshakeTimeout_low, handshakeOk_hsOk, bitsRead_records _,
    by decide, bitTimeout_both.2⟩

/-- ReadExpands. -/
theorem witness_ReadExpands : (idleAt [ok]).busy = false ∧ (idleAt [ok]).rstAsserted = false := by decide

/-- FinishWritesOnlyTheOutcome. -/
theorem witness_FinishWritesOnlyTheOutcome :
    (Instr.timeout, Status.timeout) ∈ [(Instr.ok, Status.ok), (.gpioError, .gpioError),
      (.badChecksum, .badChecksum), (.timeout, .timeout)] := by decide

/-- GpioRequestsOnlyTrace: answered and held. -/
theorem witness_GpioRequestsOnlyTrace :
    (inPh .idle [bad]).inputs = bad :: [] ∧ bad.gAck = true ∧ Inputs.quiet.gAck = false := by decide

/-- ReservedRequestNeverIssued, DelayPortValues, StepPerformsItsRequest: a phase that holds a request. -/
theorem witness_ports :
    (inPh .ewPoll [hi 100]).gpioPort = some (0b00#2, 0#1, ⟨4⟩) ∧ (inPh .faSettle []).delayPort = some 10#12 ∧
    (inPh .ewPoll [hi 100]).gpioRequest = some (.getLevel 0#1) ∧ (inPh .ewPoll [hi 100]).gpioAnswer ≠ none := by
  decide

/-- ControlGraph, OneTransactionPerStep, RegisterWriters: a step of a phase. -/
theorem witness_step :
    (inPh .bitStore []).rstAsserted = false ∧ (inPh .bitStore []).phase = Phase.bitStore.code ∧
    ∃ t, step (inPh .bitStore []) = .next t := ⟨rfl, rfl, _, rfl⟩

/-- StatusCauses: a step that ends a command, for each status. -/
theorem witness_StatusCauses :
    (∃ t, step (inPh .rqLow [bad]) = .next t ∧ t.phase = Phase.idle.code ∧ t.status = .gpioError) ∧
    (∃ t, step (polling .hsRise [lo 190]) = .next t ∧ t.phase = Phase.idle.code ∧ t.status = .timeout) ∧
    (∃ t, step (holding .check 0x02#8 0x8C#8 0x01#8 0x02#8 0x6E#8) = .next t ∧ t.phase = Phase.idle.code ∧
      t.status = .badChecksum) ∧
    (∃ t, step (inPh .initLvl [ok]) = .next t ∧ t.phase = Phase.idle.code ∧ t.status = .ok) :=
  ⟨⟨_, rfl, rfl, rfl⟩, ⟨_, rfl, by decide, by decide⟩, ⟨_, rfl, by decide, by decide⟩, ⟨_, rfl, rfl, rfl⟩⟩

/-- StepKeepsInvariant and ResultTable: a READ about to end, with the invariant. -/
theorem witness_StepKeepsInvariant :
    checked.Inv ∧ checked.inRead = true ∧ checked.rstAsserted = false ∧
    ∃ t, step checked = .next t ∧ t.phase = Phase.idle.code := ⟨checked_inv, by decide, rfl, _, rfl, rfl⟩

/-- A READ in its first wait, with the line as the request has left it. -/
def waiting : State := { polling .hsRise [lo 190] with
  trace := [.setDir ⟨4⟩ .output .ok, .setLvl ⟨4⟩ .low .ok, .delay 3000, .setLvl ⟨4⟩ .high .ok, .delay 20,
    .setDir ⟨4⟩ .input .ok] }

/-- StepKeepsLine and LineAtTheEnd: it times out. -/
theorem witness_StepKeepsLine :
    waiting.LineInv ∧ waiting.rstAsserted = false ∧ waiting.phase = Phase.ewPoll.code ∧
    ∃ t, step waiting = .next t ∧ t.phase = Phase.idle.code := by
  refine ⟨?_, rfl, rfl, _, rfl, by decide⟩
  constructor <;> decide

/-- ResultStaysUntilNextCommand: an idle step after a finished command. -/
theorem witness_ResultStaysUntilNextCommand :
    ({ idleAt [ok] with done := true, rdHumidity := 652#16 } : State).busy = false ∧
    ({ idleAt [ok] with done := true, rdHumidity := 652#16 } : State).rstAsserted = false ∧
    ∃ t, step { idleAt [ok] with done := true, rdHumidity := 652#16 } = .next t ∧ t.busy = false :=
  ⟨rfl, rfl, _, rfl, rfl⟩

/-- HandleIsOpaque. -/
theorem witness_HandleIsOpaque : waiting.rstAsserted = false := rfl

/-- StaleRegistersDoNotMatter: two idle states that differ in every register R40 leaves unspecified. -/
theorem witness_StaleRegistersDoNotMatter :
    (idleAt [ok]).LiveAgree { idleAt [ok] with pin := ⟨9⟩, ewT0 := 17, ewElapsed := 23 } := by
  constructor <;> first | rfl | decide

end Sys2Proof.Tests
end

section
/-! PROOFS. What a step adds to the trace (00_scope R8, R11): at most the one transaction of its phase, then
at most one `FIN`. Settles O47 from the inversion lemma `step_case`. -/

namespace Sys2Proof.Machine

variable {s t u : State} {p : Phase}

/-- From `s` to `u` the trace grows by nothing, or by one transaction of phase `p` on the latched pin. -/
def AtMostOneTransaction (p : Phase) (s u : State) : Prop :=
  u.trace = s.trace ∨ ∃ e, u.trace = s.trace ++ [e] ∧ Event.fitsPhase p s.pin e

/-- The same as a list of entries, none or one. -/
theorem AtMostOneTransaction.entries (h : AtMostOneTransaction p s u) :
    ∃ tx, u.trace = s.trace ++ tx ∧ tx.length ≤ 1 ∧ ∀ e ∈ tx, Event.fitsPhase p s.pin e := by
  obtain same | ⟨e, grown, fits⟩ := h
  · exact ⟨[], by simp [same]⟩
  · exact ⟨[e], grown, le_rfl, by simpa using fits⟩

/-- The `SetDir` a phase asks for fits the phase, whatever the answer. -/
theorem fitsPhase_setDir {d : Dir} (hp : dirOf p = some d) (pin : Pin) (a : Answer) :
    Event.fitsPhase p pin (.setDir pin d a) := by
  cases p <;> cases hp <;> simp [Event.fitsPhase]

/-- The `SetLevel` a phase asks for fits the phase, whatever the answer. -/
theorem fitsPhase_setLvl {l : Level} (hp : levelOf p = some l) (pin : Pin) (a : Answer) :
    Event.fitsPhase p pin (.setLvl pin l a) := by
  cases p <;> cases hp <;> simp [Event.fitsPhase]

/-- A step is at most one transaction of its phase, or that and then the ending of the command
(48_commands R196). -/
theorem StepCase.transaction_or_finish (h : StepCase s p t) :
    AtMostOneTransaction p s t ∨ ∃ u st, t = u.finish st ∧ AtMostOneTransaction p s u := by
  cases h with
  | stayIdle | held | stored | checkPass => exact .inl (.inl rfl)
  | acceptInit | acceptRead | stamped => exact .inl (.inr ⟨_, rfl, rfl⟩)
  | initDirOk | rqDirOutOk | rqDirInOk => exact .inl (.inr ⟨_, rfl, fitsPhase_setDir rfl _ _⟩)
  | rqLowOk | rqHighOk => exact .inl (.inr ⟨_, rfl, fitsPhase_setLvl rfl _ _⟩)
  | rqDlyLowOver | rqDlyHighOver | nextBit | nextByte | frameComplete =>
    exact .inl (.inr ⟨_, rfl, by simp [Event.fitsPhase]⟩)
  | hsRiseOk | hsFallOk | bitRiseOk | bitFallOk | pollAgain => exact .inl (.inr ⟨_, rfl, rfl, rfl⟩)
  | dirFail hp => exact .inr ⟨_, _, rfl, .inr ⟨_, rfl, fitsPhase_setDir hp _ _⟩⟩
  | levelFail hp => exact .inr ⟨_, _, rfl, .inr ⟨_, rfl, fitsPhase_setLvl hp _ _⟩⟩
  | initLvlOk => exact .inr ⟨_, _, rfl, .inr ⟨_, rfl, fitsPhase_setLvl rfl _ _⟩⟩
  | waitTimeout => exact .inr ⟨_, _, rfl, .inr ⟨_, rfl, rfl, rfl⟩⟩
  | checkFail => exact .inr ⟨_, _, rfl, .inl rfl⟩
  | decoded => exact .inr ⟨s.latchReading.tick, .ok, rfl, .inl rfl⟩

/-- Settles O47: each case of a step is a transaction of the phase, or none, followed by `finish` or not. -/
theorem oneTransactionPerStep : Obligations.OneTransactionPerStep := by
  intro s t p hr hp h
  obtain once | ⟨u, st, rfl, once⟩ := (step_case hr hp h).transaction_or_finish
  · obtain ⟨tx, grown, atMostOne, fits⟩ := once.entries
    exact ⟨tx, [], by simp [grown], atMostOne, fits, .inl rfl⟩
  · obtain ⟨tx, grown, atMostOne, fits⟩ := once.entries
    exact ⟨tx, [.fin st], by simp [grown], atMostOne, fits, .inr ⟨rfl, rfl, rfl⟩⟩

end Sys2Proof.Machine
end

section
/-! PROOFS. A step does not compute on the sensor handle (10_state R23): every operation of Machine/Ops.lean
and with it every phase's step commutes with a renaming of the handles. -/

namespace Sys2Proof.Machine

variable (f : Pin → Pin) (s : State)

/-- The operation a command port shows, with its handle renamed. -/
def renamePin (f : Pin → Pin) : Instr → Instr
  | .init pin => .init (f pin)
  | .read pin => .read (f pin)
  | i => i

/-- The command decoder passes the handle on as it is (30_encoding R82). -/
theorem decodeCmd_renamePin (op : BitVec 2) (pin : Pin) :
    decodeCmd op (f pin) = renamePin f (decodeCmd op pin) := by
  unfold decodeCmd
  split <;> rfl

/-! ### The step's port record -/

@[simp] theorem State.mapPin_phase : (s.mapPin f).phase = s.phase := rfl

@[simp] theorem State.mapPin_rstAsserted : (s.mapPin f).rstAsserted = s.rstAsserted := by
  cases h : s.inputs <;> simp [State.rstAsserted, State.mapPin, Inputs.mapPin, h]

@[simp] theorem State.mapPin_gpioAnswer : (s.mapPin f).gpioAnswer = s.gpioAnswer := by
  cases h : s.inputs <;> simp [State.gpioAnswer, State.mapPin, Inputs.mapPin, h]

@[simp] theorem State.mapPin_sampleAnswer : (s.mapPin f).sampleAnswer = s.sampleAnswer := by
  cases h : s.inputs <;> simp [State.sampleAnswer, State.mapPin, Inputs.mapPin, h]

@[simp] theorem State.mapPin_nowAnswer : (s.mapPin f).nowAnswer = s.nowAnswer := by
  cases h : s.inputs <;> simp [State.nowAnswer, State.mapPin, Inputs.mapPin, h]

@[simp] theorem State.mapPin_delayAnswer : (s.mapPin f).delayAnswer = s.delayAnswer := by
  cases h : s.inputs <;> simp [State.delayAnswer, State.mapPin, Inputs.mapPin, h]

@[simp] theorem State.mapPin_presented :
    (s.mapPin f).presented = s.presented.map (renamePin f) := by
  cases h : s.inputs with
  | nil => simp [State.presented, State.mapPin, h]
  | cons r rest =>
    cases hv : r.cmdValid <;>
      simp [State.presented, State.mapPin, Inputs.mapPin, h, hv, decodeCmd_renamePin]

/-! ### Register transfers -/

@[simp] theorem State.mapPin_tick : (s.mapPin f).tick = s.tick.mapPin f := by
  simp [State.tick, State.mapPin]

@[simp] theorem State.mapPin_goto (p : Phase) : (s.mapPin f).goto p = (s.goto p).mapPin f := rfl

@[simp] theorem State.mapPin_startWait (w : Site) :
    (s.mapPin f).startWait w = (s.startWait w).mapPin f := rfl

@[simp] theorem State.mapPin_orBit (b : Bool) : (s.mapPin f).orBit b = (s.orBit b).mapPin f := rfl

@[simp] theorem State.mapPin_latchReading :
    (s.mapPin f).latchReading = s.latchReading.mapPin f := rfl

@[simp] theorem State.mapPin_record (e : Event) :
    (s.mapPin f).record (e.mapPin f) = (s.record e).mapPin f := by
  simp [State.record, State.mapPin]

@[simp] theorem State.mapPin_finish (st : Status) :
    (s.mapPin f).finish st = (s.finish st).mapPin f := by
  simp [State.finish, State.mapPin, Event.mapPin]

@[simp] theorem State.mapPin_acceptInit (pin : Pin) :
    (s.mapPin f).acceptInit (f pin) = (s.acceptInit pin).mapPin f := by
  simp [State.acceptInit, State.mapPin, Event.mapPin]

@[simp] theorem State.mapPin_acceptRead (pin : Pin) :
    (s.mapPin f).acceptRead (f pin) = (s.acceptRead pin).mapPin f := by
  simp [State.acceptRead, State.mapPin, Event.mapPin]

/-! ### Transactions: the entry names the latched handle, the answer does not -/

/-- A transaction's entry, made and the step over. -/
theorem State.mapPin_record_tick (e : Event) :
    ((s.mapPin f).record (e.mapPin f)).tick = (s.record e).tick.mapPin f := by
  rw [State.mapPin_record, State.mapPin_tick]

theorem State.mapPin_setDir (d : Dir) :
    (s.mapPin f).setDir d = Prod.map (State.mapPin f) id (s.setDir d) := by
  unfold State.setDir
  rw [State.mapPin_gpioAnswer]
  cases s.gpioAnswer with
  | none => simp
  | some a => exact congrArg (·, some a) (s.mapPin_record_tick f (.setDir s.pin d a))

theorem State.mapPin_setLevel (l : Level) :
    (s.mapPin f).setLevel l = Prod.map (State.mapPin f) id (s.setLevel l) := by
  unfold State.setLevel
  rw [State.mapPin_gpioAnswer]
  cases s.gpioAnswer with
  | none => simp
  | some a => exact congrArg (·, some a) (s.mapPin_record_tick f (.setLvl s.pin l a))

theorem State.mapPin_sample :
    (s.mapPin f).sample = Prod.map (State.mapPin f) id s.sample := by
  unfold State.sample
  rw [State.mapPin_sampleAnswer]
  cases s.sampleAnswer with
  | none => simp
  | some a => exact congrArg (·, some a) (s.mapPin_record_tick f (.sample s.pin a.1 a.2))

theorem State.mapPin_now : (s.mapPin f).now = Prod.map (State.mapPin f) id s.now := by
  unfold State.now
  rw [State.mapPin_nowAnswer]
  cases s.nowAnswer with
  | none => simp
  | some t => exact congrArg (·, some t) (s.mapPin_record_tick f (.now t))

/-! ### The shapes of a phase's step -/

/-- A continuation that does not compute on the handle. -/
def CommutesWithRenaming (k : State → State) : Prop :=
  ∀ (f : Pin → Pin) (s : State), k (s.mapPin f) = (k s).mapPin f

variable {k : State → State}

theorem gpioStep_mapPin (hk : CommutesWithRenaming k) (tx : State × Option Answer) :
    gpioStep (Prod.map (State.mapPin f) id tx) k = (gpioStep tx k).mapPin f := by
  obtain ⟨u, _ | _ | _⟩ := tx
  · rfl
  · exact hk f u
  · exact u.mapPin_finish f .gpioError

theorem gpioStep_setDir_commutes (hk : CommutesWithRenaming k) (d : Dir) :
    CommutesWithRenaming fun s => gpioStep (s.setDir d) k := by
  intro f s
  beta_reduce
  rw [State.mapPin_setDir, gpioStep_mapPin f hk]

theorem gpioStep_setLevel_commutes (hk : CommutesWithRenaming k) (l : Level) :
    CommutesWithRenaming fun s => gpioStep (s.setLevel l) k := by
  intro f s
  beta_reduce
  rw [State.mapPin_setLevel, gpioStep_mapPin f hk]

theorem delayStep_commutes (hk : CommutesWithRenaming k) (d : Nat) :
    CommutesWithRenaming fun s => delayStep s d k := by
  intro f s
  unfold delayStep
  beta_reduce
  rw [State.mapPin_delayAnswer]
  cases s.delayAnswer with
  | false => exact s.mapPin_tick f
  | true => exact (congrArg k (s.mapPin_record_tick f (.delay d))).trans (hk f _)

/-! ### The phases -/

/-- The accepted command's handle is latched, and a command that is not accepted has none. -/
theorem idleStep_commutes : CommutesWithRenaming idleStep := by
  intro f s
  unfold idleStep
  rw [State.mapPin_presented]
  cases s.presented with
  | none => exact s.mapPin_tick f
  | some i =>
    cases i with
    | init pin | read pin => simp [renamePin]
    | _ => exact s.mapPin_tick f

theorem ewEntryStep_commutes : CommutesWithRenaming ewEntryStep := by
  intro f s
  unfold ewEntryStep
  rw [State.mapPin_now]
  obtain ⟨u, _ | t⟩ := s.now <;> rfl

theorem State.waitReturned_commutes : CommutesWithRenaming State.waitReturned := by
  intro f s
  obtain ⟨_, site⟩ := s
  cases site <;> rfl

/-- Level and elapsed time are judged, not the handle. -/
theorem State.judgePoll_commutes (l : Level) : CommutesWithRenaming (State.judgePoll · l) := by
  intro f s
  simp only [State.judgePoll, apply_ite (State.mapPin f), State.waitReturned_commutes f s,
    State.mapPin_finish]
  rfl

theorem ewPollStep_commutes : CommutesWithRenaming ewPollStep := by
  intro f s
  unfold ewPollStep
  rw [State.mapPin_sample]
  obtain ⟨u, _ | ⟨l, t⟩⟩ := s.sample
  · rfl
  · exact State.judgePoll_commutes l f { u with ewElapsed := elapsedSince u.ewT0 t }

theorem State.advanceBit_commutes : CommutesWithRenaming State.advanceBit := by
  intro f s
  simp only [State.advanceBit, apply_dite (State.mapPin f)]
  rfl

theorem bitStoreStep_commutes : CommutesWithRenaming bitStoreStep :=
  fun f s => ((s.orBit (bitValue s.ewElapsed)).goto .faSettle).mapPin_tick f

theorem checkStep_commutes : CommutesWithRenaming checkStep := by
  intro f s
  simp only [checkStep, apply_ite (State.mapPin f), ← State.mapPin_goto, ← State.mapPin_finish,
    ← State.mapPin_tick]
  rfl

theorem decodeStep_commutes : CommutesWithRenaming decodeStep := by
  intro f s
  simp [decodeStep]

/-- Every phase's step commutes with a renaming. -/
theorem phaseStep_commutes (p : Option Phase) : CommutesWithRenaming (phaseStep p) := by
  have goto : ∀ q : Phase, CommutesWithRenaming (·.goto q) := fun _ _ _ => rfl
  match p with
  | none | some .idle => exact idleStep_commutes
  | some .initDir | some .rqDirOut => exact gpioStep_setDir_commutes (goto _) .output
  | some .rqDirIn => exact gpioStep_setDir_commutes (fun _ _ => rfl) .input
  | some .initLvl => exact gpioStep_setLevel_commutes (fun f s => s.mapPin_finish f .ok) .high
  | some .rqLow => exact gpioStep_setLevel_commutes (goto _) .low
  | some .rqHigh => exact gpioStep_setLevel_commutes (goto _) .high
  | some .rqDlyLow => exact delayStep_commutes (goto _) CFG.requestLow
  | some .rqDlyHigh => exact delayStep_commutes (goto _) CFG.requestHigh
  | some .faSettle => exact delayStep_commutes State.advanceBit_commutes CFG.interBitSettle
  | some .ewEntry => exact ewEntryStep_commutes
  | some .ewPoll => exact ewPollStep_commutes
  | some .bitStore => exact bitStoreStep_commutes
  | some .check => exact checkStep_commutes
  | some .decode => exact decodeStep_commutes

/-- Settles O55: the step is its phase's, and every phase's step commutes with the renaming. -/
theorem handleIsOpaque : Obligations.HandleIsOpaque := by
  intro f s hr
  simp only [step_eq_seqStep, seqStep, mapPinOut, State.mapPin_rstAsserted, State.mapPin_phase, hr]
  exact congrArg _ (phaseStep_commutes _ f s)

end Sys2Proof.Machine
end

section
/-! PROOFS. No step reads a register that is stale in its phase (10_state R41): every operation keeps
`State.LiveAgree`, given agreement on what the phase it leads to can read. -/

namespace Sys2Proof.Machine

variable {s t : State}

/-- A block is busy in every phase but IDLE (10_state R30). -/
theorem State.busy_iff {p : Phase} (hp : s.phase = p.code) : s.busy = true ↔ p ≠ .idle := by
  unfold State.busy
  rw [hp, Phase.ofCode_code]
  cases p <;> decide

/-- The phases of a READ are all but IDLE and those of INIT (30_encoding R89). -/
theorem State.inRead_iff {p : Phase} (hp : s.phase = p.code) :
    s.inRead = true ↔ p ∉ [.idle, .initDir, .initLvl] := by
  unfold State.inRead
  rw [hp]
  cases p <;> decide

namespace State.LiveAgree

theorem refl (s : State) : s.LiveAgree s := by constructor <;> simp

/-- The host sees no register but those that are always live (10_state R39). -/
theorem hostView (ag : s.LiveAgree t) : s.hostView = t.hostView := by
  simp [State.hostView, State.busy, State.rdTemperature, ag.phase, ag.status, ag.done,
    ag.rdHumidity, ag.rdTempNeg, ag.rdTempMag, ag.rdChecksum]

/-! ### The port record is the same -/

theorem rstAsserted (ag : s.LiveAgree t) : s.rstAsserted = t.rstAsserted := by
  simp only [State.rstAsserted, ag.inputs]

theorem gpioAnswer (ag : s.LiveAgree t) : s.gpioAnswer = t.gpioAnswer := by
  simp only [State.gpioAnswer, ag.inputs]

theorem sampleAnswer (ag : s.LiveAgree t) : s.sampleAnswer = t.sampleAnswer := by
  simp only [State.sampleAnswer, ag.inputs]

theorem nowAnswer (ag : s.LiveAgree t) : s.nowAnswer = t.nowAnswer := by
  simp only [State.nowAnswer, ag.inputs]

theorem delayAnswer (ag : s.LiveAgree t) : s.delayAnswer = t.delayAnswer := by
  simp only [State.delayAnswer, ag.inputs]

theorem presented (ag : s.LiveAgree t) : s.presented = t.presented := by
  simp only [State.presented, ag.inputs]

/-! ### Register transfers -/

theorem tick (ag : s.LiveAgree t) : s.tick.LiveAgree t.tick :=
  { ag with inputs := congrArg List.tail ag.inputs }

theorem record (ag : s.LiveAgree t) (e : Event) : (s.record e).LiveAgree (t.record e) :=
  { ag with trace := congrArg (· ++ [e]) ag.trace }

/-- What the phase it leads to can read has to agree: the handle in a command, the buffer in a READ, the
site in a wait, the counters in a bit, the stamp in EW_POLL and the elapsed time in BIT_STORE. -/
theorem goto (ag : s.LiveAgree t) {q : Phase} (pin : q ≠ .idle → s.pin = t.pin)
    (buf : q ∉ [.idle, .initDir, .initLvl] → s.buf = t.buf)
    (site : q = .ewEntry ∨ q = .ewPoll → s.site = t.site := by simp)
    (counters : (q = .ewEntry ∨ q = .ewPoll) ∧ (s.site = .bitRise ∨ s.site = .bitFall) ∨
      q = .bitStore ∨ q = .faSettle → s.byteIdx = t.byteIdx ∧ s.bitIdx = t.bitIdx := by simp)
    (ewT0 : q = .ewPoll → s.ewT0 = t.ewT0 := by simp)
    (ewElapsed : q = .bitStore → s.ewElapsed = t.ewElapsed := by simp) :
    (s.goto q).LiveAgree (t.goto q) :=
  { ag with
    phase := rfl
    pin := fun h => pin ((State.busy_iff rfl).1 h)
    buf := fun h => buf ((State.inRead_iff rfl).1 h)
    site := by simpa using site
    counters := by simpa using counters
    ewT0 := by simpa using ewT0
    ewElapsed := by simpa using ewElapsed }

/-- After `finish` the block is idle and reads no register. -/
theorem finish (ag : s.LiveAgree t) (st : Status) : (s.finish st).LiveAgree (t.finish st) :=
  have reported : State.LiveAgree { s with status := st, done := true, trace := s.trace ++ [.fin st] }
      { t with status := st, done := true, trace := t.trace ++ [.fin st] } :=
    { ag with status := rfl, done := rfl, trace := congrArg (· ++ [.fin st]) ag.trace }
  reported.goto (q := .idle) nofun (by simp)

/-- INIT reads the handle that its acceptance latches. -/
theorem acceptInit (ag : s.LiveAgree t) (pin : Pin) :
    (s.acceptInit pin).LiveAgree (t.acceptInit pin) :=
  have latched : State.LiveAgree
      { s with pin := pin, done := false, trace := s.trace ++ [.cmd .init pin] }
      { t with pin := pin, done := false, trace := t.trace ++ [.cmd .init pin] } :=
    { ag with pin := fun _ => rfl, done := rfl, trace := congrArg (· ++ [.cmd .init pin]) ag.trace }
  latched.goto (q := .initDir) (fun _ => rfl) (by simp)

/-- READ reads the handle that its acceptance latches and the buffer that it zeroes (48_commands R192). -/
theorem acceptRead (ag : s.LiveAgree t) (pin : Pin) :
    (s.acceptRead pin).LiveAgree (t.acceptRead pin) where
  phase := rfl
  inputs := ag.inputs
  trace := by simp [ag.trace]
  status := ag.status
  done := rfl
  rdHumidity := rfl
  rdTempNeg := rfl
  rdTempMag := rfl
  rdChecksum := rfl
  pin _ := rfl
  buf _ := rfl
  site := by simp
  counters := by simp
  ewT0 := by simp
  ewElapsed := by simp

/-- A wait reads the counters only in a bit (the sites BIT_RISE and BIT_FALL). -/
theorem startWait (ag : s.LiveAgree t) (w : Site) (pin : s.pin = t.pin) (buf : s.buf = t.buf)
    (counters : w = .bitRise ∨ w = .bitFall → s.byteIdx = t.byteIdx ∧ s.bitIdx = t.bitIdx) :
    (s.startWait w).LiveAgree (t.startWait w) :=
  { ag with
    phase := rfl
    pin := fun _ => pin
    buf := fun _ => buf
    site := fun _ => rfl
    counters := by simpa using counters
    ewT0 := by simp
    ewElapsed := by simp }

/-! ### The shapes of a phase's step -/

theorem gpioStep_setDir (ag : s.LiveAgree t) (pin : s.pin = t.pin) {d : Dir} {k : State → State}
    (ok : (k (s.record (.setDir s.pin d .ok)).tick).LiveAgree (k (t.record (.setDir s.pin d .ok)).tick)) :
    (gpioStep (s.setDir d) k).LiveAgree (gpioStep (t.setDir d) k) := by
  unfold State.setDir
  rw [← ag.gpioAnswer, ← pin]
  rcases s.gpioAnswer with _ | _ | _
  · exact ag.tick
  · exact ok
  · exact (ag.record _).tick.finish _

theorem gpioStep_setLevel (ag : s.LiveAgree t) (pin : s.pin = t.pin) {l : Level} {k : State → State}
    (ok : (k (s.record (.setLvl s.pin l .ok)).tick).LiveAgree (k (t.record (.setLvl s.pin l .ok)).tick)) :
    (gpioStep (s.setLevel l) k).LiveAgree (gpioStep (t.setLevel l) k) := by
  unfold State.setLevel
  rw [← ag.gpioAnswer, ← pin]
  rcases s.gpioAnswer with _ | _ | _
  · exact ag.tick
  · exact ok
  · exact (ag.record _).tick.finish _

theorem delayStep (ag : s.LiveAgree t) {d : Nat} {k : State → State}
    (answered : (k (s.record (.delay d)).tick).LiveAgree (k (t.record (.delay d)).tick)) :
    (delayStep s d k).LiveAgree (delayStep t d k) := by
  unfold Machine.delayStep
  rw [← ag.delayAnswer]
  cases s.delayAnswer
  · exact ag.tick
  · exact answered

/-! ### The phases -/

theorem idleStep (ag : s.LiveAgree t) : (idleStep s).LiveAgree (idleStep t) := by
  unfold Machine.idleStep
  rw [← ag.presented]
  split
  · exact (ag.acceptInit _).tick
  · exact (ag.acceptRead _).tick
  · exact ag.tick

/-- EW_ENTRY writes the stamp that EW_POLL reads (41_edge_waiter R111). -/
theorem ewEntryStep (ag : s.LiveAgree t) (hp : s.phase = Phase.ewEntry.code) (pin : s.pin = t.pin)
    (buf : s.buf = t.buf) : (ewEntryStep s).LiveAgree (ewEntryStep t) := by
  unfold Machine.ewEntryStep State.now
  rw [← ag.nowAnswer]
  cases s.nowAnswer with
  | none => exact ag.tick
  | some now =>
    have stamped : State.LiveAgree { (s.record (.now now)).tick with ewT0 := now }
        { (t.record (.now now)).tick with ewT0 := now } :=
      { (ag.record (.now now)).tick with ewT0 := fun _ => rfl }
    exact stamped.goto (fun _ => pin) (fun _ => buf) (fun _ => ag.site (.inl hp))
      (by simpa using fun hs => ag.counters (.inl ⟨.inl hp, hs⟩)) (fun _ => rfl)

/-- A wait hands on to the next wait or to BIT_STORE, which reads the elapsed time of the last poll
(41_edge_waiter R120). -/
theorem waitReturned (ag : s.LiveAgree t) (hp : s.phase = Phase.ewPoll.code) (pin : s.pin = t.pin)
    (buf : s.buf = t.buf) (ewElapsed : s.ewElapsed = t.ewElapsed) :
    s.waitReturned.LiveAgree t.waitReturned := by
  unfold State.waitReturned
  rw [← ag.site (.inr hp)]
  cases hs : s.site with
  | hsRise => exact ag.startWait .hsFall pin buf nofun
  | hsFall =>
    have zeroed : State.LiveAgree { s with byteIdx := 0, bitIdx := 0 }
        { t with byteIdx := 0, bitIdx := 0 } :=
      { ag with counters := fun _ => ⟨rfl, rfl⟩ }
    exact zeroed.startWait .bitRise pin buf fun _ => ⟨rfl, rfl⟩
  | bitRise => exact ag.startWait .bitFall pin buf fun _ => ag.counters (.inl ⟨.inr hp, .inl hs⟩)
  | bitFall =>
    exact ag.goto (fun _ => pin) (fun _ => buf)
      (counters := fun _ => ag.counters (.inl ⟨.inr hp, .inr hs⟩)) (ewElapsed := fun _ => ewElapsed)

/-- EW_POLL writes the elapsed time from the stamp and judges it by the site (41_edge_waiter R112). -/
theorem ewPollStep (ag : s.LiveAgree t) (hp : s.phase = Phase.ewPoll.code) (pin : s.pin = t.pin)
    (buf : s.buf = t.buf) : (ewPollStep s).LiveAgree (ewPollStep t) := by
  unfold Machine.ewPollStep State.sample
  rw [← ag.sampleAnswer]
  rcases s.sampleAnswer with _ | ⟨l, now⟩
  · exact ag.tick
  · have elapsed : elapsedSince s.ewT0 now = elapsedSince t.ewT0 now := by rw [ag.ewT0 hp]
    have polled : (s.polled l now).LiveAgree (t.polled l now) :=
      { ag with
        inputs := congrArg List.tail ag.inputs
        trace := by simp [ag.trace, pin]
        ewElapsed := fun _ => elapsed }
    change ((s.polled l now).judgePoll l).LiveAgree ((t.polled l now).judgePoll l)
    unfold State.judgePoll
    rw [← polled.site (.inr hp), State.polled_ewElapsed, State.polled_ewElapsed, ← elapsed]
    split
    · exact polled.waitReturned hp pin buf elapsed
    · split
      · exact polled.finish .timeout
      · exact polled

/-- BIT_STORE reads all that it stores by: buffer, counters and elapsed time (44_bit_decoder R153). -/
theorem bitStoreStep (ag : s.LiveAgree t) (hp : s.phase = Phase.bitStore.code) (pin : s.pin = t.pin)
    (buf : s.buf = t.buf) : (bitStoreStep s).LiveAgree (bitStoreStep t) := by
  have counters := ag.counters (.inr (.inl hp))
  have sameBuf : (s.orBit (bitValue s.ewElapsed)).buf = (t.orBit (bitValue t.ewElapsed)).buf := by
    simp [buf, counters, ag.ewElapsed hp]
  have stored : (s.orBit (bitValue s.ewElapsed)).LiveAgree (t.orBit (bitValue t.ewElapsed)) :=
    { ag with buf := fun _ => sameBuf }
  exact (stored.goto (fun _ => pin) (fun _ => sameBuf) (counters := fun _ => counters)).tick

/-- The loop of the frame reads the counters that it advances (45_frame_assembler R163). -/
theorem advanceBit (ag : s.LiveAgree t) (pin : s.pin = t.pin) (buf : s.buf = t.buf)
    (byteIdx : s.byteIdx = t.byteIdx) (bitIdx : s.bitIdx = t.bitIdx) :
    s.advanceBit.LiveAgree t.advanceBit := by
  have advanced : ∀ (n : Fin 5) (m : Fin 8),
      ({ s with byteIdx := n, bitIdx := m }.startWait .bitRise).LiveAgree
        ({ t with byteIdx := n, bitIdx := m }.startWait .bitRise) := by
    intro n m
    have written : State.LiveAgree { s with byteIdx := n, bitIdx := m }
        { t with byteIdx := n, bitIdx := m } :=
      { ag with counters := fun _ => ⟨rfl, rfl⟩ }
    exact written.startWait .bitRise pin buf fun _ => ⟨rfl, rfl⟩
  unfold State.advanceBit
  simp only [← byteIdx, ← bitIdx]
  split
  · simpa [byteIdx] using advanced s.byteIdx _
  · split
    · exact advanced _ 0
    · exact ag.goto (fun _ => pin) fun _ => buf

/-- CHECK reads the buffer (46_checksum_validator R171). -/
theorem checkStep (ag : s.LiveAgree t) (pin : s.pin = t.pin) (buf : s.buf = t.buf) :
    (checkStep s).LiveAgree (checkStep t) := by
  have latched : State.LiveAgree { s with rdChecksum := s.buf[4] }.tick
      { t with rdChecksum := t.buf[4] }.tick :=
    { ag.tick with rdChecksum := congrArg (·[4]) buf }
  have valid : checksumValid s.buf = checksumValid t.buf := congrArg checksumValid buf
  obtain ⟨hs, es⟩ | ⟨hs, es⟩ := checkStep_cases s <;>
    obtain ⟨ht, et⟩ | ⟨ht, et⟩ := checkStep_cases t <;> rw [es, et]
  · exact latched.goto (fun _ => pin) fun _ => buf
  · cases hs.symm.trans (valid.trans ht)
  · cases hs.symm.trans (valid.trans ht)
  · exact latched.finish .badChecksum

/-- DECODE reads the buffer (47_reading_decoder R180). -/
theorem decodeStep (ag : s.LiveAgree t) (buf : s.buf = t.buf) :
    (decodeStep s).LiveAgree (decodeStep t) := by
  have latched : s.latchReading.LiveAgree t.latchReading :=
    { ag with
      rdHumidity := congrArg humidityOf buf
      rdTempNeg := congrArg tempNegOf buf
      rdTempMag := congrArg tempMagOf buf }
  exact (latched.finish .ok).tick

/-- The step of every phase keeps the agreement. -/
theorem phaseStep {p : Phase} (ag : s.LiveAgree t) (hp : s.phase = p.code) :
    (phaseStep (some p) s).LiveAgree (phaseStep (some p) t) := by
  have pin : p ≠ .idle → s.pin = t.pin := fun h => ag.pin ((State.busy_iff hp).2 h)
  have buf : p ∉ [.idle, .initDir, .initLvl] → s.buf = t.buf :=
    fun h => ag.buf ((State.inRead_iff hp).2 h)
  cases p with
  | idle => exact ag.idleStep
  | initDir =>
    exact ag.gpioStep_setDir (pin nofun) ((ag.record _).tick.goto (fun _ => pin nofun) (by simp))
  | initLvl => exact ag.gpioStep_setLevel (pin nofun) ((ag.record _).tick.finish .ok)
  | rqDirOut =>
    exact ag.gpioStep_setDir (pin nofun)
      ((ag.record _).tick.goto (fun _ => pin nofun) fun _ => buf (by decide))
  | rqLow =>
    exact ag.gpioStep_setLevel (pin nofun)
      ((ag.record _).tick.goto (fun _ => pin nofun) fun _ => buf (by decide))
  | rqDlyLow =>
    exact ag.delayStep (k := (·.goto .rqHigh))
      ((ag.record _).tick.goto (fun _ => pin nofun) fun _ => buf (by decide))
  | rqHigh =>
    exact ag.gpioStep_setLevel (pin nofun)
      ((ag.record _).tick.goto (fun _ => pin nofun) fun _ => buf (by decide))
  | rqDlyHigh =>
    exact ag.delayStep (k := (·.goto .rqDirIn))
      ((ag.record _).tick.goto (fun _ => pin nofun) fun _ => buf (by decide))
  | rqDirIn =>
    exact ag.gpioStep_setDir (pin nofun)
      ((ag.record _).tick.startWait .hsRise (pin nofun) (buf (by decide)) nofun)
  | ewEntry => exact ag.ewEntryStep hp (pin nofun) (buf (by decide))
  | ewPoll => exact ag.ewPollStep hp (pin nofun) (buf (by decide))
  | bitStore => exact ag.bitStoreStep hp (pin nofun) (buf (by decide))
  | faSettle =>
    obtain ⟨byteIdx, bitIdx⟩ := ag.counters (.inr (.inr hp))
    exact ag.delayStep ((ag.record _).tick.advanceBit (pin nofun) (buf (by decide)) byteIdx bitIdx)
  | check => exact ag.checkStep (pin nofun) (buf (by decide))
  | decode => exact ag.decodeStep (buf (by decide))

/-- Every step keeps the agreement, a reset included. -/
theorem seqStep (ag : s.LiveAgree t) : (seqStep s).LiveAgree (seqStep t) := by
  unfold Machine.seqStep
  rw [← ag.rstAsserted, ← ag.phase]
  split
  · have same : s.resetByPort = t.resetByPort := by simp [State.resetByPort, ag.inputs, ag.trace]
    exact same ▸ refl _
  · obtain ⟨p, hp⟩ | hp := Phase.code_cases s.phase
    · rw [hp, Phase.ofCode_code]
      exact ag.phaseStep hp
    · rw [hp]
      exact ag.idleStep

end State.LiveAgree

/-- Settles O56: a step keeps the agreement on the live registers, and the host-visible ones are live. -/
theorem staleRegistersDoNotMatter : Obligations.StaleRegistersDoNotMatter :=
  fun s t ag => ⟨ag.hostView, seqStep s, seqStep t, step_eq_seqStep s, step_eq_seqStep t,
    ag.seqStep, ag.seqStep.hostView⟩

end Sys2Proof.Machine
end

section
/-! PROOFS. Which steps write which register (10_state R22 to R35): for each register the cases of a step
that write it; every other case leaves it as it was. -/

namespace Sys2Proof.Machine

namespace StepCase

variable {s t : State} {p : Phase}

theorem pin_writers (h : StepCase s p t) (changed : t.pin ≠ s.pin) : p = .idle ∧ t.busy = true := by
  cases h with
  | acceptInit | acceptRead => exact ⟨rfl, rfl⟩
  | _ => exact absurd rfl changed

theorem buf_writers (h : StepCase s p t) (changed : t.buf ≠ s.buf) :
    p = .bitStore ∨ (p = .idle ∧ t.phase = Phase.rqDirOut.code ∧
      t.buf = #v[0#8, 0#8, 0#8, 0#8, 0#8]) := by
  cases h with
  | stored => exact .inl rfl
  | acceptRead => exact .inr ⟨rfl, rfl, rfl⟩
  | _ => exact absurd rfl changed

theorem counter_writers (h : StepCase s p t) (changed : t.byteIdx ≠ s.byteIdx ∨ t.bitIdx ≠ s.bitIdx) :
    p = .faSettle ∨ (p = .ewPoll ∧ s.site = .hsFall ∧ t.byteIdx = 0 ∧ t.bitIdx = 0) := by
  cases h with
  | nextBit | nextByte => exact .inl rfl
  | hsFallOk _ _ _ _ site => exact .inr ⟨rfl, site, rfl, rfl⟩
  | _ => exact changed.elim (absurd rfl) (absurd rfl)

theorem ewT0_writers (h : StepCase s p t) (changed : t.ewT0 ≠ s.ewT0) : p = .ewEntry := by
  cases h with
  | stamped => rfl
  | _ => exact absurd rfl changed

theorem ewElapsed_writers (h : StepCase s p t) (changed : t.ewElapsed ≠ s.ewElapsed) :
    p = .ewPoll := by
  cases h with
  | hsRiseOk | hsFallOk | bitRiseOk | bitFallOk | waitTimeout | pollAgain => rfl
  | _ => exact absurd rfl changed

theorem site_writers (h : StepCase s p t) (changed : t.site ≠ s.site) :
    t.phase = Phase.ewEntry.code := by
  cases h with
  | rqDirInOk | hsRiseOk | hsFallOk | bitRiseOk | nextBit | nextByte => rfl
  | _ => exact absurd rfl changed

theorem status_writers (h : StepCase s p t) (changed : t.status ≠ s.status) :
    t.phase = Phase.idle.code ∧ t.done = true := by
  cases h with
  | dirFail | levelFail | initLvlOk | waitTimeout | checkFail | decoded => exact ⟨rfl, rfl⟩
  | _ => exact absurd rfl changed

/-- Acceptance clears `done` and `finish`, which no step of IDLE does, sets it (10_state R31). -/
theorem done_writers (h : StepCase s p t) (changed : t.done ≠ s.done) :
    if p = .idle then t.busy = true ∧ t.done = false else t.phase = Phase.idle.code ∧ t.done = true := by
  cases h with
  | acceptInit | acceptRead => exact ⟨rfl, rfl⟩
  | dirFail hp | levelFail hp =>
    rw [if_neg (by rintro rfl; cases hp)]
    exact ⟨rfl, rfl⟩
  | initLvlOk | waitTimeout | checkFail | decoded => exact ⟨rfl, rfl⟩
  | _ => exact absurd rfl changed

theorem reading_writers (h : StepCase s p t)
    (changed : t.rdHumidity ≠ s.rdHumidity ∨ t.rdTempNeg ≠ s.rdTempNeg ∨ t.rdTempMag ≠ s.rdTempMag) :
    p = .decode ∨ (p = .idle ∧ t.phase = Phase.rqDirOut.code) := by
  cases h with
  | decoded => exact .inl rfl
  | acceptRead => exact .inr ⟨rfl, rfl⟩
  | _ => obtain h | h | h := changed <;> exact absurd rfl h

theorem rdChecksum_writers (h : StepCase s p t) (changed : t.rdChecksum ≠ s.rdChecksum) :
    p = .check ∨ (p = .idle ∧ t.phase = Phase.rqDirOut.code) := by
  cases h with
  | checkPass | checkFail => exact .inl rfl
  | acceptRead => exact .inr ⟨rfl, rfl⟩
  | _ => exact absurd rfl changed

end StepCase

/-- Settles O49: register by register, from the cases of a step. -/
theorem registerWriters : Obligations.RegisterWriters := by
  intro s t p hr hp h
  have h := step_case hr hp h
  exact ⟨h.pin_writers, h.buf_writers, h.counter_writers, h.ewT0_writers, h.ewElapsed_writers,
    h.site_writers, h.status_writers, h.done_writers, h.reading_writers, h.rdChecksum_writers⟩

end Sys2Proof.Machine
end

section
/-! PROOFS. The derived register `rd_temperature` (10_state R34), the fetch (10_state R21) and the reset
state (10_state R40). -/

namespace Sys2Proof

/-- A 15-bit magnitude is its own value in 16-bit two's complement. -/
theorem toInt_zeroExtend_mag (mag : BitVec 15) : (mag.zeroExtend 16).toInt = mag.toNat := by
  have bound := mag.isLt
  exact (BitVec.toInt_setWidth mag).trans (Int.bmod_eq_of_le (by omega) (by omega))

/-- The sign applies to the magnitude as to a number: 16 bits hold both signs of 15. -/
theorem toInt_temperatureOf (neg : Bool) (mag : BitVec 15) :
    (temperatureOf neg mag).toInt = if neg then -(mag.toNat : Int) else mag.toNat := by
  have bound := mag.isLt
  cases neg with
  | false => exact toInt_zeroExtend_mag mag
  | true =>
    have negated : (-(mag.zeroExtend 16)).toInt = (-(mag.toNat : Int)).bmod (2 ^ 16) := by
      rw [BitVec.toInt_neg, toInt_zeroExtend_mag]
    exact negated.trans (Int.bmod_eq_of_le (by omega) (by omega))

namespace Machine

/-- Settles O33: a 15-bit magnitude lies in 0..32767, and the host sees the register itself. -/
theorem temperatureIsSignedMagnitude : Obligations.TemperatureIsSignedMagnitude := by
  intro s
  have bound := s.rdTempMag.isLt
  have value := toInt_temperatureOf s.rdTempNeg s.rdTempMag
  refine ⟨value, ?_, ?_, rfl⟩ <;> rw [State.rdTemperature, value] <;> split <;> omega

/-- Settles O3: the decoder's answer for the phase code is the fetched operation. -/
theorem stepRunsThePhase : Obligations.StepRunsThePhase := by
  intro s i hr hi
  obtain rfl : s.fetch = i := Decoded.instr.inj hi
  unfold step
  rw [hr]
  rfl

/-- Settles O4: the reset state written out. -/
theorem resetValues : Obligations.ResetValues := by
  unfold Obligations.ResetValues
  decide

/-- No READ runs after reset, so nothing is claimed of its registers. -/
theorem State.reset_inv : State.reset.Inv where
  phase_legal := Phase.idle.code_ne_reserved
  busy_not_done _ := rfl
  reading_zero := nofun
  checksum_zero := nofun
  decode_checked := nofun
  unstored_zero := nofun

/-- No command runs after reset, so nothing is claimed of the line. -/
theorem State.reset_lineInv : State.reset.LineInv where
  output := by decide
  low := by decide
  high := by decide
  input := by decide

/-- Settles O6: both invariants speak of the phases of a command, and reset is idle. -/
theorem resetMeetsInvariants : Obligations.ResetMeetsInvariants :=
  ⟨State.reset_inv, State.reset_lineInv⟩

end Machine

end Sys2Proof
end

section
/-! PROOFS. The step that holds a GPIO request performs it (20_memory R62): what it adds to the trace after
the request's own entry is nothing but a `FIN`. -/

namespace Sys2Proof.Machine

variable {s t u : State} {i : Instr}

/-! ### What follows a transaction in its step -/

/-- From `u` to `t` the trace grows by nothing but `FIN` entries. -/
def AddsOnlyFin (u t : State) : Prop :=
  ∃ fin, t.trace = u.trace ++ fin ∧ ∀ e ∈ fin, Event.isFin e = true

theorem AddsOnlyFin.of_trace_eq (same : t.trace = u.trace) : AddsOnlyFin u t :=
  ⟨[], by simp [same], nofun⟩

theorem AddsOnlyFin.finish (u : State) (st : Status) : AddsOnlyFin u (u.finish st) :=
  ⟨[.fin st], rfl, by simp [Event.isFin]⟩

/-- A GPIO step goes on from its transaction: an ending with GPIO_ERROR or a held request adds no more
than a `FIN`, so only the continuation matters (42_request_sequencer R137). -/
theorem gpioStep_addsOnlyFin {onOk : State → State} (cont : ∀ u, AddsOnlyFin u (onOk u))
    (tx : State × Option Answer) : AddsOnlyFin tx.1 (gpioStep tx onOk) := by
  obtain ⟨u, _ | _ | _⟩ := tx
  · exact .of_trace_eq rfl
  · exact cont u
  · exact .finish u .gpioError

/-- The return of a wait makes no entry. -/
theorem State.waitReturned_trace (s : State) : s.waitReturned.trace = s.trace := by
  unfold State.waitReturned
  cases s.site <;> rfl

/-- A poll judged ends the wait, times out or polls again. -/
theorem State.judgePoll_addsOnlyFin (s : State) (l : Level) : AddsOnlyFin s (s.judgePoll l) := by
  unfold State.judgePoll
  split
  · exact .of_trace_eq s.waitReturned_trace
  · split
    · exact .finish s .timeout
    · exact .of_trace_eq rfl

/-- A poll goes on from its `Sample` (41_edge_waiter R112). -/
theorem ewPollStep_addsOnlyFin (s : State) : AddsOnlyFin s.sample.1 (ewPollStep s) := by
  unfold ewPollStep
  obtain ⟨u, _ | ⟨l, t⟩⟩ := s.sample
  · exact .of_trace_eq rfl
  · exact State.judgePoll_addsOnlyFin { u with ewElapsed := elapsedSince u.ewT0 t } l

/-! ### An acknowledged transaction makes its entry -/

/-- One acknowledge answers every GPIO request, GET_LEVEL too (30_encoding R87). -/
theorem State.sampleAnswer_eq_none_iff (s : State) : s.sampleAnswer = none ↔ s.gpioAnswer = none := by
  cases h : s.inputs with
  | nil => simp [State.sampleAnswer, State.gpioAnswer, h]
  | cons r rest => simp [State.sampleAnswer_cons h, State.gpioAnswer_cons h]

theorem State.setDir_trace_of_answered (acked : s.gpioAnswer ≠ none) (d : Dir) :
    ∃ e, (s.setDir d).1.trace = s.trace ++ [e] := by
  obtain ⟨a, _, eq⟩ | ⟨held, _⟩ := s.setDir_cases d
  · exact ⟨.setDir s.pin d a, by simp [eq]⟩
  · exact absurd held acked

theorem State.setLevel_trace_of_answered (acked : s.gpioAnswer ≠ none) (l : Level) :
    ∃ e, (s.setLevel l).1.trace = s.trace ++ [e] := by
  obtain ⟨a, _, eq⟩ | ⟨held, _⟩ := s.setLevel_cases l
  · exact ⟨.setLvl s.pin l a, by simp [eq]⟩
  · exact absurd held acked

theorem State.sample_trace_of_answered (acked : s.gpioAnswer ≠ none) :
    ∃ e, s.sample.1.trace = s.trace ++ [e] := by
  obtain ⟨l, t, _, eq⟩ | ⟨held, _⟩ := s.sample_cases
  · exact ⟨.sample s.pin l t, by simp [eq]⟩
  · exact absurd (s.sampleAnswer_eq_none_iff.1 held) acked

/-! ### The step of a phase that holds a request -/

/-- No request is issued in a step with `rst = 1` (70_reset_and_hazards R240). -/
theorem State.rstAsserted_of_gpioRequest (h : s.gpioRequest = some i) : s.rstAsserted = false := by
  cases hr : s.rstAsserted with
  | false => rfl
  | true => simp [State.gpioRequest, hr] at h

/-- `t` performs the request `i` of `s`: the request alone makes its entry once it is acknowledged, and
from there `t` adds nothing but a `FIN`. -/
def PerformsRequest (s : State) (i : Instr) (t : State) : Prop :=
  ∃ tx, exec i s = .next tx ∧ (s.gpioAnswer ≠ none → ∃ e, tx.trace = s.trace ++ [e]) ∧
    AddsOnlyFin tx t

theorem gpioStep_setDir_performs {onOk : State → State} (cont : ∀ u, AddsOnlyFin u (onOk u))
    (d : Dir) :
    PerformsRequest s (.setDirection d) (gpioStep (s.setDir d) onOk) :=
  ⟨_, rfl, fun acked => State.setDir_trace_of_answered acked d, gpioStep_addsOnlyFin cont _⟩

theorem gpioStep_setLevel_performs {onOk : State → State} (cont : ∀ u, AddsOnlyFin u (onOk u))
    (l : Level) :
    PerformsRequest s (.setLevel l) (gpioStep (s.setLevel l) onOk) :=
  ⟨_, rfl, fun acked => State.setLevel_trace_of_answered acked l, gpioStep_addsOnlyFin cont _⟩

theorem ewPollStep_performs : PerformsRequest s (.getLevel 0#1) (ewPollStep s) :=
  ⟨_, rfl, State.sample_trace_of_answered, ewPollStep_addsOnlyFin s⟩

/-- The step of a phase performs the request that the phase holds (30_encoding R89). -/
theorem phaseStep_performs_gpioRequest {p : Phase} (hp : s.phase = p.code)
    (h : s.gpioRequest = some i) : PerformsRequest s i (phaseStep (some p) s) := by
  have goto : ∀ (q : Phase) (u : State), AddsOnlyFin u (u.goto q) := fun _ _ => .of_trace_eq rfl
  simp only [State.gpioRequest, State.rstAsserted_of_gpioRequest h, hp, Phase.ofCode_code] at h
  cases p <;> cases h
  case initDir | rqDirOut => exact gpioStep_setDir_performs (goto _) .output
  case rqDirIn =>
    exact gpioStep_setDir_performs (onOk := (·.startWait .hsRise)) (fun _ => .of_trace_eq rfl) .input
  case initLvl => exact gpioStep_setLevel_performs (fun u => .finish u .ok) .high
  case rqLow => exact gpioStep_setLevel_performs (goto _) .low
  case rqHigh => exact gpioStep_setLevel_performs (goto _) .high
  case ewPoll => exact ewPollStep_performs

/-- The reserved phase code holds no request (30_encoding R91). -/
theorem State.phase_of_gpioRequest (h : s.gpioRequest = some i) : ∃ p : Phase, s.phase = p.code := by
  obtain hp | hp := Phase.code_cases s.phase
  · exact hp
  · simp [State.gpioRequest, hp, Phase.ofCode] at h

/-- Settles O44: the step of the phase that holds the request goes on from the request's transaction,
which made one entry when it was acknowledged. -/
theorem stepPerformsItsRequest : Obligations.StepPerformsItsRequest := by
  intro s i h acked
  obtain ⟨p, hp⟩ := State.phase_of_gpioRequest h
  obtain ⟨tx, performed, entry, fin, grown, onlyFin⟩ := phaseStep_performs_gpioRequest hp h
  obtain ⟨e, made⟩ := entry acked
  have stepped : step s = .next (phaseStep (some p) s) := by
    rw [step_eq_seqStep, seqStep_of_phase hp (State.rstAsserted_of_gpioRequest h)]
  exact ⟨_, tx, e, fin, stepped, performed, made, grown, onlyFin⟩

end Sys2Proof.Machine
end

section
/-! PROOFS. The decoder and the encoder agree (30_encoding R82, R84, R87, R89, R90), format by format. -/

namespace Sys2Proof

/-- The four two-bit codes (30_encoding R82, R84, R87, R90). -/
theorem code2_cases (c : BitVec 2) : c = 0b00#2 ∨ c = 0b01#2 ∨ c = 0b10#2 ∨ c = 0b11#2 := by
  revert c; decide

/-- `c` is the code of the well-formed operation `i`, but for an ignored operand. -/
def Code.Encodes (c : Code) (i : Instr) : Prop := i.wellFormed = true ∧ encode i = c.withoutIgnored

theorem decodeCmd_encodes (op : BitVec 2) (pin : Pin) : (Code.cmd op pin).Encodes (decodeCmd op pin) := by
  obtain rfl | rfl | rfl | rfl := code2_cases op <;> exact ⟨rfl, rfl⟩

/-- Format OP: each row of the table that answers is named by the entry values it tests. -/
theorem decodeOp_encodes {p : BitVec 4} {w : Option (BitVec 2)} {idx : Option (BitVec 3 × BitVec 3)}
    {i : Instr} (h : decodeOp p w idx = .instr i) : (Code.op p w idx).Encodes i := by
  unfold decodeOp at h
  split_ifs at h with row row row row row row row <;> cases h <;> obtain ⟨rfl, rfl, rfl⟩ := row <;>
    exact ⟨rfl, rfl⟩

theorem decodePhase_encodes (c : BitVec 4) : (Code.phase c).Encodes (decodePhase c) := by
  obtain ⟨p, rfl⟩ | rfl := Phase.code_cases c
  · cases p <;> exact ⟨rfl, rfl⟩
  · exact ⟨rfl, rfl⟩

theorem decodeSite_encodes (c : BitVec 2) : (Code.site c).Encodes (decodeSite c) := by
  obtain rfl | rfl | rfl | rfl := code2_cases c <;> exact ⟨rfl, rfl⟩

theorem decodeStatus_encodes (c : BitVec 2) : (Code.status c).Encodes (decodeStatus c) := by
  obtain rfl | rfl | rfl | rfl := code2_cases c <;> exact ⟨rfl, rfl⟩

@[simp] theorem Level.code_ofCode (b : BitVec 1) : (Level.ofCode b).code = b := by
  revert b; decide

@[simp] theorem Dir.code_ofCode (b : BitVec 1) : (Dir.ofCode b).code = b := by
  revert b; decide

/-- Format GPIO: the argument is the level's or the direction's own code, and GET_LEVEL's is 0. -/
theorem decodeGpio_encodes {op : BitVec 2} {arg : BitVec 1} {i : Instr}
    (h : decodeGpio op arg = .instr i) : (Code.gpio op arg).Encodes i := by
  obtain rfl | rfl | rfl | rfl := code2_cases op
  · by_cases zero : arg = 0#1
    · subst zero; cases h; exact ⟨rfl, rfl⟩
    · simp [decodeGpio, zero] at h
  · cases h; exact ⟨rfl, congrArg (Code.gpio 0b01#2) (Level.code_ofCode arg)⟩
  · cases h; exact ⟨rfl, congrArg (Code.gpio 0b10#2) (Dir.code_ofCode arg)⟩
  · cases h; exact ⟨rfl, rfl⟩

/-- A code that decodes is the code of what it decodes to. -/
theorem decode_encodes {c : Code} {i : Instr} (h : decode c = .instr i) : c.Encodes i := by
  cases c with
  | cmd op pin => cases h; exact decodeCmd_encodes op pin
  | op p w idx => exact decodeOp_encodes h
  | phase c => cases h; exact decodePhase_encodes c
  | site c => cases h; exact decodeSite_encodes c
  | gpio op arg => exact decodeGpio_encodes h
  | status c => cases h; exact decodeStatus_encodes c

/-- The decoder gives a well-formed operation back: GET_LEVEL is the one whose argument is restricted. -/
theorem decode_encode {i : Instr} (wf : i.wellFormed = true) : decode (encode i) = .instr i := by
  cases i with
  | getLevel arg => obtain rfl : arg = 0#1 := by simpa [Instr.wellFormed] using wf
                    rfl
  | setLevel level => cases level <;> rfl
  | setDirection dir => cases dir <;> rfl
  | _ => rfl

/-- Settles O1: by cases of the operation one way, by the code's format the other. -/
theorem decodeInvertsEncode : Obligations.DecodeInvertsEncode :=
  ⟨fun _ => decode_encode, fun _ _ => decode_encodes⟩

/-- Settles O2: the codes written out are the tables' rows. -/
theorem writtenCodesDecode : Obligations.WrittenCodesDecode := by
  refine ⟨fun p => ⟨rfl, rfl, rfl, rfl⟩, ?_⟩
  decide

end Sys2Proof
end

section
/-! PROOFS. Every step keeps the invariant of the registers: an idle state meets it, and a step inside a
command either leaves result and frame alone or is one of READ's own writes. -/

namespace Sys2Proof.Machine

variable {s t : State} {p q : Phase}

/-! ### The bits of the frame -/

/-- The mask has one bit, at place `7 - bit_idx` (44_bit_decoder R153). -/
theorem getLsbD_bitMask (bit : Bool) (i k : Fin 8) :
    (bitMask bit i).getLsbD k.val = (bit && decide (k.val = 7 - i.val)) := by
  revert bit i k; decide

/-- The store ORs the bit with arrival index `8 * byte_idx + bit_idx` and leaves the others
(44_bit_decoder R153, 30_encoding R92). -/
theorem frameBit_orBit (s : State) (bit : Bool) (n : Fin 40) :
    frameBit (s.orBit bit).buf n =
      if n.val = 8 * s.byteIdx.val + s.bitIdx.val then frameBit s.buf n || bit else frameBit s.buf n := by
  have place := getLsbD_bitMask bit s.bitIdx ⟨7 - n.val % 8, by omega⟩
  have bound := s.bitIdx.isLt
  simp only [frameBit, State.orBit_buf, Vector.getElem_set]
  by_cases byte : s.byteIdx.val = n.val / 8
  · have stored : s.buf[s.byteIdx] = s.buf[n.val / 8] := by simp [byte]
    rw [if_pos byte, BitVec.getLsbD_or, stored, place]
    by_cases index : n.val = 8 * s.byteIdx.val + s.bitIdx.val
    · simp [index, show s.bitIdx.val % 8 = s.bitIdx.val by omega]
    · simp [index, show ¬ 7 - n.val % 8 = 7 - s.bitIdx.val by omega]
  · rw [if_neg byte, if_neg (by omega)]

theorem frameBit_zero (n : Fin 40) : frameBit #v[0#8, 0#8, 0#8, 0#8, 0#8] n = false := by
  revert n; decide

/-! ### States that meet the invariant -/

/-- In IDLE the invariant claims nothing. -/
theorem State.Inv.of_idle (idle : t.phase = Phase.idle.code) : t.Inv := by
  have notBusy : t.busy = true → False := by simp [State.busy_iff idle]
  have notRead : t.inRead = true → False := by simp [State.inRead_iff idle]
  exact {
    phase_legal := idle ▸ Phase.idle.code_ne_reserved
    busy_not_done := fun h => (notBusy h).elim
    reading_zero := fun h => (notRead h).elim
    checksum_zero := fun h => (notRead h).elim
    decode_checked := fun h => by simp [idle] at h
    unstored_zero := fun h => (notRead h).elim }

/-- The registers besides the place in the sequence that the invariant speaks of. -/
def State.resultRegs (s : State) : Bool × BitVec 16 × Bool × BitVec 15 × Byte × Vector Byte 5 :=
  (s.done, s.rdHumidity, s.rdTempNeg, s.rdTempMag, s.rdChecksum, s.buf)

/-- Acceptance clears `done`, and READ's zeroes the reading and the buffer (48_commands R190, R192). -/
theorem State.acceptRead_tick_inv (s : State) (pin : Pin) : (s.acceptRead pin).tick.Inv where
  phase_legal := Phase.rqDirOut.code_ne_reserved
  busy_not_done _ := rfl
  reading_zero _ := ⟨rfl, rfl, rfl⟩
  checksum_zero _ _ := rfl
  decode_checked := nofun
  unstored_zero _ n _ := frameBit_zero n

theorem State.acceptInit_tick_inv (s : State) (pin : Pin) : (s.acceptInit pin).tick.Inv where
  phase_legal := Phase.initDir.code_ne_reserved
  busy_not_done _ := rfl
  reading_zero := nofun
  checksum_zero := nofun
  decode_checked := nofun
  unstored_zero := nofun

namespace State.Inv

/-- What a step of a command keeps while it writes no result: of the two phases READ's come after READ's,
neither is DECODE, and no bit counted as stored is forgotten. -/
theorem advance (inv : s.Inv) (hp : s.phase = p.code) (hq : t.phase = q.code)
    (phases : p ≠ .idle ∧ q ≠ .decode ∧ p ≠ .decode ∧
      (q ∉ [.idle, .initDir, .initLvl] → p ∉ [.idle, .initDir, .initLvl]))
    (same : t.resultRegs = s.resultRegs) (stored : s.bitsStored ≤ t.bitsStored) : t.Inv := by
  obtain ⟨busy, qNotDecode, pNotDecode, read⟩ := phases
  simp only [State.resultRegs, Prod.mk.injEq] at same
  obtain ⟨done, humidity, neg, mag, checksum, buf⟩ := same
  have read : t.inRead = true → s.inRead = true := by
    rw [State.inRead_iff hp, State.inRead_iff hq]; exact read
  exact {
    phase_legal := hq ▸ q.code_ne_reserved
    busy_not_done := fun _ => done ▸ inv.busy_not_done ((State.busy_iff hp).2 busy)
    reading_zero := fun h => humidity ▸ neg ▸ mag ▸ inv.reading_zero (read h)
    checksum_zero := fun h _ => checksum ▸ inv.checksum_zero (read h) (by simpa [hp] using pNotDecode)
    decode_checked := fun h => absurd h (by simpa [hq] using qNotDecode)
    unstored_zero := fun h n hn => buf ▸ inv.unstored_zero (read h) n (stored.trans hn) }

/-- The invariant says nothing of the port records. -/
theorem tick (inv : s.Inv) : s.tick.Inv where
  phase_legal := inv.phase_legal
  busy_not_done := inv.busy_not_done
  reading_zero := inv.reading_zero
  checksum_zero := inv.checksum_zero
  decode_checked := inv.decode_checked
  unstored_zero := inv.unstored_zero

/-- BIT_STORE writes the one bit that counts as stored from then on (45_frame_assembler R162). -/
theorem bitStored (inv : s.Inv) (hp : s.phase = Phase.bitStore.code) (bit : Bool) :
    ((s.orBit bit).goto .faSettle).tick.Inv := by
  have busy : s.busy = true := by simp [State.busy_iff hp]
  have read : s.inRead = true := by simp [State.inRead_iff hp]
  exact {
    phase_legal := Phase.faSettle.code_ne_reserved
    busy_not_done := fun _ => inv.busy_not_done busy
    reading_zero := fun _ => inv.reading_zero read
    checksum_zero := fun _ _ => inv.checksum_zero read (by simp [hp])
    decode_checked := nofun
    unstored_zero := fun _ n later => by
      have index : 8 * s.byteIdx.val + s.bitIdx.val + 1 ≤ n.val := by
        simpa [State.bitsStored] using later
      refine (frameBit_orBit s bit n).trans ?_
      rw [if_neg (by omega)]
      exact inv.unstored_zero read n (by simp [State.bitsStored, hp]; omega) }

/-- A passing CHECK latches the byte it has compared (46_checksum_validator R173, 47 R186). -/
theorem checkPassed (inv : s.Inv) (hp : s.phase = Phase.check.code)
    (valid : checksumValid s.buf = true) : ({ s with rdChecksum := s.buf[4] }.tick.goto .decode).Inv := by
  have busy : s.busy = true := by simp [State.busy_iff hp]
  have read : s.inRead = true := by simp [State.inRead_iff hp]
  exact {
    phase_legal := Phase.decode.code_ne_reserved
    busy_not_done := fun _ => inv.busy_not_done busy
    reading_zero := fun _ => inv.reading_zero read
    checksum_zero := fun _ notDecode => absurd rfl notDecode
    decode_checked := fun _ => ⟨valid, rfl⟩
    unstored_zero := fun _ n later => by
      have : 40 ≤ n.val := by simpa [State.bitsStored] using later
      omega }

end State.Inv

/-- Each case of a step keeps the invariant: an ending by being idle, a stay or a move inside a command by
`State.Inv.advance`. -/
theorem StepCase.keepsInv (inv : s.Inv) (hp : s.phase = p.code) (c : StepCase s p t) : t.Inv := by
  cases c with
  | acceptInit pin => exact s.acceptInit_tick_inv pin
  | acceptRead pin => exact s.acceptRead_tick_inv pin
  | stayIdle | held => exact inv.tick
  | dirFail | levelFail | initLvlOk | waitTimeout | checkFail | decoded => exact .of_idle rfl
  | stored => exact inv.bitStored hp _
  | checkPass valid => exact inv.checkPassed hp valid
  | pollAgain => exact inv.advance (q := .ewPoll) hp hp (by decide) rfl le_rfl
  | stamped | initDirOk | rqDirOutOk | rqLowOk | rqDlyLowOver | rqHighOk | rqDlyHighOver =>
    exact inv.advance hp (State.goto_phase _ _) (by decide) rfl (by simp [State.bitsStored, hp])
  | rqDirInOk => exact inv.advance hp (State.startWait_phase _ _) (by decide) rfl (by simp [State.bitsStored, hp])
  | hsRiseOk _ _ _ _ site | hsFallOk _ _ _ _ site | bitRiseOk _ _ _ _ site =>
    exact inv.advance hp (State.startWait_phase _ _) (by decide) rfl (by simp [State.bitsStored, hp, site])
  | bitFallOk _ _ _ _ site =>
    exact inv.advance hp (State.goto_phase _ _) (by decide) rfl (by simp [State.bitsStored, hp, site])
  | nextBit =>
    exact inv.advance hp (State.startWait_phase _ _) (by decide) rfl (by simp [State.bitsStored, hp, add_assoc])
  | nextByte _ bit =>
    exact inv.advance hp (State.startWait_phase _ _) (by decide) rfl
      (by simp [State.bitsStored, hp, bit, mul_add])
  | frameComplete _ bit byte =>
    exact inv.advance hp (State.goto_phase _ _) (by decide) rfl (by simp [State.bitsStored, hp, bit, byte])

/-- Settles O50: a reset leads to IDLE, the reserved code cannot stand in `phase`, and every other step is
a case of its phase. -/
theorem stepKeepsInvariant : Obligations.StepKeepsInvariant := by
  intro s t inv h
  obtain ⟨_, rfl⟩ | ⟨_, p, hp, c⟩ | ⟨_, reserved, _⟩ := step_cases h
  · exact .of_idle rfl
  · exact c.keepsInv inv hp
  · exact absurd reserved inv.phase_legal

end Sys2Proof.Machine
end

section
/-! PROOFS. What the expansions of 30_encoding R97 rest on: the run of an operation passes from one component
operation to the next, and where a component does not hand over, the whole run is over too. -/

namespace Sys2Proof.Machine

variable {s : State} {o : Out} {i : Instr} {outer ran inOp inner entry next test : State → Bool}

/-! ### A run that passes from operation to operation -/

/-- Steps of `inOp` lead on in it, to a state that `next` holds of, or to the end of the command. -/
def PassesTo (inOp next : State → Bool) : Prop :=
  ∀ u, inOp u = true →
    inOp (seqStep u) = true ∨ next (seqStep u) = true ∨ (seqStep u).phase = Phase.idle.code

/-- Where `entry` holds, `i` is the run of the steps of `inOp` from there. -/
def StartsAt (entry inOp : State → Bool) (i : Instr) : Prop :=
  ∀ u, entry u = true → inOp u = true ∧ exec i u = .next (runOp inOp u)

/-- The answer `o` is a state on the run of `outer` from `s`: one that `entry` holds of, or the last of the
run, in which `ran` waits for an answer that does not come or the command has ended. -/
def HandsOver (outer ran entry : State → Bool) (s : State) (o : Out) : Prop :=
  ∃ v, o = .next v ∧ runOp outer v = runOp outer s ∧ v.inputs <:+ s.inputs ∧
    (entry v = true ∨ (ran v = true ∧ v.settled) ∨ v.phase = Phase.idle.code)

/-- A run leaves the later port records to come. -/
theorem runOp_inputs_suffix (inOp : State → Bool) (s : State) : (runOp inOp s).inputs <:+ s.inputs := by
  have keeps : ∀ u : State, decide (u.inputs <:+ s.inputs) = true →
      decide ((seqStep u).inputs <:+ s.inputs) = true := by
    simp only [decide_eq_true_eq, seqStep_inputs]
    exact fun u h => (List.tail_suffix _).trans h
  simpa using runOp_keeps (inOp := inOp) keeps (s := s) (by simp)

/-- The end of a run, by `PassesTo`. -/
theorem PassesTo.ends (passes : PassesTo inOp next) (start : inOp s = true) :
    next (runOp inOp s) = true ∨ (inOp (runOp inOp s) = true ∧ (runOp inOp s).settled) ∨
      (runOp inOp s).phase = Phase.idle.code := by
  obtain waits | left := runOp_ends (Q := fun u => next u || u.phase == Phase.idle.code)
    (fun u hu => by simpa using passes u hu) start
  · exact .inr (.inl waits)
  · simp only [Bool.or_eq_true, beq_iff_eq] at left
    exact left.imp_right .inr

/-- The first operation of a run. -/
theorem HandsOver.initial (within : ∀ u, inner u = true → outer u = true) (starts : StartsAt entry inner i)
    (passes : PassesTo inner next) (start : entry s = true) : HandsOver outer inner next s (exec i s) := by
  obtain ⟨running, meaning⟩ := starts s start
  exact ⟨_, meaning, (runOp_through within s).symm, runOp_inputs_suffix inner s, passes.ends running⟩

namespace HandsOver

/-- The next operation of a run, where it is reached. -/
theorem andThen (h : HandsOver outer ran entry s o) (within : ∀ u, inner u = true → outer u = true)
    (starts : StartsAt entry inner i) (passes : PassesTo inner next) :
    HandsOver outer (fun u => ran u || inner u) next s (thenIf entry i o) := by
  obtain ⟨v, rfl, run, later, reached⟩ := h
  cases atEntry : entry v with
  | true =>
    obtain ⟨w, meaning, run', later', reached'⟩ := initial within starts passes atEntry
    refine ⟨w, by simp [thenIf, atEntry, meaning], run'.trans run, later'.trans later, ?_⟩
    exact reached'.imp_right (.imp_left fun ⟨waits, settled⟩ => ⟨by simp [waits], settled⟩)
  | false =>
    refine ⟨v, by simp [thenIf, atEntry], run, later, .inr ?_⟩
    exact (reached.resolve_left (by simp [atEntry])).imp_left fun ⟨waits, settled⟩ =>
      ⟨by simp [waits], settled⟩

/-- A weaker test decides the same, where the run waits nowhere that it holds. -/
theorem thenIf_eq (h : HandsOver outer ran entry s o) (weaker : ∀ v, entry v = true → test v = true)
    (apart : ∀ v, ran v = true ∨ v.phase = Phase.idle.code → test v = false) (i : Instr) :
    thenIf test i o = thenIf entry i o := by
  obtain ⟨v, rfl, -, -, reached⟩ := h
  suffices test v = entry v by simp only [thenIf, this]
  cases atEntry : entry v with
  | true => exact weaker v atEntry
  | false => exact apart v ((reached.resolve_left (by simp [atEntry])).imp_left And.left)

/-- Where a component waits for ever or the command has ended, the whole run is over. -/
theorem runOp_of_over {v : State} (idle : ∀ v : State, v.phase = Phase.idle.code → outer v = false)
    (h : (ran v = true ∧ v.settled) ∨ v.phase = Phase.idle.code) : runOp outer v = v :=
  h.elim (fun waits => runOp_settled waits.2) fun ended => runOp_stop (idle v ended)

/-- After the last operation the whole run is over. -/
theorem eq_run (h : HandsOver outer ran entry s o) (left : ∀ v, entry v = true → outer v = false)
    (idle : ∀ v : State, v.phase = Phase.idle.code → outer v = false) : o = .next (runOp outer s) := by
  obtain ⟨v, rfl, run, -, reached⟩ := h
  have last : runOp outer v = v := reached.elim (fun h => runOp_stop (left v h)) (runOp_of_over idle)
  rw [← run, last]

end HandsOver

/-! ### Where each operation starts and where its steps lead -/

/-- Where the steps of a phase lead is where its cases lead: a reset leads to IDLE. -/
theorem leads_of_cases {p : Phase} (hp : s.phase = p.code)
    (cases : ∀ t, StepCase s p t → inOp t = true ∨ next t = true ∨ t.phase = Phase.idle.code) :
    inOp (seqStep s) = true ∨ next (seqStep s) = true ∨ (seqStep s).phase = Phase.idle.code := by
  cases hr : s.rstAsserted with
  | true => rw [seqStep_of_rst hr]; exact .inr (.inr rfl)
  | false => rw [seqStep_of_phase hp hr]; exact cases _ (phaseStep_case p s)

theorem atEntry_iff {w : Site} : atEntry w s = true ↔ s.phase = Phase.ewEntry.code ∧ s.site = w := by
  simp [atEntry]

theorem inPhase_iff {p : Phase} : inPhase p s = true ↔ s.phase = p.code := by
  simp [inPhase]

theorem inWait_iff {w : Site} : inWait w s = true ↔
    s.site = w ∧ (s.phase = Phase.ewEntry.code ∨ s.phase = Phase.ewPoll.code) := by
  simp [inWait]

/-- Where a wait at site `w` returns to (41_edge_waiter R120). -/
def returnedFrom : Site → State → Bool
  | .hsRise => atEntry .hsFall
  | .hsFall => fun u => atEntry .bitRise u && (u.byteIdx == 0 && u.bitIdx == 0)
  | .bitRise => atEntry .bitFall
  | .bitFall => inPhase .bitStore

/-- A wait polls on, returns by its site, or times out. -/
theorem inWait_passesTo (w : Site) : PassesTo (inWait w) (returnedFrom w) := by
  intro u h
  obtain ⟨rfl, hp | hp⟩ := inWait_iff.1 h <;> refine leads_of_cases hp fun t c => ?_
  · cases c with
    | held | stamped => left; simp [inWait, hp]
    | dirFail | levelFail => exact .inr (.inr rfl)
  · cases c with
    | held | pollAgain => left; simp [inWait, hp]
    | hsRiseOk _ _ _ _ site | hsFallOk _ _ _ _ site | bitRiseOk _ _ _ _ site
    | bitFallOk _ _ _ _ site => right; left; rw [site]; rfl
    | waitTimeout | dirFail | levelFail => exact .inr (.inr rfl)

/-- REQUEST_READINGS is running in its six phases (42_request_sequencer R130). -/
theorem inRequest_iff : inRequest s = true ↔
    ∃ p ∈ [Phase.rqDirOut, .rqLow, .rqDlyLow, .rqHigh, .rqDlyHigh, .rqDirIn], s.phase = p.code := by
  simp [inRequest, or_assoc]

/-- REQUEST_READINGS hands over to the wait HS_RISE (42_request_sequencer R136). -/
theorem inRequest_passesTo : PassesTo inRequest (atEntry .hsRise) := by
  intro u h
  obtain ⟨p, request, hp⟩ := inRequest_iff.1 h
  refine leads_of_cases hp fun t c => ?_
  cases c with
  | held => exact .inl h
  | rqDirOutOk | rqLowOk | rqDlyLowOver | rqHighOk | rqDlyHighOver => exact .inl rfl
  | rqDirInOk => exact .inr (.inl rfl)
  | dirFail | levelFail => exact .inr (.inr rfl)
  | _ => simp at request

/-- Where an operation of one phase leads. -/
theorem inPhase_passesTo {p : Phase}
    (cases : ∀ u t, inPhase p u = true → StepCase u p t →
      inPhase p t = true ∨ next t = true ∨ t.phase = Phase.idle.code) : PassesTo (inPhase p) next :=
  fun u h => leads_of_cases (inPhase_iff.1 h) fun t => cases u t h

theorem bitStore_passesTo : PassesTo (inPhase .bitStore) (inPhase .faSettle) := by
  refine inPhase_passesTo fun u t h c => ?_
  cases c with
  | held unanswered => exact unanswered.elim
  | stored => exact .inr (.inl rfl)
  | dirFail | levelFail => exact .inr (.inr rfl)

/-- FA_SETTLE goes on with the next bit or with CHECK (45_frame_assembler R163). -/
theorem faSettle_passesTo :
    PassesTo (inPhase .faSettle) (fun u => atEntry .bitRise u || inPhase .check u) := by
  refine inPhase_passesTo fun u t h c => ?_
  cases c with
  | held => exact .inl h
  | nextBit | nextByte | frameComplete => exact .inr (.inl rfl)
  | dirFail | levelFail => exact .inr (.inr rfl)

theorem check_passesTo : PassesTo (inPhase .check) (inPhase .decode) := by
  refine inPhase_passesTo fun u t h c => ?_
  cases c with
  | held unanswered => exact unanswered.elim
  | checkPass => exact .inr (.inl rfl)
  | checkFail | dirFail | levelFail => exact .inr (.inr rfl)

/-- DECODE ends the command (47_reading_decoder R186). -/
theorem decode_passesTo : PassesTo (inPhase .decode) (fun _ => false) := by
  refine inPhase_passesTo fun u t h c => ?_
  cases c with
  | held unanswered => exact unanswered.elim
  | decoded | dirFail | levelFail => exact .inr (.inr rfl)

/-- Two operations one after the other. -/
theorem PassesTo.andThen {next' : State → Bool} (first : PassesTo inOp next) (second : PassesTo inner next')
    (enters : ∀ u, next u = true → inner u = true) : PassesTo (fun u => inOp u || inner u) next' := by
  intro u h
  simp only [Bool.or_eq_true] at h ⊢
  obtain h | h := h
  · obtain stays | leaves | ended := first u h
    · exact .inl (.inl stays)
    · exact .inl (.inr (enters _ leaves))
    · exact .inr (.inr ended)
  · exact (second u h).imp_left .inr

theorem inWait_of_atEntry {w : Site} (h : atEntry w s = true) : inWait w s = true := by
  obtain ⟨hp, site⟩ := atEntry_iff.1 h
  exact inWait_iff.2 ⟨site, .inl hp⟩

theorem inHandshake_passesTo : PassesTo inHandshake (returnedFrom .hsFall) :=
  (inWait_passesTo .hsRise).andThen (inWait_passesTo .hsFall) fun _ => inWait_of_atEntry

theorem inBit_passesTo : PassesTo inBit (inPhase .faSettle) :=
  ((inWait_passesTo .bitRise).andThen (inWait_passesTo .bitFall) fun _ => inWait_of_atEntry).andThen
    bitStore_passesTo fun _ => id

/-- ASSEMBLE_FRAME reads bit after bit until CHECK (45_frame_assembler R160). -/
theorem inFrame_passesTo : PassesTo inFrame (inPhase .check) := by
  intro u h
  obtain stays | next | ended := inBit_passesTo.andThen faSettle_passesTo (fun _ => id) u h
  · exact .inl stays
  · obtain bit | check := Bool.or_eq_true_iff.1 next
    · exact .inl (by simp [inFrame, inBit, inWait_of_atEntry bit])
    · exact .inr (.inl check)
  · exact .inr (.inr ended)

/-! ### An operation begun at its own entry -/

theorem startWait_of_atEntry {w : Site} (h : atEntry w s = true) : s.startWait w = s := by
  obtain ⟨hp, rfl⟩ := atEntry_iff.1 h
  simp [State.startWait, ← hp]

theorem goto_of_inPhase {p : Phase} (h : inPhase p s = true) : s.goto p = s := by
  simp [State.goto, ← inPhase_iff.1 h]

/-- An operation sets its entry (log 7), which changes nothing where the run has reached it. -/
theorem StartsAt.of_fixed {enter : State → State} (meaning : ∀ u, exec i u = .next (runOp inOp (enter u)))
    (fixed : ∀ u, entry u = true → enter u = u) (running : ∀ u, entry u = true → inOp u = true) :
    StartsAt entry inOp i :=
  fun u h => ⟨running u h, by rw [meaning, fixed u h]⟩

theorem wait_startsAt {w : Site} (meaning : ∀ u, exec i u = .next (runWait w u)) :
    StartsAt (atEntry w) (inWait w) i :=
  .of_fixed meaning (fun _ => startWait_of_atEntry) fun _ => inWait_of_atEntry

theorem requestReadings_startsAt : StartsAt (inPhase .rqDirOut) inRequest .requestReadings :=
  .of_fixed (fun _ => rfl) (fun _ => goto_of_inPhase) fun _ h =>
    inRequest_iff.2 ⟨.rqDirOut, by simp, inPhase_iff.1 h⟩

theorem awaitData_startsAt : StartsAt (atEntry .hsRise) inHandshake .awaitData :=
  .of_fixed (fun _ => rfl) (fun _ => startWait_of_atEntry) fun _ h => by
    simp [inHandshake, inWait_of_atEntry h]

/-- ASSEMBLE_FRAME begins with both counters 0, as the wait HS_FALL leaves them (43_handshake_detector
R142). -/
theorem assembleFrame_startsAt : StartsAt (returnedFrom .hsFall) inFrame .assembleFrame := by
  refine .of_fixed (fun _ => rfl) (fun u h => ?_) fun u h => ?_ <;>
    simp only [returnedFrom, Bool.and_eq_true, beq_iff_eq] at h <;> obtain ⟨wait, byte, bit⟩ := h
  · rw [← byte, ← bit]; exact startWait_of_atEntry wait
  · simp [inFrame, inBit, inWait_of_atEntry wait]

theorem validateChecksum_startsAt : StartsAt (inPhase .check) (inPhase .check) .validateChecksum :=
  .of_fixed (fun _ => rfl) (fun _ => goto_of_inPhase) fun _ => id

theorem decodeReading_startsAt : StartsAt (inPhase .decode) (inPhase .decode) .decodeReading :=
  .of_fixed (fun _ => rfl) (fun _ => goto_of_inPhase) fun _ => id

end Sys2Proof.Machine
end

section
/-! PROOFS. The three expansions themselves: AWAIT_DATA, READ_BIT and READ (30_encoding R97). -/

namespace Sys2Proof.Machine

variable {s : State} {o : Out} {ran : State → Bool}

/-! ### AWAIT_DATA and READ_BIT -/

/-- Settles O24: after the second wait the handshake is over. -/
theorem awaitDataExpands : Obligations.AwaitDataExpands := by
  intro s
  have rise : HandsOver inHandshake _ _ (s.startWait .hsRise) (exec .hsRise (s.startWait .hsRise)) :=
    .initial (fun u h => by simp [inHandshake, h]) (wait_startsAt fun _ => rfl) (inWait_passesTo .hsRise)
      (atEntry_iff.2 ⟨rfl, rfl⟩)
  have fall := rise.andThen (fun u h => by simp [inHandshake, h]) (wait_startsAt (i := .hsFall) fun _ => rfl)
    (inWait_passesTo .hsFall)
  refine (fall.eq_run (fun v returned => ?_) fun v idle => ?_).symm
  · simp only [returnedFrom, Bool.and_eq_true, atEntry_iff] at returned
    simp [inHandshake, inWait, returned]
  · simp [inHandshake, inWait, idle]

theorem rstAsserted_of_noReset (h : NoReset s.inputs) : s.rstAsserted = false := by
  cases hi : s.inputs with
  | nil => exact State.rstAsserted_nil hi
  | cons r rest => exact (State.rstAsserted_cons hi).trans (h r (by simp [hi]))

theorem inBit_of_bitStore (h : inPhase .bitStore s = true) : inBit s = true :=
  Bool.or_eq_true_iff.2 (.inr h)

theorem not_inBit_of_idle (s : State) (idle : s.phase = Phase.idle.code) : inBit s = false := by
  simp [inBit, inWait, idle]

/-- BIT_STORE ends READ_BIT, in a step without reset (log 9: its row does not look at `rst`). -/
theorem HandsOver.andBitStore (h : HandsOver inBit ran (inPhase .bitStore) s o) (noReset : NoReset s.inputs) :
    thenIf (inPhase .bitStore) .bitStore o = .next (runOp inBit s) := by
  obtain ⟨v, rfl, run, later, reached⟩ := h
  rw [← run]
  cases store : inPhase .bitStore v with
  | true =>
    have hr : v.rstAsserted = false := rstAsserted_of_noReset fun r hr => noReset r (later.subset hr)
    have stored : seqStep v = bitStoreStep v := seqStep_of_phase (inPhase_iff.1 store) hr
    have left : inBit (bitStoreStep v) = false := by simp [inBit, inWait, bitStoreStep]
    rw [runOp_unfold (inBit_of_bitStore store), stored, runOp_stop left]
    simp [thenIf, store, exec, execBitStore]
  | false =>
    have last := HandsOver.runOp_of_over not_inBit_of_idle (reached.resolve_left (by simp [store]))
    simp [thenIf, store, last]

/-- Settles O28: two waits lead to BIT_STORE or end the command. -/
theorem readBitExpands : Obligations.ReadBitExpands := by
  intro s noReset
  have rise : HandsOver inBit _ _ (s.startWait .bitRise) (exec .bitRise (s.startWait .bitRise)) :=
    .initial (fun u h => by simp [inBit, h]) (wait_startsAt fun _ => rfl) (inWait_passesTo .bitRise)
      (atEntry_iff.2 ⟨rfl, rfl⟩)
  have fall := rise.andThen (fun u h => by simp [inBit, h]) (wait_startsAt (i := .bitFall) fun _ => rfl)
    (inWait_passesTo .bitFall)
  exact (fall.andBitStore noReset).symm

/-! ### READ -/

theorem busy_of_inPhase {p : Phase} (notIdle : p ≠ .idle) (h : inPhase p s = true) : s.busy = true :=
  (State.busy_iff (inPhase_iff.1 h)).2 notIdle

theorem busy_of_inRequest (h : inRequest s = true) : s.busy = true := by
  obtain ⟨p, request, hp⟩ := inRequest_iff.1 h
  exact (State.busy_iff hp).2 (by rintro rfl; simp at request)

theorem busy_of_inWait {w : Site} (h : inWait w s = true) : s.busy = true := by
  obtain ⟨-, hp | hp⟩ := inWait_iff.1 h <;> simp [State.busy_iff hp]

theorem busy_of_inHandshake (h : inHandshake s = true) : s.busy = true :=
  (Bool.or_eq_true_iff.1 h).elim busy_of_inWait busy_of_inWait

theorem busy_of_inFrame (h : inFrame s = true) : s.busy = true := by
  simp only [inFrame, inBit, Bool.or_eq_true] at h
  obtain ((rise | fall) | store) | settle := h
  · exact busy_of_inWait rise
  · exact busy_of_inWait fall
  · exact busy_of_inPhase (by decide) store
  · exact busy_of_inPhase (by decide) settle

/-- A block that is not busy takes the step IDLE, in the reserved phase too (30_encoding R91). -/
theorem seqStep_of_not_busy (free : s.busy = false) (hr : s.rstAsserted = false) : seqStep s = idleStep s := by
  obtain ⟨p, hp⟩ | hp := Phase.code_cases s.phase
  · obtain rfl : p = .idle := by
      by_contra notIdle
      simp [(State.busy_iff hp).2 notIdle] at free
    exact seqStep_of_phase hp hr
  · simp [seqStep, hr, hp, Phase.ofCode, phaseStep, phaseReservedStep]

/-- Presenting a command is no reset. -/
theorem State.present_rstAsserted (s : State) (op : BitVec 2) (pin : Pin) :
    (s.present op pin).rstAsserted = s.rstAsserted := by
  unfold State.present State.rstAsserted
  cases s.inputs <;> rfl

/-- READ on a free block is its acceptance and the run of the busy block (48_commands R190, R197). -/
theorem exec_read (free : s.busy = false) (hr : s.rstAsserted = false) (pin : Pin) :
    exec (.read pin) s = .next (runOp State.busy (s.acceptRead pin).tick) := by
  have accepted : seqStep (s.present 0b10#2 pin) = (s.acceptRead pin).tick :=
    seqStep_of_not_busy free ((s.present_rstAsserted _ _).trans hr)
  simp only [exec, execRead, runCommand, free, accepted, Bool.false_eq_true, if_false]

/-- Before the frame no operation waits at the entry of a bit. -/
theorem not_atEntry_bitRise (h : (inRequest s || inHandshake s) = true ∨ s.phase = Phase.idle.code) :
    atEntry .bitRise s = false := by
  by_contra entry
  obtain ⟨hp, site⟩ := atEntry_iff.1 (by simpa using entry)
  simp [inRequest, inHandshake, inWait, hp, site] at h

/-- Settles O39: the five operations in order are the run of the busy block. -/
theorem readExpands : Obligations.ReadExpands := by
  intro s pin free hr accepted
  have request : HandsOver State.busy _ _ accepted (exec .requestReadings accepted) :=
    .initial (fun _ => busy_of_inRequest) requestReadings_startsAt inRequest_passesTo (inPhase_iff.2 rfl)
  have handshake := request.andThen (fun _ => busy_of_inHandshake) awaitData_startsAt inHandshake_passesTo
  have frame := handshake.andThen (fun _ => busy_of_inFrame) assembleFrame_startsAt inFrame_passesTo
  have checked := frame.andThen (fun _ => busy_of_inPhase (by decide)) validateChecksum_startsAt check_passesTo
  have decoded := checked.andThen (fun _ => busy_of_inPhase (by decide)) decodeReading_startsAt decode_passesTo
  have counters : ∀ v, returnedFrom .hsFall v = true → atEntry .bitRise v = true := fun _ h =>
    (Bool.and_eq_true_iff.1 h).1
  rw [handshake.thenIf_eq counters fun _ => not_atEntry_bitRise,
    decoded.eq_run nofun fun v idle => by simp [State.busy, idle]]
  exact exec_read free hr pin

end Sys2Proof.Machine
end

section
/-! PROOFS. The reading registers together are the frame (30_encoding R93). -/

namespace Sys2Proof

/-- A byte's top bit and the rest of it, in front of another byte, are the two bytes. -/
theorem topBit_append_rest (high low : Byte) :
    (BitVec.ofBool (high.getLsbD 7) ++ (high.extractLsb' 0 7 ++ low : BitVec 15) : BitVec 16) = high ++ low := by
  have whole : ∀ b : Byte, (BitVec.ofBool (b.getLsbD 7) ++ b.extractLsb' 0 7 : BitVec 8) = b := by decide
  have regroup := (BitVec.append_assoc (x₁ := BitVec.ofBool (high.getLsbD 7)) (x₂ := high.extractLsb' 0 7)
    (x₃ := low)).symm
  rwa [BitVec.cast_eq, whole] at regroup

/-- The sign and the magnitude are bytes 2 and 3 (47_reading_decoder R182, R183). -/
theorem tempNegOf_append_tempMagOf (buf : Vector Byte 5) :
    BitVec.ofBool (tempNegOf buf) ++ tempMagOf buf = (buf[2] ++ buf[3] : BitVec 16) :=
  topBit_append_rest buf[2] buf[3]

namespace Machine

/-- Settles O34: in DECODE the checksum register already holds byte 4, and the step latches the rest. -/
theorem readingIsTheFrame : Obligations.ReadingIsTheFrame := by
  intro s inv decoding
  obtain ⟨-, checksum⟩ := inv.decode_checked decoding
  refine ⟨decodeStep s, rfl, ?_⟩
  change humidityOf s.buf ++ (BitVec.ofBool (tempNegOf s.buf) ++ tempMagOf s.buf) ++ s.rdChecksum = _
  rw [tempNegOf_append_tempMagOf, checksum]
  rfl

end Machine

end Sys2Proof
end

section
/-! PROOFS. The ports (30_encoding R87, R88, R91, R95): what the reserved phase, an unanswered request and the
requests themselves do, and which requests are ever issued. -/

namespace Sys2Proof.Machine

variable {s : State}

/-! ### Port records -/

/-- With its record known, a step's end is the state with the later records. -/
theorem State.tick_of_cons {r : Inputs} {rest : List Inputs} (h : s.inputs = r :: rest) :
    s.tick = { s with inputs := rest } := by
  simp [State.tick, h]

theorem State.tick_of_nil (h : s.inputs = []) : s.tick = s := by
  cases s; simp_all [State.tick]

/-! ### The reserved phase -/

/-- Settles O9: the reserved phase's step is IDLE's, and a block that is not busy takes it. -/
theorem reservedPhaseActsAsIdle : Obligations.ReservedPhaseActsAsIdle := by
  refine fun s => ⟨idleStep s, rfl, rfl, fun reserved => ?_⟩
  have free : s.busy = false := by simp [State.busy, reserved, Phase.ofCode]
  exact ⟨free, fun hr => by rw [step_eq_seqStep, seqStep_of_not_busy free hr]⟩

/-! ### GET_LEVEL cannot fail -/

/-- `Sample` reads the level and the clock and not `g_fail` (30_encoding R87). -/
theorem State.sample_ignores_gFail {r : Inputs} {rest : List Inputs} (hi : s.inputs = r :: rest)
    (failFlag : Bool) :
    State.sample { s with inputs := { r with gFail := failFlag } :: rest } = s.sample := by
  cases acked : r.gAck <;> simp [State.sample, State.sampleAnswer, hi, acked, State.tick, State.record]

/-- Settles O19: neither the reset nor the poll's sample reads `g_fail`. -/
theorem pollIgnoresFailureFlag : Obligations.PollIgnoresFailureFlag := by
  intro s r rest failFlag hi hp
  let u : State := { s with inputs := { r with gFail := failFlag } :: rest }
  have rst : u.rstAsserted = s.rstAsserted := (State.rstAsserted_cons hi).symm
  have poll : ewPollStep u = ewPollStep s := by
    unfold ewPollStep
    rw [State.sample_ignores_gFail hi failFlag]
  change step u = step s
  rw [step_eq_seqStep, step_eq_seqStep]
  cases hr : s.rstAsserted with
  | true =>
    rw [seqStep_of_rst (rst.trans hr), seqStep_of_rst hr]
    simp [State.resetByPort, u, hi]
  | false => rw [seqStep_of_phase (s := u) hp (rst.trans hr), seqStep_of_phase hp hr, phaseStep, phaseStep, poll]

/-! ### The GPIO requests by themselves -/

/-- Settles O41: each request is its transaction, which is answered or held. -/
theorem gpioRequestsOnlyTrace : Obligations.GpioRequestsOnlyTrace := by
  intro s r rest l d hi
  constructor
  · intro acked
    have answer := State.gpioAnswer_cons hi
    have sample := State.sampleAnswer_cons hi
    rw [if_pos acked] at answer sample
    simp [exec, execSetLevel, execSetDirection, execGetLevel, State.setLevel, State.setDir, State.sample,
      answer, sample, State.record, State.tick, hi]
  · intro held
    simp [exec, execSetLevel, execSetDirection, execGetLevel, State.setLevel, State.setDir, State.sample,
      State.gpioAnswer_cons hi, State.sampleAnswer_cons hi, held, State.tick_of_cons hi]

/-! ### The requests the block issues -/

/-- The transactions of 30_encoding R89 on the GPIO port. -/
theorem State.gpioRequest_mem {i : Instr} (h : s.gpioRequest = some i) :
    i ∈ [.setDirection .output, .setDirection .input, .setLevel .low, .setLevel .high, .getLevel 0#1] := by
  unfold State.gpioRequest at h
  split at h
  · cases h
  · split at h <;> cases h <;> simp

/-- Settles O42: none of the requests issued has the reserved code, and GET_LEVEL's argument is 0. -/
theorem reservedRequestNeverIssued : Obligations.ReservedRequestNeverIssued := by
  refine ⟨fun _ _ => rfl, fun s gOp gArg pin h => ?_⟩
  unfold State.gpioPort at h
  cases request : s.gpioRequest with
  | none => simp [request] at h
  | some i =>
    have issued := State.gpioRequest_mem request
    simp only [List.mem_cons, List.not_mem_nil, or_false] at issued
    obtain rfl | rfl | rfl | rfl | rfl := issued <;> rw [request] at h <;> cases h <;>
      exact ⟨by decide, rfl, by decide⟩

/-- Settles O43: three phases hold a delay request, each its own duration (30_encoding R89). -/
theorem delayPortValues : Obligations.DelayPortValues := by
  intro s d h
  obtain ⟨n, request, rfl⟩ := Option.map_eq_some_iff.1 h
  unfold State.delayRequest at request
  split at request
  · cases request
  · split at request <;> cases request
    · exact .inl rfl
    · exact .inr (.inl rfl)
    · exact .inr (.inr rfl)

/-! ### Held requests -/

/-- The operation of a phase is its step. -/
theorem exec_instr (p : Phase) (s : State) : exec p.instr s = .next (phaseStep (some p) s) := by
  cases p <;> rfl

/-- A request that is not answered changes nothing (30_encoding R95). -/
theorem phaseStep_of_unanswered {p : Phase} (h : unanswered p s) : phaseStep (some p) s = s.tick := by
  cases p with
  | idle | bitStore | check | decode => exact h.elim
  | initDir | rqDirOut | rqDirIn =>
    have unanswered : s.gpioAnswer = none := h
    simp [phaseStep, initDirStep, rqDirOutStep, rqDirInStep, State.setDir, unanswered, gpioStep]
  | initLvl | rqLow | rqHigh =>
    have unanswered : s.gpioAnswer = none := h
    simp [phaseStep, initLvlStep, rqLowStep, rqHighStep, State.setLevel, unanswered, gpioStep]
  | rqDlyLow | rqDlyHigh | faSettle =>
    have unanswered : s.delayAnswer = false := h
    simp [phaseStep, rqDlyLowStep, rqDlyHighStep, faSettleStep, delayStep, unanswered]
  | ewEntry =>
    have unanswered : s.nowAnswer = none := h
    simp [phaseStep, ewEntryStep, State.now, unanswered]
  | ewPoll =>
    have unanswered : s.sampleAnswer = none := h
    simp [phaseStep, ewPollStep, State.sample, unanswered]

/-- Phases whose request goes without an answer while `ack` is 0 hold it. -/
theorem holds_of_unanswered {ps : List Phase} {ack : Inputs → Bool}
    (h : ∀ p ∈ ps, ∀ (s : State) (r : Inputs) (rest : List Inputs), s.inputs = r :: rest → ack r = false →
      unanswered p s) : Holds (ps.map Phase.instr) ack := by
  intro i mem s r rest hi held
  obtain ⟨p, hp, rfl⟩ := List.mem_map.1 mem
  rw [exec_instr, phaseStep_of_unanswered (h p hp s r rest hi held), State.tick_of_cons hi]

/-- With no record left nothing is presented and nothing answered (log 1). -/
theorem phaseStep_of_nil {p : Phase} (hp : p ∉ [.bitStore, .check, .decode]) (h : s.inputs = []) :
    phaseStep (some p) s = s := by
  refine Eq.trans ?_ (State.tick_of_nil h)
  cases p with
  | idle => simp [phaseStep, idleStep, State.presented, h]
  | bitStore | check | decode => simp at hp
  | _ => exact phaseStep_of_unanswered (by
      simp [unanswered, State.gpioAnswer, State.delayAnswer, State.nowAnswer, State.sampleAnswer, h])

/-- Settles O57: the phases that hold a GPIO request, those that hold a delay request, and all of them
without a record. -/
theorem requestsAreHeld : Obligations.RequestsAreHeld := by
  refine ⟨holds_of_unanswered (ps := [.initDir, .initLvl, .rqDirOut, .rqLow, .rqHigh, .rqDirIn, .ewPoll]) ?_,
    holds_of_unanswered (ps := [.rqDlyLow, .rqDlyHigh, .faSettle]) ?_, ?_⟩
  · intro p hp s r rest hi held
    cases p <;> simp [unanswered, State.gpioAnswer_cons hi, State.sampleAnswer_cons hi, held] at hp ⊢
  · intro p hp s r rest hi held
    cases p <;> simp [unanswered, State.delayAnswer_cons hi, held] at hp ⊢
  · intro i mem s hi
    obtain ⟨p, hp, rfl⟩ := List.mem_map.1 (show i ∈ [Phase.idle, .initDir, .initLvl, .rqDirOut, .rqLow,
      .rqDlyLow, .rqHigh, .rqDlyHigh, .rqDirIn, .ewEntry, .ewPoll, .faSettle].map Phase.instr from mem)
    rw [exec_instr, phaseStep_of_nil (by cases p <;> simp at hp ⊢) hi]

end Sys2Proof.Machine
end

section
/-! PROOFS. The Edge Waiter on finitely many port records: its two steps (41_edge_waiter R111, R112), the
loop of its pseudocode (R110), and a wait whose clock stands still (R117). -/

namespace Sys2Proof.Machine

variable {s : State} {r r0 last : Inputs} {rest polls misses : List Inputs} {w : Site} {l : Level} {t : Nat}

/-! ### The operands and the endings of a wait -/

/-- The operands written out are those the step looks up (30_encoding R90). -/
theorem target_bound_of_mem_waitOperands {target : Level} {bound : Nat}
    (h : (w, target, bound) ∈ waitOperands) : target = w.target ∧ bound = w.bound := by
  simp only [waitOperands, List.mem_cons, List.not_mem_nil, or_false, Prod.mk.injEq] at h
  obtain ⟨rfl, rfl, rfl⟩ | ⟨rfl, rfl, rfl⟩ | ⟨rfl, rfl, rfl⟩ | ⟨rfl, rfl, rfl⟩ := h <;> exact ⟨rfl, rfl⟩

/-- The continuation written out is the one the step takes (R120). -/
theorem State.waitReturned_eq (s : State) : s.waitReturned = waitReturnedOk s.site s := by
  unfold State.waitReturned
  cases s.site <;> rfl

/-- A wait that has returned does not run: the next wait, if there is one, is another one's. -/
theorem not_inWait_waitReturnedOk (w : Site) (s : State) : inWait w (waitReturnedOk w s) = false := by
  cases w <;> simp [inWait, waitReturnedOk]

theorem not_inWait_of_idle (w : Site) (idle : s.phase = Phase.idle.code) : inWait w s = false := by
  simp [inWait, idle]

theorem elapsedSince_of_le {t0 t : Nat} (h : t0 ≤ t) : elapsedSince t0 t = t - t0 := if_pos h

/-! ### The two steps -/

theorem ewEntryStep_of_cons (hi : s.inputs = r :: rest) :
    ewEntryStep s = { s with inputs := rest, trace := s.trace ++ [.now r.timeUs],
                             ewT0 := r.timeUs, phase := Phase.ewPoll.code } := by
  simp [ewEntryStep, State.now, State.nowAnswer_cons hi, State.record, State.tick, State.goto, hi]

/-- Settles O16: `Now()` is answered in its own step. -/
theorem edgeEntryStamps : Obligations.EdgeEntryStamps :=
  fun _ _ _ hi => congrArg _ (ewEntryStep_of_cons hi)

/-- An answered poll is judged with its elapsed time already written. -/
theorem ewPollStep_of_answer (h : s.sampleAnswer = some (l, t)) :
    ewPollStep s = (s.polled l t).judgePoll l := by
  simp only [ewPollStep, State.sample, h]
  rfl

theorem State.judgePoll_hit (hit : l = s.site.target) : s.judgePoll l = waitReturnedOk s.site s :=
  (if_pos hit).trans s.waitReturned_eq

theorem State.judgePoll_late (miss : l ≠ s.site.target) (late : s.site.bound ≤ s.ewElapsed) :
    s.judgePoll l = ended .timeout s :=
  (if_neg miss).trans (if_pos (decide_eq_true late))

theorem State.judgePoll_early (miss : l ≠ s.site.target) (early : s.ewElapsed < s.site.bound) :
    s.judgePoll l = s :=
  (if_neg miss).trans (if_neg (by simp [boundReached, early]))

/-- Judging a poll leaves the elapsed time as it was written. -/
theorem State.judgePoll_ewElapsed (s : State) (l : Level) : (s.judgePoll l).ewElapsed = s.ewElapsed := by
  unfold State.judgePoll
  split
  · unfold State.waitReturned
    cases s.site <;> rfl
  · split <;> rfl

/-- What R112 says of an answered poll, on whatever clock (log 4 where it has run backwards). -/
theorem pollOutcome_elapsedSince (hi : s.inputs = r :: rest) (acked : r.gAck = true) :
    PollOutcome s r rest s.site.target s.site.bound (elapsedSince s.ewT0 r.timeUs) := by
  have answer : s.sampleAnswer = some (r.gLevel, r.timeUs) := by simp [State.sampleAnswer_cons hi, acked]
  let u : State := { s with inputs := rest, ewElapsed := elapsedSince s.ewT0 r.timeUs,
                            trace := s.trace ++ [.sample s.pin r.gLevel r.timeUs] }
  have judged : exec .ewPoll s = .next (u.judgePoll r.gLevel) := by
    have polled : s.polled r.gLevel r.timeUs = u := by simp [State.polled, State.record, State.tick, hi, u]
    rw [← polled, ← ewPollStep_of_answer answer]
    rfl
  exact ⟨fun hit => judged.trans (congrArg _ (State.judgePoll_hit (s := u) hit)),
    fun miss late => judged.trans (congrArg _ (State.judgePoll_late (s := u) miss late)),
    fun miss early => judged.trans (congrArg _ (State.judgePoll_early (s := u) miss early))⟩

/-- Settles O17: on a clock that has not run backwards the elapsed time is the difference. -/
theorem edgePollJudges : Obligations.EdgePollJudges := by
  intro w target bound operands s r rest hi hw acked forward
  obtain ⟨rfl, rfl⟩ := target_bound_of_mem_waitOperands operands
  subst hw
  exact elapsedSince_of_le forward ▸ pollOutcome_elapsedSince hi acked

/-! ### The run of a wait -/

/-- The record shows neither the level nor, at its time, the bound. -/
def Misses (target : Level) (bound t0 : Nat) (m : Inputs) : Prop :=
  m.gLevel ≠ target ∧ elapsedSince t0 m.timeUs < bound

/-- The wait entered with `r0` after the polls `made`, the last answered one of which found `e` elapsed. -/
def State.waitPolled (w : Site) (r0 : Inputs) (made rest : List Inputs) (e : Nat) (s : State) : State :=
  { s with site := w, phase := Phase.ewPoll.code, ewT0 := r0.timeUs, ewElapsed := e, inputs := rest,
           trace := s.trace ++ waitEvents s.pin (r0 :: made) }

theorem inWait_waitPolled (w : Site) (r0 : Inputs) (made rest : List Inputs) (e : Nat) (s : State) :
    inWait w (s.waitPolled w r0 made rest e) = true :=
  inWait_iff.2 ⟨rfl, .inr rfl⟩

/-- A wait goes on through the polls that are held or miss. -/
theorem runWait_misses (hi : s.inputs = r0 :: (misses ++ rest)) (hr : r0.rst = false)
    (missed : ∀ m ∈ misses, m.rst = false ∧ (m.gAck = true → Misses w.target w.bound r0.timeUs m)) :
    ∃ e, runWait w s = runOp (inWait w) (s.waitPolled w r0 misses rest e) := by
  let u : State := { s with site := w, ewT0 := r0.timeUs, phase := Phase.ewPoll.code,
                            inputs := misses ++ rest, trace := s.trace ++ [.now r0.timeUs] }
  have entered : seqStep (s.startWait w) = u := seqStep_entry hi rfl hr
  obtain ⟨e, run⟩ := runOp_misses (s := u) (inOp := inWait w) rfl rfl
    (fun _ site hp => inWait_iff.2 ⟨site, .inr hp⟩) missed
  refine ⟨e, ?_⟩
  rw [runWait, runOp_step (s := s.startWait w) (by simp [inWait]) hi, entered, run]
  simp [u, State.waitPolled, waitEvents]

/-- The first answered poll after them is judged. -/
theorem runWait_judges (hi : s.inputs = r0 :: (misses ++ last :: rest)) (hr : r0.rst = false)
    (missed : ∀ m ∈ misses, m.rst = false ∧ (m.gAck = true → Misses w.target w.bound r0.timeUs m))
    (lastRst : last.rst = false) (lastAck : last.gAck = true) :
    runWait w s = runOp (inWait w) ((s.waitPolled w r0 (misses ++ [last]) rest
      (elapsedSince r0.timeUs last.timeUs)).judgePoll last.gLevel) := by
  obtain ⟨e, run⟩ := runWait_misses hi hr missed
  let u : State := s.waitPolled w r0 misses (last :: rest) e
  have polled : u.polled last.gLevel last.timeUs =
      s.waitPolled w r0 (misses ++ [last]) rest (elapsedSince r0.timeUs last.timeUs) := by
    simp [u, State.polled, State.record, State.tick, State.waitPolled, waitEvents, pollEvents, lastAck]
  have answer : u.sampleAnswer = some (last.gLevel, last.timeUs) := by
    simp [State.sampleAnswer_cons (s := u) rfl, lastAck]
  have noReset : u.rstAsserted = false := (State.rstAsserted_cons (s := u) rfl).trans lastRst
  rw [run, runOp_step (inWait_waitPolled w r0 misses (last :: rest) e s) rfl,
    seqStep_of_phase (s := u) (p := .ewPoll) rfl noReset, phaseStep, ewPollStep_of_answer answer, polled]

/-! ### A wait and its pseudocode -/

/-- How the pseudocode returns: after polls that miss, on the first that shows the level, or else the
bound. -/
theorem awaitLevel_eq_some {target : Level} {bound t0 : Nat} {result : WaitResult} {e n : Nat}
    (h : awaitLevel target bound t0 (polls.map fun m => (m.gLevel, m.timeUs)) = some (result, e, n)) :
    ∃ misses last later, polls = misses ++ last :: later ∧ n = misses.length + 1 ∧
      e = elapsedSince t0 last.timeUs ∧ (∀ m ∈ misses, Misses target bound t0 m) ∧
      ((result = .ok ∧ last.gLevel = target) ∨
       (result = .timeout ∧ last.gLevel ≠ target ∧ bound ≤ e)) := by
  induction polls generalizing n with
  | nil => cases h
  | cons m later ih =>
    simp only [List.map_cons, awaitLevel] at h
    split_ifs at h with hit late
    · cases h
      exact ⟨[], m, later, rfl, rfl, rfl, nofun, .inl ⟨rfl, hit⟩⟩
    · cases h
      exact ⟨[], m, later, rfl, rfl, rfl, nofun, .inr ⟨rfl, hit, late⟩⟩
    · obtain ⟨⟨_, _, n⟩, returned, same⟩ := Option.map_eq_some_iff.1 h
      cases same
      obtain ⟨misses, last, later, rfl, rfl, elapsed, missed, ending⟩ := ih returned
      exact ⟨m :: misses, last, later, rfl, rfl, elapsed,
        List.forall_mem_cons.2 ⟨⟨hit, Nat.lt_of_not_le late⟩, missed⟩, ending⟩

/-- How a wait goes on from its deciding poll (R112). -/
def waitEnding (w : Site) : WaitResult → State → State
  | .ok => waitReturnedOk w
  | .timeout => ended .timeout

/-- A wait on answered polls ends as its pseudocode returns. -/
theorem runWait_of_awaitLevel {result : WaitResult} {e n : Nat}
    (hi : s.inputs = r0 :: (polls ++ rest)) (hr : r0.rst = false)
    (answered : ∀ m ∈ polls, m.rst = false ∧ m.gAck = true)
    (h : awaitLevel w.target w.bound r0.timeUs (polls.map fun m => (m.gLevel, m.timeUs)) =
      some (result, e, n)) :
    runWait w s = waitEnding w result (s.waitPolled w r0 (polls.take n) (polls.drop n ++ rest) e) := by
  obtain ⟨misses, last, later, rfl, rfl, rfl, missed, ending⟩ := awaitLevel_eq_some h
  have taken : (misses ++ last :: later).take (misses.length + 1) = misses ++ [last] := by
    simp [List.take_append]
  have left : (misses ++ last :: later).drop (misses.length + 1) = later := by simp [List.drop_append]
  obtain ⟨lastRst, lastAck⟩ := answered last (by simp)
  rw [taken, left, runWait_judges (rest := later ++ rest) (by simpa using hi) hr
    (fun m hm => ⟨(answered m (by simp [hm])).1, fun _ => missed m hm⟩) lastRst lastAck]
  obtain ⟨rfl, hit⟩ | ⟨rfl, miss, late⟩ := ending
  · rw [State.judgePoll_hit hit]
    exact runOp_stop (not_inWait_waitReturnedOk w _)
  · rw [State.judgePoll_late miss late]
    exact runOp_stop (not_inWait_of_idle w rfl)

theorem pollEvents_eq_map (pin : Pin) (rs : List Inputs) :
    pollEvents pin rs = (rs.filter (·.gAck)).map fun m => .sample pin m.gLevel m.timeUs := by
  rw [pollEvents, ← List.filterMap_eq_map, List.filterMap_filter]
  rfl

/-- Settles O20: each SITE row is the wait at its site, and AWAIT_LEVEL the wait at the register's. -/
theorem waitsRefineThePseudocode : Obligations.WaitsRefineThePseudocode := by
  intro w target bound i operands row s r0 polls rest result e n hi hr answered h
  obtain ⟨rfl, rfl⟩ := target_bound_of_mem_waitOperands operands
  have meaning : exec i s = .next (runWait w s) := by
    simp only [List.mem_cons, List.not_mem_nil, or_false, Prod.mk.injEq] at row
    obtain ⟨rfl, rfl⟩ | ⟨rfl, rfl⟩ | ⟨rfl, rfl⟩ | ⟨rfl, rfl⟩ := row <;> rfl
  have allAnswered : (polls.take n).filter (·.gAck) = polls.take n :=
    List.filter_eq_self.2 fun m hm => (answered m (List.mem_of_mem_take hm)).2
  have run := runWait_of_awaitLevel (w := w) hi hr answered h
  rw [State.waitPolled, waitEvents, pollEvents_eq_map, allAnswered] at run
  cases result <;> exact ⟨by rw [meaning, run]; rfl, fun site => by subst site; exact congrArg _ run⟩

/-! ### A clock that stands still -/

/-- Settles O22: all polls are held or miss, and without a record left the poll is held. -/
theorem stoppedClockPollsForEver : Obligations.StoppedClockPollsForEver := by
  intro w target bound operands s r0 polls hi hw noReset stopped
  obtain ⟨rfl, rfl⟩ := target_bound_of_mem_waitOperands operands
  subst hw
  have misses : ∀ m ∈ polls, m.gAck = true → Misses s.site.target s.site.bound r0.timeUs m :=
    fun m hm acked => by
      obtain ⟨miss, forward, early⟩ := stopped m hm acked
      exact ⟨miss, (elapsedSince_of_le forward).symm ▸ early⟩
  obtain ⟨e, run⟩ := runWait_misses (w := s.site) (rest := []) (by simpa using hi)
    (noReset r0 List.mem_cons_self) fun m hm => ⟨noReset m (List.mem_cons_of_mem _ hm), misses m hm⟩
  let u : State := s.waitPolled s.site r0 polls [] e
  have waits : u.settled := ⟨rfl, (seqStep_nil rfl).resolve_right (by simp [u, State.waitPolled])⟩
  rw [runOp_settled waits] at run
  exact ⟨u, congrArg _ run, rfl, rfl, rfl, rfl, rfl, by simp [u, State.waitPolled, waitEvents, pollEvents_eq_map]⟩

end Sys2Proof.Machine
end

section
/-! PROOFS. The Edge Waiter in an environment without end: under P2 a wait ends (41_edge_waiter R117), under
P1 its elapsed time is the clock difference and never decreases (R113). -/

namespace Sys2Proof.Machine

variable {env : Environment} {s : State} {w : Site} {m n t u : Nat}

/-! ### One step of a wait -/

/-- A step of EW_POLL in the run. -/
theorem atStep_succ_of_poll (hp : (s.atStep env n).phase = Phase.ewPoll.code) (hr : (env n).rst = false) :
    s.atStep env (n + 1) = { ewPollStep (s.atStep env n) with inputs := [env (n + 1)] } := by
  rw [State.atStep, seqStep_of_phase hp (by rw [atStep_rst, hr])]
  rfl

/-- A poll returns a time when its sample is answered. -/
theorem gAck_of_timeReturned (hp : (s.atStep env n).phase = Phase.ewPoll.code)
    (h : (s.atStep env n).timeReturned = some t) : (env n).gAck = true := by
  obtain ⟨l, answer⟩ := timeReturned_poll hp h
  rw [State.sampleAnswer_cons (atStep_inputs env s n)] at answer
  by_contra held
  simp [held] at answer

theorem asksTime_of_inWait (h : inWait w s = true) : s.asksTime = true :=
  (Bool.and_eq_true_iff.1 h).2

/-- The command has ended with TIMEOUT (48_commands R196). -/
def State.timedOut (s : State) : Prop :=
  s.phase = Phase.idle.code ∧ s.done = true ∧ s.status = .timeout

/-- A step of a wait leaves it polling, with no answered poll at the bound, or ends it: on the target level,
or by TIMEOUT. -/
theorem atStep_wait_cases (hw : inWait w (s.atStep env n) = true) (hr : (env n).rst = false) :
    ((s.atStep env (n + 1)).phase = Phase.ewPoll.code ∧ (s.atStep env (n + 1)).site = w ∧
      ((s.atStep env n).phase = Phase.ewPoll.code → (env n).gAck = true →
        elapsedSince (s.atStep env n).ewT0 (env n).timeUs < w.bound)) ∨
    (inWait w (s.atStep env (n + 1)) = false ∧
      ((env n).gLevel = w.target ∨ (s.atStep env (n + 1)).timedOut)) := by
  have hi := atStep_inputs env s n
  obtain ⟨rfl, hp | hp⟩ := inWait_iff.1 hw
  · left
    rw [State.atStep, seqStep_entry hi hp hr]
    exact ⟨rfl, rfl, by simp [hp]⟩
  · rw [atStep_succ_of_poll hp hr]
    obtain ⟨l, t, answer, outcome⟩ | ⟨held, e⟩ := ewPollStep_cases (s.atStep env n)
    · rw [State.sampleAnswer_cons hi, Option.ite_none_right_eq_some] at answer
      obtain ⟨-, same⟩ := answer
      cases same
      obtain ⟨hit, e⟩ | ⟨-, -, e⟩ | ⟨-, early, e⟩ := outcome <;> rw [e]
      · rw [State.waitReturned_eq, State.polled_site]
        exact .inr ⟨not_inWait_waitReturnedOk _ _, .inl hit⟩
      · exact .inr ⟨not_inWait_of_idle _ rfl, .inr ⟨rfl, rfl, rfl⟩⟩
      · exact .inl ⟨hp, rfl, fun _ _ => early⟩
    · rw [e]
      exact .inl ⟨hp, rfl, fun _ acked => by simp [State.sampleAnswer_cons hi, acked] at held⟩

/-! ### With time progress a wait ends -/

/-- The polls of one wait measure from one stamp. -/
theorem ewT0_eq_of_polls (le : m ≤ n)
    (polls : ∀ k, m ≤ k → k ≤ n → (s.atStep env k).phase = Phase.ewPoll.code) :
    (s.atStep env n).ewT0 = (s.atStep env m).ewT0 := by
  induction n, le using Nat.le_induction with
  | base => rfl
  | succ n le ih =>
    obtain ⟨-, ⟨entry, -⟩ | ⟨-, same⟩⟩ := atStep_before_poll (polls (n + 1) (by omega) le_rfl)
    · simp [polls n le (by omega)] at entry
    · exact same.trans (ih fun k hm hk => polls k hm (by omega))

/-- A wait that never ends polls from its second step on, measuring from its entry. -/
theorem polling_of_waits (noReset : ∀ n, (env n).rst = false) (hp : s.phase = Phase.ewEntry.code)
    (waits : ∀ n, inWait w (s.atStep env n) = true) (n : Nat) :
    (s.atStep env (n + 1)).phase = Phase.ewPoll.code ∧ (s.atStep env (n + 1)).ewT0 = (env 0).timeUs := by
  have polls : ∀ n, (s.atStep env (n + 1)).phase = Phase.ewPoll.code := fun n => by
    obtain ⟨polls, -⟩ | ⟨gone, -⟩ := atStep_wait_cases (waits n) (noReset n)
    · exact polls
    · simp [waits (n + 1)] at gone
  have stamp : (s.atStep env 1).ewT0 = (env 0).timeUs := by
    rw [State.atStep, seqStep_entry (atStep_inputs env s 0) hp (noReset 0)]
  refine ⟨polls n, (ewT0_eq_of_polls n.succ_pos fun k later _ => ?_).trans stamp⟩
  obtain ⟨k, rfl⟩ := Nat.exists_eq_add_one.2 later
  exact polls k

/-- Under P2 a wait does not go on for ever: a poll reaches the bound, or the block has stopped asking. -/
theorem wait_ends (noReset : ∀ n, (env n).rst = false) (hp : s.phase = Phase.ewEntry.code)
    (progress : TimeProgress env s) : ∃ n, inWait w (s.atStep env n) = false := by
  by_contra never
  have waits : ∀ n, inWait w (s.atStep env n) = true := by simpa using never
  obtain ⟨m, t, later, returned, passed⟩ | ⟨m, -, stopped⟩ :=
    progress 0 (env 0).timeUs w.bound (timeReturned_entry (noReset 0) hp)
  · obtain ⟨k, rfl⟩ := Nat.exists_eq_add_one.2 later
    obtain ⟨polls, stamp⟩ := polling_of_waits noReset hp waits k
    obtain ⟨rfl, -⟩ := timeReturned_eq returned
    obtain ⟨-, -, early⟩ | ⟨gone, -⟩ := atStep_wait_cases (waits (k + 1)) (noReset (k + 1))
    · have reached := early polls (gAck_of_timeReturned polls returned)
      rw [stamp, elapsedSince_of_le (by omega)] at reached
      omega
    · simp [waits (k + 2)] at gone
  · cases (asksTime_of_inWait (waits m)).symm.trans (stopped m le_rfl)

/-- The first step outside a wait. -/
theorem wait_ends_first (ends : ∃ n, inWait w (s.atStep env n) = false) :
    ∃ n, inWait w (s.atStep env n) = false ∧ ∀ k < n, inWait w (s.atStep env k) = true :=
  ⟨Nat.find ends, Nat.find_spec ends, fun k hk => by simpa using Nat.find_min ends hk⟩

/-- A wait that has ended and whose last step did not show the level has timed out. -/
theorem timedOut_of_never_matches (noReset : ∀ n, (env n).rst = false)
    (never : ∀ n, (env n).gLevel ≠ w.target) (before : inWait w (s.atStep env n) = true)
    (gone : inWait w (s.atStep env (n + 1)) = false) : (s.atStep env (n + 1)).timedOut := by
  obtain ⟨polls, site, -⟩ | ⟨-, hit | timedOut⟩ := atStep_wait_cases before (noReset n)
  · simp [inWait_iff.2 ⟨site, .inr polls⟩] at gone
  · exact absurd hit (never n)
  · exact timedOut

/-- Settles O21: the wait runs to the first step outside it, which its last poll has led to. -/
theorem waitEndsWhenTimePasses : Obligations.WaitEndsWhenTimePasses := by
  intro w target bound operands env s hw noReset progress
  obtain ⟨rfl, rfl⟩ := target_bound_of_mem_waitOperands operands
  subst hw
  let entered : State := { s with phase := Phase.ewEntry.code }
  obtain ⟨n, gone, before⟩ := wait_ends_first (wait_ends (w := s.site) noReset rfl progress)
  refine ⟨n, fun rest => ⟨{ entered.atStep env n with inputs := rest }, ?_, gone, fun never => ?_⟩⟩
  · exact congrArg _ (runOp_until rest n env entered before gone)
  · cases n with
    | zero => simp [inWait, State.atStep] at gone
    | succ n => exact timedOut_of_never_matches noReset never (before n n.lt_succ_self) gone

/-! ### Under monotonic time -/

/-- The stamp that a poll measures from is a time returned earlier in the run. -/
theorem stamp_returned_before_poll (start : s.phase ≠ Phase.ewPoll.code)
    (hp : (s.atStep env n).phase = Phase.ewPoll.code) :
    ∃ m < n, (s.atStep env m).timeReturned = some (s.atStep env n).ewT0 := by
  induction n with
  | zero => exact absurd hp start
  | succ n ih =>
    obtain ⟨hr, ⟨entry, stamp⟩ | ⟨poll, same⟩⟩ := atStep_before_poll hp
    · exact ⟨n, n.lt_succ_self, stamp ▸ timeReturned_entry hr entry⟩
    · obtain ⟨m, earlier, returned⟩ := ih poll
      exact ⟨m, earlier.trans n.lt_succ_self, same ▸ returned⟩

/-- An answered poll writes the elapsed time. -/
theorem ewElapsed_of_poll (hp : (s.atStep env n).phase = Phase.ewPoll.code)
    (h : (s.atStep env n).timeReturned = some t) :
    (s.atStep env (n + 1)).ewElapsed = elapsedSince (s.atStep env n).ewT0 t := by
  obtain ⟨l, answer⟩ := timeReturned_poll hp h
  rw [atStep_succ_of_poll hp (timeReturned_eq h).2, ewPollStep_of_answer answer]
  exact State.judgePoll_ewElapsed _ l

/-- Under P1 a poll's clock is not below the stamp, so the elapsed time is the difference. -/
theorem poll_after_stamp (start : s.phase ≠ Phase.ewPoll.code) (monotonic : MonotonicTime env s)
    (hp : (s.atStep env n).phase = Phase.ewPoll.code) (h : (s.atStep env n).timeReturned = some t) :
    (s.atStep env n).ewT0 ≤ t ∧ (s.atStep env (n + 1)).ewElapsed = t - (s.atStep env n).ewT0 := by
  obtain ⟨m, earlier, stamped⟩ := stamp_returned_before_poll start hp
  have forward := monotonic m n _ t earlier stamped h
  exact ⟨forward, (ewElapsed_of_poll hp h).trans (elapsedSince_of_le forward)⟩

/-- Settles O59: two polls of a wait measure from one stamp, and the later one's clock value is not below. -/
theorem elapsedUnderMonotonicTime : Obligations.ElapsedUnderMonotonicTime := by
  intro env s start monotonic n t hp returned
  obtain ⟨forward, elapsed⟩ := poll_after_stamp start monotonic hp returned
  refine ⟨forward, elapsed, fun m earlier polls answered => ?_⟩
  obtain ⟨u, returnedBefore⟩ := Option.ne_none_iff_exists'.1 answered
  obtain ⟨-, elapsedBefore⟩ := poll_after_stamp start monotonic (polls m le_rfl earlier.le) returnedBefore
  rw [elapsed, elapsedBefore, ewT0_eq_of_polls earlier.le polls]
  exact Nat.sub_le_sub_right (monotonic m n u t earlier returnedBefore returned) _

end Sys2Proof.Machine
end

section
/-! PROOFS. The commanded line (42_request_sequencer R138): how one entry changes what was last commanded of
a pin, what each phase may rely on, and that every step keeps it up to the end of the command. -/

namespace Sys2Proof.Machine

variable {s t : State} {p : Phase}

/-! ### What the last entry of a trace commands -/

/-- The direction last commanded ok, `before` and one entry more. -/
@[simp] def dirAfter (pin : Pin) (before : Option Dir) : Event → Option Dir
  | .setDir q d .ok => if q = pin then some d else before
  | _ => before

/-- The level last commanded ok, `before` and one entry more. -/
@[simp] def levelAfter (pin : Pin) (before : Option Level) : Event → Option Level
  | .setLvl q l .ok => if q = pin then some l else before
  | _ => before

@[simp] theorem lastDir_append (pin : Pin) (trace es : List Event) :
    lastDir pin (trace ++ es) = es.foldl (dirAfter pin) (lastDir pin trace) :=
  List.foldl_append

@[simp] theorem lastLevel_append (pin : Pin) (trace es : List Event) :
    lastLevel pin (trace ++ es) = es.foldl (levelAfter pin) (lastLevel pin trace) :=
  List.foldl_append

/-! ### What the invariant claims in each phase -/

/-- What phase `p` relies on having been commanded last. -/
@[simp] def LineClaim (p : Phase) (dir : Option Dir) (level : Option Level) : Prop :=
  match p with
  | .idle | .initDir | .rqDirOut => True
  | .initLvl | .rqLow => dir = some .output
  | .rqDlyLow | .rqHigh => dir = some .output ∧ level = some .low
  | .rqDlyHigh | .rqDirIn => dir = some .output ∧ level = some .high
  | .ewEntry | .ewPoll | .bitStore | .faSettle | .check | .decode =>
    dir = some .input ∧ level = some .high

/-- The invariant is the claim of the phase that the register names. -/
theorem State.lineInv_iff (hp : s.phase = p.code) :
    s.LineInv ↔ LineClaim p (lastDir s.pin s.trace) (lastLevel s.pin s.trace) := by
  constructor
  · rintro ⟨output, low, high, input⟩
    cases p <;> simp_all [Phase.code]
  · intro claim
    constructor <;> cases p <;> simp_all [Phase.code]

theorem State.LineInv.of_same (inv : s.LineInv) (phase : t.phase = s.phase)
    (dir : lastDir t.pin t.trace = lastDir s.pin s.trace)
    (level : lastLevel t.pin t.trace = lastLevel s.pin s.trace) : t.LineInv := by
  obtain ⟨output, low, high, input⟩ := inv
  rw [← phase, ← dir] at output
  rw [← phase, ← level] at low high
  rw [← phase, ← dir, ← level] at input
  exact ⟨output, low, high, input⟩

/-! ### Every step keeps the claim -/

/-- Each case of a step leads to a phase whose claim its own entry, or the claim before it, establishes. -/
theorem StepCase.keepsLine (c : StepCase s p t) (inv : s.LineInv)
    (claim : LineClaim p (lastDir s.pin s.trace) (lastLevel s.pin s.trace)) : t.LineInv := by
  have reach : ∀ {q : Phase}, t.phase = q.code →
      LineClaim q (lastDir t.pin t.trace) (lastLevel t.pin t.trace) → t.LineInv :=
    fun hq => (State.lineInv_iff hq).2
  cases c with
  | stayIdle | held => exact inv.of_same rfl rfl rfl
  | pollAgain => exact inv.of_same rfl (by simp) (by simp)
  | dirFail | levelFail | initLvlOk | waitTimeout | checkFail | decoded =>
    exact reach (q := .idle) rfl trivial
  | acceptInit => exact reach (q := .initDir) rfl trivial
  | acceptRead => exact reach (q := .rqDirOut) rfl trivial
  | initDirOk | rqDirOutOk => exact reach (State.goto_phase _ _) (by simp)
  | rqLowOk => exact reach (State.goto_phase _ _) (by simpa using claim)
  | rqHighOk => exact reach (State.goto_phase _ _) (by simpa using claim.1)
  | rqDirInOk => exact reach (State.startWait_phase _ _) (by simpa using claim.2)
  | rqDlyLowOver | rqDlyHighOver | stamped | bitFallOk | frameComplete | checkPass =>
    exact reach (State.goto_phase _ _) (by simpa using claim)
  | hsRiseOk | hsFallOk | bitRiseOk | nextBit | nextByte =>
    exact reach (State.startWait_phase _ _) (by simpa using claim)
  | stored => exact reach (q := .faSettle) rfl claim

/-- Settles O51: a reset leads to IDLE, which claims nothing; the reserved code steps as IDLE does; every other
step is a case of its phase. -/
theorem stepKeepsLine : Obligations.StepKeepsLine := by
  intro s t inv h
  obtain ⟨_, rfl⟩ | ⟨_, p, hp, c⟩ | ⟨_, _, c⟩ := step_cases h
  · exact (State.lineInv_iff (p := .idle) rfl).2 trivial
  · exact c.keepsLine inv ((State.lineInv_iff hp).1 inv)
  · exact c.keepsLine inv trivial

/-! ### The line when a command ends -/

/-- The step that ends a command commands nothing of the pin, but for the last of INIT. -/
theorem StepCase.line_of_ended (hp : s.phase = p.code) (c : StepCase s p t)
    (ended : t.phase = Phase.idle.code) (notIdle : p ≠ .idle) :
    lastDir s.pin t.trace = lastDir s.pin s.trace ∧
    lastLevel s.pin t.trace =
      if p = .initLvl ∧ t.status = .ok then some .high else lastLevel s.pin s.trace := by
  cases c with
  | held => exact absurd (Phase.code_inj.1 (hp.symm.trans ended)) notIdle
  | dirFail | levelFail | initLvlOk | waitTimeout | checkFail | decoded => simp
  | pollAgain => simp [hp] at ended
  | stayIdle | acceptInit | acceptRead => exact absurd rfl notIdle
  | _ => simp at ended

/-- Settles O52: what the ending leaves is what the phase relied on. -/
theorem lineAtTheEnd : Obligations.LineAtTheEnd := by
  intro s t p inv hr hp h ended
  have claim := (State.lineInv_iff hp).1 inv
  have line := (step_case hr hp h).line_of_ended hp ended
  refine ⟨fun exit => ?_, ?_, ?_, ?_, ?_, ?_⟩
  · simp only [List.mem_cons, List.not_mem_nil, or_false] at exit
    obtain rfl | rfl | rfl := exit <;> simpa [line] using claim
  · rintro rfl; simpa [line] using claim
  · rintro rfl; simpa [line] using claim
  · rintro rfl; simpa [line] using claim
  · rintro rfl; simp [line]
  · rintro rfl ok; simpa [line, ok] using claim

end Sys2Proof.Machine
end

section
/-! PROOFS. The Request Sequencer (42_request_sequencer): its six phases one by one, how a run passes through
a phase once its request is answered, and the whole request, answered well or failing fast. -/

namespace Sys2Proof.Machine

variable {s : State} {p : Phase} {i : Instr} {d : Nat} {rs rest held : List Inputs} {r : Inputs}
  {entry : Pin → Answer → Event} {after : State → State} {inOp : State → Bool}

/-! ### One phase, its request answered in this step -/

/-- A phase whose transaction makes its entry when it is answered goes on or ends with GPIO_ERROR (R137). -/
theorem gpioPhase_of_answered {tx : State → State × Option Answer}
    (answered : ∀ (s : State) (a : Answer), s.gpioAnswer = some a →
      tx s = ((s.record (entry s.pin a)).tick, some a))
    (meaning : ∀ s, exec i s = .next (gpioStep (tx s) after)) : GpioPhase i entry after := by
  intro s r rest hi acked
  have answer := State.gpioAnswer_cons hi
  have later : ∀ e, (s.record e).tick = { s with inputs := rest, trace := s.trace ++ [e] } :=
    fun e => State.tick_of_cons (s := s.record e) hi
  constructor <;> intro flag <;> simp only [acked, flag, if_true, if_false, Bool.false_eq_true] at answer
  · rw [meaning, answered s .ok answer, later]
    rfl
  · rw [meaning, answered s .fail answer, later]
    rfl

theorem gpioPhase_setDir {dir : Dir} (meaning : ∀ s, exec i s = .next (gpioStep (s.setDir dir) after)) :
    GpioPhase i (fun pin a => .setDir pin dir a) after :=
  gpioPhase_of_answered (fun s a h => by rw [State.setDir, h]) meaning

theorem gpioPhase_setLevel {level : Level}
    (meaning : ∀ s, exec i s = .next (gpioStep (s.setLevel level) after)) :
    GpioPhase i (fun pin a => .setLvl pin level a) after :=
  gpioPhase_of_answered (fun s a h => by rw [State.setLevel, h]) meaning

theorem delayPhase_of_delayStep (meaning : ∀ s, exec i s = .next (delayStep s d after)) :
    DelayPhase i d after := by
  intro s r rest hi acked
  have elapsed : s.delayAnswer = true := (State.delayAnswer_cons hi).trans acked
  rw [meaning, delayStep, if_pos elapsed, State.tick_of_cons (s := s.record (.delay d)) hi]
  rfl

theorem rqDirOut_gpioPhase : GpioPhase .rqDirOut (fun pin a => .setDir pin .output a)
    (fun t => { t with phase := Phase.rqLow.code }) := gpioPhase_setDir fun _ => rfl

theorem rqLow_gpioPhase : GpioPhase .rqLow (fun pin a => .setLvl pin .low a)
    (fun t => { t with phase := Phase.rqDlyLow.code }) := gpioPhase_setLevel fun _ => rfl

theorem rqHigh_gpioPhase : GpioPhase .rqHigh (fun pin a => .setLvl pin .high a)
    (fun t => { t with phase := Phase.rqDlyHigh.code }) := gpioPhase_setLevel fun _ => rfl

theorem rqDirIn_gpioPhase : GpioPhase .rqDirIn (fun pin a => .setDir pin .input a)
    (fun t => { t with site := .hsRise, phase := Phase.ewEntry.code }) := gpioPhase_setDir fun _ => rfl

theorem rqDlyLow_delayPhase : DelayPhase .rqDlyLow 3000 (fun t => { t with phase := Phase.rqHigh.code }) :=
  delayPhase_of_delayStep fun _ => rfl

theorem rqDlyHigh_delayPhase : DelayPhase .rqDlyHigh 20 (fun t => { t with phase := Phase.rqDirIn.code }) :=
  delayPhase_of_delayStep fun _ => rfl

/-- Settles O13: two phases set the direction and two the level. -/
theorem requestGpioPhases : Obligations.RequestGpioPhases :=
  ⟨rqDirOut_gpioPhase, rqLow_gpioPhase, rqHigh_gpioPhase, rqDirIn_gpioPhase⟩

/-- Settles O14: both delays are those of the timing profile (10_state R36). -/
theorem requestDelayPhases : Obligations.RequestDelayPhases :=
  ⟨rqDlyLow_delayPhase, rqDlyHigh_delayPhase⟩

/-! ### A run through one phase, its request held first -/

/-- The operation of a phase is its step, so what the one answers the other is. -/
theorem phaseStep_of_exec {u v : State} (h : exec p.instr u = .next v) : phaseStep (some p) u = v :=
  Host.Outcome.next.inj ((exec_instr p u).symm.trans h)

/-- A run of `inOp` waits for the answer of a phase of it and then takes the phase's step. -/
theorem runOp_of_unanswered (running : ∀ u : State, u.phase = p.code → inOp u = true)
    (hp : s.phase = p.code) (hi : s.inputs = held ++ [r] ++ rest) (noReset : r.rst = false)
    (waits : ∀ h ∈ held, h.rst = false ∧
      ∀ (u : State) (later : List Inputs), u.inputs = h :: later → unanswered p u) :
    runOp inOp s = runOp inOp (phaseStep (some p) { s with inputs := r :: rest }) :=
  runOp_answered hi hp (fun _ => running _ hp) noReset fun h mem =>
    ⟨(waits h mem).1, fun u later hu => phaseStep_of_unanswered ((waits h mem).2 u later hu)⟩

/-- A run passes through a GPIO phase as the phase's own statement says. -/
theorem GpioPhase.run (phase : GpioPhase p.instr entry after)
    (asks : ∀ u : State, u.gpioAnswer = none → unanswered p u)
    (running : ∀ u : State, u.phase = p.code → inOp u = true)
    (hp : s.phase = p.code) (hi : s.inputs = rs ++ rest) :
    (GpioOk rs → runOp inOp s =
      runOp inOp (after { s with inputs := rest, trace := s.trace ++ [entry s.pin .ok] })) ∧
    (GpioFail rs → runOp inOp s =
      runOp inOp (ended .gpioError { s with inputs := rest, trace := s.trace ++ [entry s.pin .fail] })) := by
  have waits : ∀ h : Inputs, h.rst = false ∧ h.gAck = false → h.rst = false ∧
      ∀ (u : State) (later : List Inputs), u.inputs = h :: later → unanswered p u :=
    fun h ⟨noReset, noAck⟩ =>
      ⟨noReset, fun u later hu => asks u (by simp [State.gpioAnswer_cons hu, noAck])⟩
  constructor
  · rintro ⟨held, r, rfl, quiet, noReset, acked, ok⟩
    rw [runOp_of_unanswered running hp hi noReset fun h mem => waits h (quiet h mem),
      phaseStep_of_exec ((phase _ r rest rfl acked).1 ok)]
  · rintro ⟨held, r, rfl, quiet, noReset, acked, failed⟩
    rw [runOp_of_unanswered running hp hi noReset fun h mem => waits h (quiet h mem),
      phaseStep_of_exec ((phase _ r rest rfl acked).2 failed)]

/-- So it does through a delay phase. -/
theorem DelayPhase.run (phase : DelayPhase p.instr d after)
    (asks : ∀ u : State, u.delayAnswer = false → unanswered p u)
    (running : ∀ u : State, u.phase = p.code → inOp u = true)
    (hp : s.phase = p.code) (hi : s.inputs = rs ++ rest) (elapsed : DelayOver rs) :
    runOp inOp s = runOp inOp (after { s with inputs := rest, trace := s.trace ++ [.delay d] }) := by
  obtain ⟨held, r, rfl, quiet, noReset, acked⟩ := elapsed
  rw [runOp_of_unanswered running hp hi noReset fun h mem => ⟨(quiet h mem).1, fun u later hu =>
    asks u ((State.delayAnswer_cons hu).trans (quiet h mem).2)⟩, phaseStep_of_exec (phase _ r rest rfl acked)]

/-! ### REQUEST_READINGS -/

/-- Answered by the records `rs`, REQUEST_READINGS comes from `s` to phase `p` and has made the entries `es`. -/
def RequestReaches (s : State) (p : Phase) (rs : List Inputs) (es : List Event) : Prop :=
  ∀ rest, s.inputs = rs ++ rest → runOp inRequest (s.goto .rqDirOut) =
    runOp inRequest { s with phase := p.code, inputs := rest, trace := s.trace ++ es }

namespace RequestReaches

variable {es : List Event} {more dirOut low dlyLow high dlyHigh : List Inputs}

theorem start (s : State) : RequestReaches s .rqDirOut [] [] := by
  intro rest hi
  simp [State.goto, ← show s.inputs = rest from hi]

/-- From one GPIO phase of the request the run goes on, or the command ends (R137). -/
theorem gpio (reached : RequestReaches s p rs es) (phase : GpioPhase p.instr entry after)
    (asks : ∀ u : State, u.gpioAnswer = none → unanswered p u)
    (running : p ∈ [Phase.rqDirOut, .rqLow, .rqDlyLow, .rqHigh, .rqDlyHigh, .rqDirIn])
    (hi : s.inputs = rs ++ more ++ rest) :
    (GpioOk more → runOp inRequest (s.goto .rqDirOut) = runOp inRequest (after
      { s with phase := p.code, inputs := rest, trace := s.trace ++ (es ++ [entry s.pin .ok]) })) ∧
    (GpioFail more → runOp inRequest (s.goto .rqDirOut) =
      ended .gpioError { s with inputs := rest, trace := s.trace ++ (es ++ [entry s.pin .fail]) }) := by
  let here : State := { s with phase := p.code, inputs := more ++ rest, trace := s.trace ++ es }
  obtain ⟨ok, fail⟩ := phase.run (s := here) asks (fun u hp => inRequest_iff.2 ⟨p, running, hp⟩) rfl rfl
  rw [reached (more ++ rest) (by simp [hi]), ← List.append_assoc, ← List.append_assoc]
  exact ⟨ok, fun failed => (fail failed).trans (runOp_stop rfl)⟩

/-- From a delay phase of the request the run goes on. -/
theorem delay (reached : RequestReaches s p rs es) (phase : DelayPhase p.instr d after)
    (asks : ∀ u : State, u.delayAnswer = false → unanswered p u)
    (running : p ∈ [Phase.rqDirOut, .rqLow, .rqDlyLow, .rqHigh, .rqDlyHigh, .rqDirIn])
    (hi : s.inputs = rs ++ more ++ rest) (elapsed : DelayOver more) :
    runOp inRequest (s.goto .rqDirOut) = runOp inRequest (after
      { s with phase := p.code, inputs := rest, trace := s.trace ++ (es ++ [.delay d]) }) := by
  rw [reached (more ++ rest) (by simp [hi]), ← List.append_assoc]
  exact phase.run asks (fun u hp => inRequest_iff.2 ⟨p, running, hp⟩) rfl rfl elapsed

theorem rqLow (outOk : GpioOk dirOut) : RequestReaches s .rqLow dirOut [.setDir s.pin .output .ok] :=
  fun _ hi => ((start s).gpio rqDirOut_gpioPhase (fun _ => id) (by simp) hi).1 outOk

theorem rqDlyLow (outOk : GpioOk dirOut) (lowOk : GpioOk low) :
    RequestReaches s .rqDlyLow (dirOut ++ low) [.setDir s.pin .output .ok, .setLvl s.pin .low .ok] :=
  fun _ hi => ((rqLow outOk).gpio rqLow_gpioPhase (fun _ => id) (by simp) hi).1 lowOk

theorem rqHigh (outOk : GpioOk dirOut) (lowOk : GpioOk low) (lowOver : DelayOver dlyLow) :
    RequestReaches s .rqHigh (dirOut ++ low ++ dlyLow)
      [.setDir s.pin .output .ok, .setLvl s.pin .low .ok, .delay 3000] :=
  fun _ hi =>
    ((rqDlyLow outOk lowOk).delay rqDlyLow_delayPhase (fun _ => id) (by simp) hi lowOver).trans rfl

theorem rqDlyHigh (outOk : GpioOk dirOut) (lowOk : GpioOk low) (lowOver : DelayOver dlyLow)
    (highOk : GpioOk high) :
    RequestReaches s .rqDlyHigh (dirOut ++ low ++ dlyLow ++ high)
      [.setDir s.pin .output .ok, .setLvl s.pin .low .ok, .delay 3000, .setLvl s.pin .high .ok] :=
  fun _ hi => ((rqHigh outOk lowOk lowOver).gpio rqHigh_gpioPhase (fun _ => id) (by simp) hi).1 highOk

theorem rqDirIn (outOk : GpioOk dirOut) (lowOk : GpioOk low) (lowOver : DelayOver dlyLow)
    (highOk : GpioOk high) (highOver : DelayOver dlyHigh) :
    RequestReaches s .rqDirIn (dirOut ++ low ++ dlyLow ++ high ++ dlyHigh)
      [.setDir s.pin .output .ok, .setLvl s.pin .low .ok, .delay 3000, .setLvl s.pin .high .ok, .delay 20] :=
  fun _ hi => ((rqDlyHigh outOk lowOk lowOver highOk).delay rqDlyHigh_delayPhase (fun _ => id)
    (by simp) hi highOver).trans rfl

end RequestReaches

/-- Settles O15: the request reaches phase after phase; the last hands over to the wait HS_RISE, and each of
the four GPIO phases that fails ends it. -/
theorem requestReadingsRun : Obligations.RequestReadingsRun := by
  intro s rs rest hi
  have meaning : exec .requestReadings s = .next (runOp inRequest (s.goto .rqDirOut)) := rfl
  rw [meaning]
  constructor
  · rintro ⟨_, _, _, _, _, _, rfl, outOk, lowOk, lowOver, highOk, highOver, inOk⟩
    have reached := RequestReaches.rqDirIn (s := s) outOk lowOk lowOver highOk highOver
    rw [(reached.gpio rqDirIn_gpioPhase (fun _ => id) (by simp) hi).1 inOk, runOp_stop rfl]
    rfl
  · rintro es (⟨outFails, rfl⟩ | ⟨_, _, rfl, outOk, lowFails, rfl⟩ |
      ⟨_, _, _, _, rfl, outOk, lowOk, lowOver, highFails, rfl⟩ |
      ⟨_, _, _, _, _, _, rfl, outOk, lowOk, lowOver, highOk, highOver, inFails, rfl⟩)
    · have reached := RequestReaches.start s
      exact congrArg _ ((reached.gpio rqDirOut_gpioPhase (fun _ => id) (by simp) hi).2 outFails)
    · have reached := RequestReaches.rqLow (s := s) outOk
      exact congrArg _ ((reached.gpio rqLow_gpioPhase (fun _ => id) (by simp) hi).2 lowFails)
    · have reached := RequestReaches.rqHigh (s := s) outOk lowOk lowOver
      exact congrArg _ ((reached.gpio rqHigh_gpioPhase (fun _ => id) (by simp) hi).2 highFails)
    · have reached := RequestReaches.rqDirIn (s := s) outOk lowOk lowOver highOk highOver
      exact congrArg _ ((reached.gpio rqDirIn_gpioPhase (fun _ => id) (by simp) hi).2 inFails)

/-! ### READ whose request fails -/

/-- REQUEST_READINGS of an accepted READ is the run of the request from there (30_encoding R97). -/
theorem exec_requestReadings_of_accepted (s : State) (pin : Pin) :
    exec .requestReadings (s.acceptRead pin).tick = .next (runOp inRequest (s.acceptRead pin).tick) := by
  obtain ⟨-, meaning⟩ := requestReadings_startsAt (s.acceptRead pin).tick (inPhase_iff.2 rfl)
  exact meaning

/-- Settles O37: after its acceptance READ runs through REQUEST_READINGS, which ends the command. -/
theorem readFailsFast : Obligations.ReadFailsFast := by
  intro s pin r0 req rest es free hi noReset fails
  have hr : s.rstAsserted = false := (State.rstAsserted_cons hi).trans noReset
  have accepted : (s.acceptRead pin).tick.inputs = req ++ rest := by simp [hi]
  have request := (requestReadingsRun _ req rest accepted).2 es fails
  rw [exec_requestReadings_of_accepted, Host.Outcome.next.injEq] at request
  rw [exec_read free hr, runOp_through (fun _ => busy_of_inRequest), request, runOp_stop rfl]
  simp [ended, State.acceptRead, State.tick]

end Sys2Proof.Machine
end

section
/-! PROOFS. Two waits one after the other, as in AWAIT_DATA and in READ_BIT (30_encoding R97): how a run of any
operation that contains them passes through both, or ends with TIMEOUT at either; and AWAIT_DATA itself
(43_handshake_detector). -/

namespace Sys2Proof.Machine

variable {s : State} {rs rest first second : List Inputs} {w a b : Site} {e e' : Nat} {inOp : State → Bool}

/-! ### One wait, from its start -/

/-- The wait at `w` was entered at `t0`, its last answered poll found `e` elapsed, it has made the entries
`es`, and the records `rest` are left. -/
def State.waited (s : State) (w : Site) (t0 e : Nat) (rest : List Inputs) (es : List Event) : State :=
  { s with site := w, phase := Phase.ewPoll.code, ewT0 := t0, ewElapsed := e, inputs := rest,
           trace := s.trace ++ es }

/-- Where another wait starts from there, the registers of the first are overwritten and the entries add up. -/
theorem State.waited_startWait_waited (s : State) (t0 t0' : Nat) (later : List Inputs) (es es' : List Event) :
    ((s.waited a t0 e later es).startWait b).waited b t0' e' rest es' = s.waited b t0' e' rest (es ++ es') := by
  simp [State.waited, State.startWait]

/-- What `runOp_wait_ok` asks of an operation that contains a wait. -/
theorem of_inWait (within : ∀ u, inWait w u = true → inOp u = true) (u : State) (site : u.site = w)
    (phase : u.phase = Phase.ewEntry.code ∨ u.phase = Phase.ewPoll.code) : inOp u = true :=
  within u (inWait_iff.2 ⟨site, phase⟩)

theorem runOp_startWait_ok (within : ∀ u, inWait w u = true → inOp u = true) (hi : s.inputs = rs ++ rest)
    (ok : WaitOk w rs e) : ∃ t0 es, runOp inOp (s.startWait w) =
      runOp inOp (waitReturnedOk w (s.waited w t0 e rest es)) := by
  obtain ⟨t0, run⟩ := runOp_wait_ok (s := s.startWait w) hi rfl rfl (of_inWait within) ok
  exact ⟨t0, waitEvents s.pin rs, by rw [run, State.waitReturned_eq]; rfl⟩

theorem runOp_startWait_timeout (within : ∀ u, inWait w u = true → inOp u = true)
    (idle : ∀ u : State, u.phase = Phase.idle.code → inOp u = false) (hi : s.inputs = rs ++ rest)
    (late : WaitTimeout w rs) : ∃ t0 e es, runOp inOp (s.startWait w) =
      ended .timeout (s.waited w t0 e rest es) := by
  obtain ⟨t0, e, run⟩ := runOp_wait_timeout (s := s.startWait w) hi rfl rfl (of_inWait within) late
  exact ⟨t0, e, waitEvents s.pin rs, run.trans (runOp_stop (idle _ rfl))⟩

/-! ### Two waits -/

/-- Both return OK: the run goes on where the second returns to. -/
theorem runOp_twoWaits_ok (handsOver : ∀ u, waitReturnedOk a u = u.startWait b)
    (withinFirst : ∀ u, inWait a u = true → inOp u = true)
    (withinSecond : ∀ u, inWait b u = true → inOp u = true) (hi : s.inputs = first ++ second ++ rest)
    (firstOk : WaitOk a first e) (secondOk : WaitOk b second e') : ∃ t0 es,
      runOp inOp (s.startWait a) = runOp inOp (waitReturnedOk b (s.waited b t0 e' rest es)) := by
  obtain ⟨t0, es, run⟩ := runOp_startWait_ok withinFirst (by rw [hi, List.append_assoc]) firstOk
  obtain ⟨t0', es', run'⟩ := runOp_startWait_ok (s := (s.waited a t0 e (second ++ rest) es).startWait b)
    withinSecond rfl secondOk
  refine ⟨t0', es ++ es', ?_⟩
  rw [run, handsOver, ← State.waited_startWait_waited, ← run']
  rfl

/-- The first times out, or the second after the first: the command ends there. -/
theorem runOp_twoWaits_timeout (handsOver : ∀ u, waitReturnedOk a u = u.startWait b)
    (withinFirst : ∀ u, inWait a u = true → inOp u = true)
    (withinSecond : ∀ u, inWait b u = true → inOp u = true)
    (idle : ∀ u : State, u.phase = Phase.idle.code → inOp u = false) (hi : s.inputs = rs ++ rest)
    (late : WaitTimeout a rs ∨
      ∃ first e second, rs = first ++ second ∧ WaitOk a first e ∧ WaitTimeout b second) :
    ∃ w t0 e es, runOp inOp (s.startWait a) = ended .timeout (s.waited w t0 e rest es) := by
  obtain late | ⟨first, e, second, rfl, firstOk, late⟩ := late
  · exact ⟨a, runOp_startWait_timeout withinFirst idle hi late⟩
  · obtain ⟨t0, es, run⟩ := runOp_startWait_ok withinFirst (by rw [hi, List.append_assoc]) firstOk
    obtain ⟨t0', e', es', run'⟩ := runOp_startWait_timeout
      (s := (s.waited a t0 e (second ++ rest) es).startWait b) withinSecond idle rfl late
    refine ⟨b, t0', e', es ++ es', ?_⟩
    rw [run, handsOver, ← State.waited_startWait_waited, ← run']
    rfl

/-! ### AWAIT_DATA -/

theorem inHandshake_of_hsRise (u : State) (h : inWait .hsRise u = true) : inHandshake u = true :=
  Bool.or_eq_true_iff.2 (.inl h)

theorem inHandshake_of_hsFall (u : State) (h : inWait .hsFall u = true) : inHandshake u = true :=
  Bool.or_eq_true_iff.2 (.inr h)

/-- The handshake returned OK hands over to the frame with both counters 0 (43_handshake_detector R142). -/
theorem runOp_handshake_ok (within : ∀ u, inHandshake u = true → inOp u = true) (hi : s.inputs = rs ++ rest)
    (ok : HandshakeOk rs) : ∃ t0 e es, runOp inOp (s.startWait .hsRise) = runOp inOp
      (State.startWait { s.waited .hsFall t0 e rest es with byteIdx := 0, bitIdx := 0 } .bitRise) := by
  obtain ⟨rise, riseTime, fall, fallTime, rfl, riseOk, fallOk⟩ := ok
  obtain ⟨t0, es, run⟩ := runOp_twoWaits_ok (fun _ => rfl) (fun u h => within u (inHandshake_of_hsRise u h))
    (fun u h => within u (inHandshake_of_hsFall u h)) hi riseOk fallOk
  exact ⟨t0, fallTime, es, run⟩

/-- A late handshake ends the command (43_handshake_detector R143). -/
theorem runOp_handshake_timeout (within : ∀ u, inHandshake u = true → inOp u = true)
    (idle : ∀ u : State, u.phase = Phase.idle.code → inOp u = false) (hi : s.inputs = rs ++ rest)
    (late : HandshakeTimeout rs) :
    ∃ w t0 e es, runOp inOp (s.startWait .hsRise) = ended .timeout (s.waited w t0 e rest es) :=
  runOp_twoWaits_timeout (fun _ => rfl) (fun u h => within u (inHandshake_of_hsRise u h))
    (fun u h => within u (inHandshake_of_hsFall u h)) idle hi late

/-- Settles O23: AWAIT_DATA is the run of its two waits; after them, or after TIMEOUT, it is over. -/
theorem awaitDataRun : Obligations.AwaitDataRun := by
  intro s rs rest hi
  have meaning : exec .awaitData s = .next (runOp inHandshake (s.startWait .hsRise)) := rfl
  rw [meaning]
  constructor
  · intro ok
    obtain ⟨t0, e, es, run⟩ := runOp_handshake_ok (fun _ => id) hi ok
    exact ⟨_, congrArg _ (run.trans (runOp_stop rfl)), rfl⟩
  · intro late
    obtain ⟨w, t0, e, es, run⟩ := runOp_handshake_timeout (fun _ => id)
      (fun u idle => by simp [inHandshake, inWait, idle]) hi late
    exact ⟨_, s.trace ++ es, congrArg _ run, rfl⟩

end Sys2Proof.Machine
end

section
/-! PROOFS. Bits read one after another (44_bit_decoder, 45_frame_assembler): a run passes through READ_BIT and
the settle delay, and the buffer holds the bits read so far; and READ with a wait that times out. -/

namespace Sys2Proof.Machine

variable {s t u : State} {pin : Pin} {rest later bits rise fall : List Inputs} {r0 store : Inputs}
  {tHigh riseTime : Nat} {tHighs before : List Nat} {inOp : State → Bool}

/-! ### One bit -/

theorem inBit_of_bitRise (u : State) (h : inWait .bitRise u = true) : inBit u = true := by
  simp [inBit, h]

theorem inBit_of_bitFall (u : State) (h : inWait .bitFall u = true) : inBit u = true := by
  simp [inBit, h]

theorem inFrame_of_inBit (h : inBit u = true) : inFrame u = true :=
  Bool.or_eq_true_iff.2 (.inl h)

/-- The bit read with high time `tHigh` has been stored and the settle delay is due: the waits of its reading
were last entered at `t0` and made the entries `es`. -/
def State.bitTaken (s : State) (tHigh t0 : Nat) (rest : List Inputs) (es : List Event) : State :=
  ((s.orBit (bitValue tHigh)).waited .bitFall t0 tHigh rest es).goto .faSettle

/-- READ_BIT on two waits that return OK stores the bit that the second one's time makes (R151 to R153). -/
theorem runOp_readBit (within : ∀ u, inBit u = true → inOp u = true)
    (hi : s.inputs = rise ++ fall ++ store :: rest) (riseOk : WaitOk .bitRise rise riseTime)
    (fallOk : WaitOk .bitFall fall tHigh) (noReset : store.rst = false) :
    ∃ t0 es, runOp inOp (s.startWait .bitRise) = runOp inOp (s.bitTaken tHigh t0 rest es) := by
  obtain ⟨t0, es, run⟩ := runOp_twoWaits_ok (fun _ => rfl) (fun u h => within u (inBit_of_bitRise u h))
    (fun u h => within u (inBit_of_bitFall u h)) hi riseOk fallOk
  let due : State := (s.waited .bitFall t0 tHigh (store :: rest) es).goto .bitStore
  have stored : seqStep due = s.bitTaken tHigh t0 rest es := seqStep_of_phase (p := .bitStore) rfl noReset
  refine ⟨t0, es, run.trans ?_⟩
  rw [← stored]
  exact runOp_step (s := due) (within _ (inBit_of_bitStore (inPhase_iff.2 rfl))) rfl

/-- A late bit ends the command with nothing stored (44_bit_decoder R157). -/
theorem runOp_readBit_timeout (within : ∀ u, inBit u = true → inOp u = true)
    (idle : ∀ u : State, u.phase = Phase.idle.code → inOp u = false) (hi : s.inputs = bits ++ rest)
    (late : BitTimeout bits) :
    ∃ w t0 e es, runOp inOp (s.startWait .bitRise) = ended .timeout (s.waited w t0 e rest es) :=
  runOp_twoWaits_timeout (fun _ => rfl) (fun u h => within u (inBit_of_bitRise u h))
    (fun u h => within u (inBit_of_bitFall u h)) idle hi late

/-- A bit that is read, with its settle delay (45_frame_assembler R160). -/
theorem runOp_bitRead (within : ∀ u, inFrame u = true → inOp u = true) (hi : s.inputs = bits ++ rest)
    (read : BitRead bits tHigh) : ∃ t0 es,
      runOp inOp (s.startWait .bitRise) = runOp inOp (s.bitTaken tHigh t0 rest es).advanceBit := by
  obtain ⟨rise, riseTime, fall, store, settle, rfl, riseOk, fallOk, noReset, settled⟩ := read
  obtain ⟨t0, es, run⟩ := runOp_readBit (fun u h => within u (inFrame_of_inBit h))
    (rest := settle ++ rest) (by simpa using hi) riseOk fallOk noReset
  refine ⟨t0, es ++ [.delay 10], run.trans ?_⟩
  rw [runOp_delay_over (p := .faSettle) (fun _ => rfl) rfl rfl
    (fun _ => within _ (Bool.or_eq_true_iff.2 (.inr (inPhase_iff.2 rfl)))) settled]
  simp [State.bitTaken, State.waited, State.goto, State.orBit, CFG]

/-! ### The bits read so far -/

/-- The bits with these high times stand in the buffer in arrival order, zeros after them (20_memory R64). -/
def State.HoldsBits (s : State) (tHighs : List Nat) : Prop :=
  ∀ n : Fin 40, frameBit s.buf n = if h : n.val < tHighs.length then decide (40 ≤ tHighs[n.val]) else false

/-- The counters name the place of the bit after these (44_bit_decoder R153). -/
def State.AtBit (s : State) (n : Nat) : Prop := 8 * s.byteIdx.val + s.bitIdx.val = n

theorem State.holdsBits_nil (zero : s.buf = #v[0#8, 0#8, 0#8, 0#8, 0#8]) : s.HoldsBits [] := by
  intro n
  rw [zero, frameBit_zero]
  rfl

/-- The decision boundary written out (44_bit_decoder R153). -/
theorem bitValue_eq (tHigh : Nat) : bitValue tHigh = decide (40 ≤ tHigh) := rfl

/-- The bit stored at its place comes after those read before. -/
theorem State.HoldsBits.orBit (held : s.HoldsBits before) (place : s.AtBit before.length) (tHigh : Nat) :
    (s.orBit (bitValue tHigh)).HoldsBits (before ++ [tHigh]) := by
  intro n
  rw [frameBit_orBit, place, held n]
  obtain earlier | here | after := Nat.lt_trichotomy n.val before.length
  · rw [if_neg (Nat.ne_of_lt earlier), dif_pos earlier, dif_pos (by simp; omega), List.getElem_append_left]
  · simp [here, bitValue_eq]
  · rw [if_neg (Nat.ne_of_gt after), dif_neg (Nat.lt_asymm after), dif_neg (by simp; omega)]

/-- Before the fortieth bit the counters advance to the next place and the next bit starts (R163). -/
theorem State.advanceBit_of_more {n : Nat} (place : s.AtBit n) (more : n + 1 < 40) :
    ∃ byte bit, s.advanceBit = State.startWait { s with byteIdx := byte, bitIdx := bit } .bitRise ∧
      State.AtBit { s with byteIdx := byte, bitIdx := bit } (n + 1) := by
  unfold State.AtBit at place ⊢
  obtain ⟨h, e⟩ | ⟨bit, h, e⟩ | ⟨bit, byte, -⟩ := s.advanceBit_cases
  · exact ⟨_, _, e, by simp; omega⟩
  · exact ⟨_, _, e, by simp; omega⟩
  · omega

/-- The registers that no step of a handshake or a frame writes while the command runs. -/
def State.heldRegs (s : State) : Pin × Status × Bool × BitVec 16 × Bool × BitVec 15 × Byte :=
  (s.pin, s.status, s.done, s.rdHumidity, s.rdTempNeg, s.rdTempMag, s.rdChecksum)

/-- The command that stood in `s` has come to `t` with the records `rest` left. -/
structure State.GoesOnTo (s : State) (rest : List Inputs) (t : State) : Prop where
  heldRegs : t.heldRegs = s.heldRegs
  trace : s.trace <+: t.trace
  inputs : t.inputs = rest

theorem State.GoesOnTo.trans (first : s.GoesOnTo rest t) (second : t.GoesOnTo later u) : s.GoesOnTo later u :=
  ⟨second.heldRegs.trans first.heldRegs, first.trace.trans second.trace, second.inputs⟩

/-- A run reads the bits of an unfinished frame one after another (45_frame_assembler R160 to R163). -/
theorem runOp_bitsRead (within : ∀ u, inFrame u = true → inOp u = true) (read : BitsRead bits tHighs)
    (hi : s.inputs = bits ++ rest) (held : s.HoldsBits before) (place : s.AtBit before.length)
    (more : before.length + tHighs.length < 40) :
    ∃ t, runOp inOp (s.startWait .bitRise) = runOp inOp (t.startWait .bitRise) ∧ s.GoesOnTo rest t ∧
      t.HoldsBits (before ++ tHighs) ∧ t.AtBit (before ++ tHighs).length := by
  induction tHighs generalizing s bits before with
  | nil =>
    obtain rfl : bits = [] := read
    exact ⟨s, rfl, ⟨rfl, List.prefix_rfl, hi⟩, by simpa using held, by simpa using place⟩
  | cons tHigh tHighs ih =>
    obtain ⟨bit, bits, rfl, bitRead, read⟩ := read
    obtain ⟨t0, es, run⟩ := runOp_bitRead within (rest := bits ++ rest) (by simpa using hi) bitRead
    obtain ⟨byteIdx, bitIdx, next, nextPlace⟩ :=
      State.advanceBit_of_more (s := s.bitTaken tHigh t0 (bits ++ rest) es) place
        (by rw [List.length_cons] at more; omega)
    let taken : State :=
      { s.bitTaken tHigh t0 (bits ++ rest) es with byteIdx := byteIdx, bitIdx := bitIdx }
    have takenHolds : taken.HoldsBits (before ++ [tHigh]) := held.orBit place tHigh
    have goesOn : s.GoesOnTo (bits ++ rest) taken := ⟨rfl, List.prefix_append _ _, rfl⟩
    obtain ⟨t, run', goesOn', holds, atBit⟩ := ih (s := taken) (before := before ++ [tHigh]) read rfl
      takenHolds (by simpa using nextPlace) (by simp at more ⊢; omega)
    rw [List.append_assoc] at holds atBit
    exact ⟨t, by rw [run, next, run'], goesOn.trans goesOn', holds, atBit⟩

/-! ### READ -/

theorem not_busy_of_idle (u : State) (idle : u.phase = Phase.idle.code) : u.busy = false := by
  simp [State.busy, idle]

/-- READ whose request is answered well comes to the start of the handshake. -/
theorem exec_read_of_requestOk {req : List Inputs} (free : s.busy = false)
    (hi : s.inputs = r0 :: (req ++ rest)) (noReset : r0.rst = false) (request : RequestOk req) (pin : Pin) :
    ∃ u, exec (.read pin) s = .next (runOp State.busy (u.startWait .hsRise)) ∧
      (s.acceptRead pin).GoesOnTo rest u ∧ u.buf = #v[0#8, 0#8, 0#8, 0#8, 0#8] := by
  have hr : s.rstAsserted = false := (State.rstAsserted_cons hi).trans noReset
  have accepted : (s.acceptRead pin).tick.inputs = req ++ rest := by simp [hi]
  have requested := (requestReadingsRun _ req rest accepted).1 request
  rw [exec_requestReadings_of_accepted, Host.Outcome.next.injEq] at requested
  rw [exec_read free hr, runOp_through (fun _ => busy_of_inRequest), requested]
  exact ⟨{ s.acceptRead pin with inputs := rest, trace := (s.acceptRead pin).trace ++ _ }, rfl,
    ⟨rfl, List.prefix_append _ _, rfl⟩, rfl⟩

/-- READ whose handshake is answered well too comes to the start of the frame. -/
theorem exec_read_of_handshakeOk {req hs : List Inputs} (free : s.busy = false)
    (hi : s.inputs = r0 :: (req ++ (hs ++ rest))) (noReset : r0.rst = false) (request : RequestOk req)
    (handshake : HandshakeOk hs) (pin : Pin) :
    ∃ u, exec (.read pin) s = .next (runOp State.busy (u.startWait .bitRise)) ∧
      (s.acceptRead pin).GoesOnTo rest u ∧ u.HoldsBits [] ∧ u.AtBit 0 := by
  obtain ⟨u, run, goesOn, zero⟩ := exec_read_of_requestOk free hi noReset request pin
  obtain ⟨t0, e, es, run'⟩ := runOp_handshake_ok (fun _ => busy_of_inHandshake) goesOn.inputs handshake
  refine ⟨{ u.waited .hsFall t0 e rest es with byteIdx := 0, bitIdx := 0 }, by rw [run, run'], ?_,
    State.holdsBits_nil zero, rfl⟩
  exact goesOn.trans ⟨rfl, List.prefix_append _ _, rfl⟩

/-- A wait of an accepted READ that times out leaves the reading zero and the buffer as it was (60_exceptions
R218). -/
theorem readTimedOut_of_goesOnTo {late : List Inputs} {w : Site} {t0 e : Nat} {es : List Event}
    (goesOn : (s.acceptRead pin).GoesOnTo late u) (held : u.HoldsBits tHighs)
    (ends : t = ended .timeout (u.waited w t0 e rest es)) :
    ∃ before, t.phase = Phase.idle.code ∧ t.done = true ∧ t.status = .timeout ∧ t.pin = pin ∧
      t.rdHumidity = 0#16 ∧ t.rdTempNeg = false ∧ t.rdTempMag = 0#15 ∧ t.rdChecksum = 0#8 ∧
      t.inputs = rest ∧ t.trace = s.trace ++ .cmd .read pin :: before ++ [.fin .timeout] ∧
      t.HoldsBits tHighs := by
  obtain ⟨regs, ⟨made, trace⟩, -⟩ := goesOn
  simp only [State.heldRegs, Prod.mk.injEq] at regs
  obtain ⟨hpin, -, -, humidity, neg, mag, checksum⟩ := regs
  subst ends
  exact ⟨made ++ es, rfl, rfl, rfl, hpin, humidity, neg, mag, checksum, rfl,
    by simp [ended, State.waited, ← trace], held⟩

/-- Settles O38: READ comes to the two waits of the handshake, or past it to those of a bit, and one of the two
times out. -/
theorem readTimesOut : Obligations.ReadTimesOut := by
  rintro s pin r0 req late rest tHighs free noReset request
    (⟨hi, timeout, rfl⟩ | ⟨hs, bits, last, hi, handshake, read, more, timeout⟩)
  · obtain ⟨u, run, goesOn, zero⟩ :=
      exec_read_of_requestOk free (rest := late ++ rest) (by simp [hi]) noReset request pin
    obtain ⟨w, t0, e, es, ends⟩ :=
      runOp_handshake_timeout (fun _ => busy_of_inHandshake) not_busy_of_idle goesOn.inputs timeout
    obtain ⟨before, facts⟩ := readTimedOut_of_goesOnTo goesOn (State.holdsBits_nil zero) ends
    exact ⟨_, before, run, facts⟩
  · obtain ⟨u, run, goesOn, empty, start⟩ := exec_read_of_handshakeOk free
      (rest := bits ++ (last ++ rest)) (by simp [hi]) noReset request handshake pin
    obtain ⟨v, run', goesOn', held, -⟩ := runOp_bitsRead (fun _ => busy_of_inFrame) read goesOn.inputs empty
      start (by simpa using more)
    obtain ⟨w, t0, e, es, ends⟩ := runOp_readBit_timeout (fun _ h => busy_of_inFrame (inFrame_of_inBit h))
      not_busy_of_idle goesOn'.inputs timeout
    obtain ⟨before, facts⟩ := readTimedOut_of_goesOnTo (goesOn.trans goesOn') held ends
    exact ⟨_, before, run.trans (congrArg _ run'), facts⟩

end Sys2Proof.Machine
end

section
/-! PROOFS. The Bit Decoder (44_bit_decoder): the step BIT_STORE, and READ_BIT run to its end. -/

namespace Sys2Proof.Machine

/-- The bit READ_BIT stores, with the decision boundary written out (44_bit_decoder R153). -/
theorem frameBit_orBit_bitValue (s : State) (tHigh : Nat) (n : Fin 40) :
    frameBit (s.orBit (bitValue tHigh)).buf n =
      if n.val = 8 * s.byteIdx.val + s.bitIdx.val then frameBit s.buf n || decide (40 ≤ tHigh)
      else frameBit s.buf n :=
  frameBit_orBit s (bitValue tHigh) n

/-- Settles O25: the step is the store of the bit, the transfer to FA_SETTLE and nothing else. -/
theorem bitStoreSetsOneBit : Obligations.BitStoreSetsOneBit := by
  intro s
  have meaning : exec .bitStore s = .next ((s.orBit (bitValue s.ewElapsed)).goto .faSettle).tick := rfl
  exact ⟨_, meaning, rfl, frameBit_orBit_bitValue s s.ewElapsed⟩

/-- Settles O27: READ_BIT is the run of its two waits and BIT_STORE; the stored bit's settle delay is no part of
it, and neither is anything after TIMEOUT. -/
theorem readBitRun : Obligations.ReadBitRun := by
  intro s rest
  have meaning : exec .readBit s = .next (runOp inBit (s.startWait .bitRise)) := rfl
  rw [meaning]
  constructor
  · intro rise fall store riseTime tHigh hi riseOk fallOk noReset
    obtain ⟨t0, es, run⟩ := runOp_readBit (fun _ => id) hi riseOk fallOk noReset
    have returned : inBit (s.bitTaken tHigh t0 rest es) = false := rfl
    exact ⟨_, congrArg _ (run.trans (runOp_stop returned)), rfl, frameBit_orBit_bitValue s tHigh⟩
  · intro rs hi late
    obtain ⟨w, t0, e, es, run⟩ := runOp_readBit_timeout (fun _ => id)
      (fun u idle => by simp [inBit, inWait, idle]) hi late
    exact ⟨_, s.trace ++ es, congrArg _ run, rfl⟩

end Sys2Proof.Machine
end

section
/-! PROOFS. The Frame Assembler (45_frame_assembler): the step FA_SETTLE, the frame and the bits it is made of,
and ASSEMBLE_FRAME run to its end. -/

namespace Sys2Proof.Machine

variable {s t : State} {rest bits : List Inputs} {tHighs : List Nat} {inOp : State → Bool}

/-! ### FA_SETTLE -/

theorem State.advanceBit_of_nextBit (more : s.bitIdx.val < 7) : s.advanceBit =
    State.startWait { s with bitIdx := ⟨s.bitIdx.val + 1, by omega⟩ } .bitRise :=
  dif_pos more

theorem State.advanceBit_of_nextByte (lastBit : s.bitIdx = 7) (more : s.byteIdx.val < 4) : s.advanceBit =
    State.startWait { s with bitIdx := 0, byteIdx := ⟨s.byteIdx.val + 1, by omega⟩ } .bitRise :=
  (dif_neg (by simp [lastBit])).trans (dif_pos more)

theorem State.advanceBit_of_frameComplete (lastBit : s.bitIdx = 7) (lastByte : s.byteIdx = 4) :
    s.advanceBit = s.goto .check :=
  (dif_neg (by simp [lastBit])).trans (dif_neg (by simp [lastByte]))

theorem faSettle_delayPhase : DelayPhase .faSettle 10 State.advanceBit :=
  delayPhase_of_delayStep fun _ => rfl

/-- Settles O26: after the delay the counters advance, or the frame is complete. -/
theorem settleAdvances : Obligations.SettleAdvances := by
  intro s r rest hi acked
  let settled : State := { s with inputs := rest, trace := s.trace ++ [.delay 10] }
  rw [faSettle_delayPhase s r rest hi acked]
  exact ⟨fun more => congrArg _ (State.advanceBit_of_nextBit (s := settled) more),
    fun more lastBit => congrArg _ (State.advanceBit_of_nextByte (s := settled) lastBit more),
    fun lastBit lastByte => congrArg _ (State.advanceBit_of_frameComplete (s := settled) lastBit lastByte)⟩

/-! ### The frame and its bits -/

theorem byteOf_concat (tHighs : List Nat) (tHigh : Nat) :
    byteOf (tHighs ++ [tHigh]) = byteOf tHighs <<< 1 ||| (if bitValue tHigh then 1#8 else 0#8) := by
  simp [byteOf]

/-- The last high time makes the least significant bit of the byte (45_frame_assembler R162). -/
theorem getLsbD_byteOf (tHighs : List Nat) {k : Nat} (hk : k < 8) :
    (byteOf tHighs).getLsbD k = tHighs.reverse[k]?.any bitValue := by
  induction tHighs using List.reverseRecOn generalizing k with
  | nil => simp [byteOf]
  | append_singleton tHighs tHigh ih =>
    rw [byteOf_concat, List.reverse_append, List.reverse_singleton, List.singleton_append]
    cases k with
    | zero => cases h : bitValue tHigh <;> simp [h]
    | succ k =>
      have low : (if bitValue tHigh then 1#8 else 0#8).getLsbD (k + 1) = false := by
        cases bitValue tHigh <;> simp
      rw [BitVec.getLsbD_or, low, BitVec.getLsbD_shiftLeft, Nat.add_sub_cancel, ih (by omega)]
      simp [hk]

theorem getElem_frameOf (tHighs : List Nat) {i : Nat} (hi : i < 5) :
    (frameOf tHighs)[i] = byteOf ((tHighs.drop (8 * i)).take 8) := by
  interval_cases i <;> rfl

/-- The bit with arrival index `n` is the decision on the `n`-th high time (20_memory R64, 44_bit_decoder
R153). -/
theorem frameBit_frameOf (full : tHighs.length = 40) (n : Fin 40) :
    frameBit (frameOf tHighs) n = decide (40 ≤ tHighs[n.val]) := by
  have place : 8 * (n.val / 8) + n.val % 8 = n.val := Nat.div_add_mod n.val 8
  have length : ((tHighs.drop (8 * (n.val / 8))).take 8).length = 8 := by simp [full]; omega
  have arrived : ((tHighs.drop (8 * (n.val / 8))).take 8).reverse[7 - n.val % 8]? = some tHighs[n.val] := by
    rw [List.getElem?_reverse (by omega), length, List.getElem?_take_of_lt (by omega), List.getElem?_drop,
      show 8 * (n.val / 8) + (8 - 1 - (7 - n.val % 8)) = n.val by omega, List.getElem?_eq_getElem]
  rw [frameBit, getElem_frameOf, getLsbD_byteOf _ (by omega), arrived]
  exact bitValue_eq _

/-- A buffer is its forty bits. -/
theorem eq_of_frameBit_eq {a b : Vector Byte 5} (same : ∀ n, frameBit a n = frameBit b n) : a = b := by
  refine Vector.ext fun i hi => BitVec.eq_of_getLsbD_eq fun k hk => ?_
  have bit := same ⟨8 * i + (7 - k), by omega⟩
  simpa only [frameBit, show (8 * i + (7 - k)) / 8 = i by omega,
    show 7 - (8 * i + (7 - k)) % 8 = k by omega] using bit

theorem State.HoldsBits.buf_eq (held : s.HoldsBits tHighs) (full : tHighs.length = 40) :
    s.buf = frameOf tHighs :=
  eq_of_frameBit_eq fun n => by rw [held n, dif_pos (by omega), frameBit_frameOf full]

/-! ### The fortieth bit -/

/-- The last of the bits read is read after the others. -/
theorem bitsRead_concat {tHigh : Nat} (read : BitsRead bits (tHighs ++ [tHigh])) :
    ∃ first bit, bits = first ++ bit ∧ BitsRead first tHighs ∧ BitRead bit tHigh := by
  induction tHighs generalizing bits with
  | nil =>
    obtain ⟨bit, _, rfl, bitRead, rfl⟩ := read
    exact ⟨[], bit, by simp, rfl, bitRead⟩
  | cons t0 tHighs ih =>
    obtain ⟨bit0, _, rfl, bitRead0, later⟩ := read
    obtain ⟨first, bit, rfl, firstRead, bitRead⟩ := ih later
    exact ⟨bit0 ++ first, bit, by simp, ⟨bit0, first, rfl, bitRead0, firstRead⟩, bitRead⟩

theorem State.AtBit.last (place : s.AtBit 39) : s.byteIdx = 4 ∧ s.bitIdx = 7 := by
  unfold State.AtBit at place
  omega

/-- The whole frame stands in the buffer and waits for CHECK. -/
structure State.FrameComplete (s : State) (tHighs : List Nat) : Prop where
  phase : s.phase = Phase.check.code
  site : s.site = .bitFall
  byteIdx : s.byteIdx = 4
  bitIdx : s.bitIdx = 7
  buf : s.buf = frameOf tHighs

/-- A run that reads forty bits into a zero buffer comes to CHECK with the frame they make (45_frame_assembler
R160 to R163). -/
theorem runOp_frame (within : ∀ u, inFrame u = true → inOp u = true) (read : BitsRead bits tHighs)
    (full : tHighs.length = 40) (hi : s.inputs = bits ++ rest) (empty : s.HoldsBits []) (start : s.AtBit 0) :
    ∃ t, runOp inOp (s.startWait .bitRise) = runOp inOp t ∧ s.GoesOnTo rest t ∧ t.FrameComplete tHighs := by
  obtain ⟨before, tHigh, rfl⟩ : ∃ before tHigh, tHighs = before ++ [tHigh] :=
    (List.eq_nil_or_concat' tHighs).resolve_left (by rintro rfl; simp at full)
  have length : before.length = 39 := by simpa using full
  obtain ⟨first, bit, rfl, firstRead, bitRead⟩ := bitsRead_concat read
  obtain ⟨u, run, goesOn, held, place⟩ := runOp_bitsRead within firstRead (rest := bit ++ rest)
    (by simp [hi]) empty start (by simp [length])
  rw [List.nil_append] at held place
  obtain ⟨lastByte, lastBit⟩ := State.AtBit.last (length ▸ place)
  obtain ⟨t0, es, run'⟩ := runOp_bitRead within goesOn.inputs bitRead
  rw [State.advanceBit_of_frameComplete (s := u.bitTaken tHigh t0 rest es) lastBit lastByte] at run'
  exact ⟨_, run.trans run', goesOn.trans ⟨rfl, List.prefix_append _ _, rfl⟩,
    rfl, rfl, lastByte, lastBit, (held.orBit place tHigh).buf_eq full⟩

/-! ### ASSEMBLE_FRAME -/

/-- What a command that goes on can have written. -/
theorem State.GoesOnTo.eq (goesOn : s.GoesOnTo rest t) :
    t = { s with
      phase := t.phase, site := t.site, buf := t.buf, byteIdx := t.byteIdx, bitIdx := t.bitIdx,
      ewT0 := t.ewT0, ewElapsed := t.ewElapsed, inputs := rest, trace := t.trace } := by
  obtain ⟨regs, -, inputs⟩ := goesOn
  simp only [State.heldRegs, Prod.mk.injEq] at regs
  obtain ⟨pin, status, done, humidity, neg, mag, checksum⟩ := regs
  rw [← inputs, ← pin, ← status, ← done, ← humidity, ← neg, ← mag, ← checksum]

/-- Settles O29: forty bits make the frame, and a bit that comes late ends the command where it stands. -/
theorem assembleFrameRun : Obligations.AssembleFrameRun := by
  intro s bits rest tHighs read zero
  let entry : State := { s with byteIdx := 0, bitIdx := 0 }
  have meaning : exec .assembleFrame s = .next (runOp inFrame (entry.startWait .bitRise)) := rfl
  have empty : entry.HoldsBits [] := State.holdsBits_nil zero
  rw [meaning]
  constructor
  · intro full hi
    obtain ⟨t, run, goesOn, phase, site, byteIdx, bitIdx, buf⟩ :=
      runOp_frame (fun _ => id) read full (s := entry) hi empty rfl
    have left : inFrame t = false := by simp [inFrame, inBit, inWait, phase]
    refine ⟨t, congrArg _ (run.trans (runOp_stop left)), ?_, fun n h _ => frameBit_frameOf full ⟨n, h⟩⟩
    simpa only [phase, site, byteIdx, bitIdx, buf] using goesOn.eq
  · intro last more hi late
    obtain ⟨u, run, goesOn, held, place⟩ := runOp_bitsRead (fun _ => id) read (s := entry)
      (rest := last ++ rest) (by simp [entry, hi]) empty rfl (by simpa using more)
    obtain ⟨w, t0, e, es, run'⟩ := runOp_readBit_timeout (fun _ => inFrame_of_inBit)
      (fun v idle => by simp [inFrame, inBit, inWait, idle]) goesOn.inputs late
    refine ⟨_, u.trace ++ es, congrArg _ (run.trans run'), ?_, place, held⟩
    conv_lhs => rw [goesOn.eq]
    rfl

end Sys2Proof.Machine
end

section
/-! PROOFS. The counts of a READ's trace (45_frame_assembler R167, 95 V50): how many entries of each kind it has
made is a function of where it stands, every step of the busy block keeps this, and a READ whose frame arrives
whole ends in CHECK or in DECODE. -/

namespace Sys2Proof.Machine

variable {s t : State} {p q : Phase} {base es new : List Event} {inOp : State → Bool} {P : State → Prop}
  {chk dec r0 : Inputs} {rest req hs bits : List Inputs} {tHighs : List Nat}

/-! ### Counting entries -/

/-- How many entries of each kind a list of them has: `SETDIR` or `SETLVL`, `DELAY(3000)`, `DELAY(20)`, `NOW`,
`DELAY(10)`, `FIN`. -/
structure Counts where
  gpio : Nat
  lowPulse : Nat
  release : Nat
  now : Nat
  settle : Nat
  fin : Nat

def Counts.add (a b : Counts) : Counts where
  gpio := a.gpio + b.gpio
  lowPulse := a.lowPulse + b.lowPulse
  release := a.release + b.release
  now := a.now + b.now
  settle := a.settle + b.settle
  fin := a.fin + b.fin

def countsOf (es : List Event) : Counts where
  gpio := countEvents Event.isGpio es
  lowPulse := countEvents (Event.isDelay 3000) es
  release := countEvents (Event.isDelay 20) es
  now := countEvents Event.isNow es
  settle := countEvents (Event.isDelay 10) es
  fin := countEvents Event.isFin es

theorem countEvents_append (kind : Event → Bool) (es new : List Event) :
    countEvents kind (es ++ new) = countEvents kind es + countEvents kind new := by
  simp [countEvents]

theorem countsOf_append (es new : List Event) : countsOf (es ++ new) = (countsOf es).add (countsOf new) := by
  simp only [countsOf, Counts.add, countEvents_append]

/-! ### Where a READ stands and what it has made -/

/-- The waits of a READ that come before the one at `w` for bit `n`. -/
def waitsBefore (w : Site) (n : Nat) : Nat :=
  match w with
  | .hsRise => 0
  | .hsFall => 1
  | .bitRise => 2 * n + 2
  | .bitFall => 2 * n + 3

/-- The settle delays of a READ that come before the wait at `w` for bit `n`. -/
def settlesBefore (w : Site) (n : Nat) : Nat :=
  match w with
  | .hsRise | .hsFall => 0
  | .bitRise | .bitFall => n

/-- What a READ has made that stands in phase `p`, at site `w` and bit `n`. -/
def countsAt (p : Phase) (w : Site) (n : Nat) : Counts :=
  match p with
  | .idle | .initDir | .initLvl | .rqDirOut => ⟨0, 0, 0, 0, 0, 0⟩
  | .rqLow => ⟨1, 0, 0, 0, 0, 0⟩
  | .rqDlyLow => ⟨2, 0, 0, 0, 0, 0⟩
  | .rqHigh => ⟨2, 1, 0, 0, 0, 0⟩
  | .rqDlyHigh => ⟨3, 1, 0, 0, 0, 0⟩
  | .rqDirIn => ⟨3, 1, 1, 0, 0, 0⟩
  | .ewEntry => ⟨4, 1, 1, waitsBefore w n, settlesBefore w n, 0⟩
  | .ewPoll => ⟨4, 1, 1, waitsBefore w n + 1, settlesBefore w n, 0⟩
  | .bitStore | .faSettle => ⟨4, 1, 1, 2 * n + 4, n, 0⟩
  | .check | .decode => ⟨4, 1, 1, 82, 40, 0⟩

def State.countsAt (s : State) (p : Phase) : Counts :=
  Machine.countsAt p s.site (8 * s.byteIdx.val + s.bitIdx.val)

/-- In EW_POLL one wait has been entered and not yet answered with its level. -/
def openWaits : Phase → Nat
  | .ewPoll => 1
  | _ => 0

/-- A READ runs in phase `p` and has made the entries `es` since the trace was `base`. -/
structure State.Reading (s : State) (base : List Event) (p : Phase) (es : List Event) : Prop where
  phase : s.phase = p.code
  inRead : s.inRead = true
  trace : s.trace = base ++ es
  made : countsOf es = s.countsAt p
  polled : countEvents Event.isNow es ≤ countEvents Event.isSample es + openWaits p

/-- The entries of a READ whose frame has arrived whole. -/
structure WholeFrame (es : List Event) : Prop where
  counts : countsOf es = ⟨4, 1, 1, 82, 40, 0⟩
  samples : 82 ≤ countEvents Event.isSample es

/-- The READ begun when the trace was `base` is running, has ended with a whole frame in its trace, or was cut
short: by a reset, a failing request or a wait that timed out. -/
inductive State.OnRead (base : List Event) (s : State) : Prop
  | running (p : Phase) (es : List Event) (reading : s.Reading base p es)
  | complete (es : List Event) (idle : s.phase = Phase.idle.code)
      (trace : s.trace = base ++ es ++ [.fin s.status]) (whole : WholeFrame es)
  | cutShort (idle : s.phase = Phase.idle.code)
      (why : s.done = false ∨ s.status = .gpioError ∨ s.status = .timeout)

/-! ### Every step keeps the account -/

namespace State.Reading

/-- A step that makes the entries `new` comes to the place they lead to. -/
theorem advance (reading : s.Reading base p es) (phase : t.phase = q.code)
    (inRead : t.inRead = true) (trace : t.trace = s.trace ++ new)
    (made : (s.countsAt p).add (countsOf new) = t.countsAt q)
    (polled : openWaits p + countEvents Event.isNow new ≤ countEvents Event.isSample new + openWaits q) :
    t.OnRead base := by
  refine .running q (es ++ new) ⟨phase, inRead, ?_, ?_, ?_⟩
  · rw [trace, reading.trace, List.append_assoc]
  · rw [countsOf_append, reading.made, made]
  · have := reading.polled
    rw [countEvents_append, countEvents_append]
    omega

theorem wholeFrame (reading : s.Reading base p es) (checking : p = .check ∨ p = .decode) : WholeFrame es := by
  have counts : countsOf es = ⟨4, 1, 1, 82, 40, 0⟩ := by
    obtain rfl | rfl := checking <;> exact reading.made
  have polled : countEvents Event.isNow es ≤ countEvents Event.isSample es := by
    obtain rfl | rfl := checking <;> exact reading.polled
  exact ⟨counts, (congrArg Counts.now counts).ge.trans polled⟩

/-- A step of the running READ, by its cases. -/
theorem step (reading : s.Reading base p es) (taken : StepCase s p t) : t.OnRead base := by
  have inRead := (State.inRead_iff reading.phase).1 reading.inRead
  cases taken with
  | acceptInit | acceptRead | stayIdle | initDirOk | initLvlOk => simp at inRead
  | held =>
    exact reading.advance reading.phase reading.inRead (List.append_nil _).symm rfl (by simp [countEvents])
  | rqDirOutOk | rqLowOk | rqDlyLowOver | rqHighOk | rqDlyHighOver | stamped =>
    exact reading.advance (State.goto_phase _ _) rfl rfl rfl le_rfl
  | rqDirInOk | nextBit => exact reading.advance (q := .ewEntry) rfl rfl rfl rfl le_rfl
  | hsRiseOk _ _ _ _ site | hsFallOk _ _ _ _ site | bitRiseOk _ _ _ _ site =>
    exact reading.advance (q := .ewEntry) rfl rfl rfl (by simp only [State.countsAt, site]; rfl) le_rfl
  | bitFallOk _ _ _ _ site =>
    exact reading.advance (q := .bitStore) rfl rfl rfl (by simp only [State.countsAt, site]; rfl) le_rfl
  | pollAgain => exact reading.advance reading.phase reading.inRead rfl rfl (Nat.le_succ 1)
  | stored => exact reading.advance (q := .faSettle) rfl rfl (List.append_nil _).symm rfl le_rfl
  | nextByte _ bit =>
    exact reading.advance (q := .ewEntry) rfl rfl rfl (by simp only [State.countsAt, bit]; rfl) le_rfl
  | frameComplete _ bit byte =>
    exact reading.advance (q := .check) rfl rfl rfl (by simp only [State.countsAt, bit, byte]; rfl) le_rfl
  | checkPass => exact reading.advance (q := .decode) rfl rfl (List.append_nil _).symm rfl le_rfl
  | checkFail => exact .complete es rfl (congrArg (· ++ _) reading.trace) (reading.wholeFrame (.inl rfl))
  | decoded => exact .complete es rfl (congrArg (· ++ _) reading.trace) (reading.wholeFrame (.inr rfl))
  | dirFail | levelFail => exact .cutShort rfl (.inr (.inl rfl))
  | waitTimeout => exact .cutShort rfl (.inr (.inr rfl))

end State.Reading

theorem State.OnRead.step (account : s.OnRead base) (busy : s.busy = true) : (seqStep s).OnRead base := by
  have notIdle : s.phase ≠ Phase.idle.code := fun idle => by simp [State.busy, idle] at busy
  obtain ⟨p, es, reading⟩ | ⟨_, idle⟩ | ⟨idle⟩ := account
  · cases hr : s.rstAsserted with
    | true => exact .cutShort (by rw [seqStep_of_rst hr]; rfl) (.inl (by rw [seqStep_of_rst hr]; rfl))
    | false => exact seqStep_of_phase reading.phase hr ▸ reading.step (phaseStep_case p s)
  · exact absurd idle notIdle
  · exact absurd idle notIdle

/-- What the steps of an operation keep while it runs, its run keeps. -/
theorem runOp_induction (step : ∀ u, inOp u = true → P u → P (seqStep u)) (start : P s) :
    P (runOp inOp s) := by
  have go : ∀ n u, P u → P (runWhile inOp n u) := by
    intro n
    induction n with
    | zero => exact fun u hu => hu
    | succ n ih =>
      intro u hu
      unfold runWhile
      split
      case isTrue running => exact ih _ (step u running hu)
      case isFalse => exact hu
  exact go _ s start

/-- The account of a READ holds to its end, in every environment. -/
theorem exec_read_onRead {pin : Pin} (free : s.busy = false) (hr : s.rstAsserted = false)
    (run : exec (.read pin) s = .next t) : t.OnRead (s.trace ++ [.cmd .read pin]) := by
  obtain rfl := Host.Outcome.next.inj ((exec_read free hr pin).symm.trans run)
  exact runOp_induction (fun u busy account => account.step busy)
    (.running .rqDirOut [] ⟨rfl, rfl, (List.append_nil _).symm, rfl, le_rfl⟩)

/-! ### READ of a complete frame -/

/-- READ whose frame arrives whole comes to CHECK with it. -/
theorem exec_read_of_frame (free : s.busy = false) (hi : s.inputs = r0 :: (req ++ (hs ++ (bits ++ rest))))
    (noReset : r0.rst = false) (request : RequestOk req) (handshake : HandshakeOk hs)
    (read : BitsRead bits tHighs) (full : tHighs.length = 40) (pin : Pin) :
    ∃ u, exec (.read pin) s = .next (runOp State.busy u) ∧ (s.acceptRead pin).GoesOnTo rest u ∧
      u.FrameComplete tHighs := by
  obtain ⟨u, run, goesOn, empty, start⟩ := exec_read_of_handshakeOk free hi noReset request handshake pin
  obtain ⟨v, run', goesOn', frame⟩ :=
    runOp_frame (fun _ => busy_of_inFrame) read full goesOn.inputs empty start
  exact ⟨v, run.trans (congrArg _ run'), goesOn.trans goesOn', frame⟩

/-- CHECK that does not pass ends the command (46_checksum_validator R171). -/
theorem runOp_busy_of_badChecksum (checking : s.phase = Phase.check.code) (hr : s.rstAsserted = false)
    (invalid : checksumValid s.buf = false) :
    runOp State.busy s = { s with rdChecksum := s.buf[4] }.tick.finish .badChecksum := by
  obtain ⟨valid, -⟩ | ⟨-, checked⟩ := checkStep_cases s
  · simp [invalid] at valid
  · rw [runOp_unfold (busy_of_inPhase (by decide) (inPhase_iff.2 checking)), seqStep_of_phase checking hr,
      phaseStep, checked]
    exact runOp_stop rfl

/-- CHECK that passes leads to DECODE, which ends the command (47_reading_decoder R186). -/
theorem runOp_busy_of_checksumValid (checking : s.phase = Phase.check.code)
    (hi : s.inputs = chk :: dec :: rest) (noReset : chk.rst = false) (noReset' : dec.rst = false)
    (valid : checksumValid s.buf = true) :
    runOp State.busy s = ({ s with rdChecksum := s.buf[4] }.tick.latchReading.finish .ok).tick := by
  obtain ⟨-, checked⟩ | ⟨invalid, -⟩ := checkStep_cases s
  · let passed : State := { s with rdChecksum := s.buf[4] }.tick.goto .decode
    have later : passed.rstAsserted = false :=
      (State.rstAsserted_cons (rest := rest) (by simp [passed, hi])).trans noReset'
    rw [runOp_unfold (busy_of_inPhase (by decide) (inPhase_iff.2 checking)),
      seqStep_of_phase checking ((State.rstAsserted_cons hi).trans noReset), phaseStep, checked,
      runOp_unfold (busy_of_inPhase (p := .decode) (by decide) (inPhase_iff.2 rfl)),
      seqStep_of_phase (p := .decode) rfl later]
    exact runOp_stop rfl
  · simp [valid] at invalid

/-- Either way the command has ended, and with a frame. -/
theorem runOp_busy_of_check (checking : s.phase = Phase.check.code) (hi : s.inputs = chk :: dec :: rest)
    (noReset : chk.rst = false) (noReset' : dec.rst = false) :
    let t := runOp State.busy s
    t.phase = Phase.idle.code ∧ t.done = true ∧ (t.status = .ok ∨ t.status = .badChecksum) := by
  cases valid : checksumValid s.buf with
  | true =>
    rw [runOp_busy_of_checksumValid checking hi noReset noReset' valid]
    exact ⟨rfl, rfl, .inl rfl⟩
  | false =>
    rw [runOp_busy_of_badChecksum checking ((State.rstAsserted_cons hi).trans noReset) valid]
    exact ⟨rfl, rfl, .inr rfl⟩

/-- Settles O36: the READ ends with a frame, so its account is that of a whole frame. -/
theorem completeReadCounts : Obligations.CompleteReadCounts := by
  intro s t pin r0 chk dec req hs bits rest tHighs free hi noReset request handshake read full chkReset
    decReset run
  obtain ⟨u, run', goesOn, frame⟩ := exec_read_of_frame free (rest := chk :: dec :: rest) (by simp [hi])
    noReset request handshake read full pin
  obtain rfl := Host.Outcome.next.inj (run'.symm.trans run)
  obtain ⟨idle, done, status⟩ := runOp_busy_of_check frame.phase goesOn.inputs chkReset decReset
  obtain ⟨p, es, reading⟩ | ⟨es, -, trace, counts, samples⟩ | ⟨-, why⟩ :=
    exec_read_onRead free ((State.rstAsserted_cons hi).trans noReset) run
  · exact absurd reading.inRead (by simp [State.inRead_iff idle])
  · simp only [countsOf, Counts.mk.injEq] at counts
    obtain ⟨gpio, lowPulse, release, now, settle, fin⟩ := counts
    exact ⟨es, by simpa using trace, now, settle, release, lowPulse, gpio, samples, fin⟩
  · simp only [done] at why
    obtain ok | bad := status
    · simp [ok] at why
    · simp [bad] at why

end Sys2Proof.Machine
end

section
/-! PROOFS. The Checksum Validator (46_checksum_validator): when the test passes, the step CHECK on either
outcome, and VALIDATE_CHECKSUM as that one step. -/

namespace Sys2Proof

theorem checksumValid_iff {buf : Vector Byte 5} : checksumValid buf = true ↔ buf[4] = checksumOf buf :=
  beq_iff_eq

/-- Dropping the carry at every addition is the sum mod 256 (46_checksum_validator R172). -/
theorem toNat_checksumOf (buf : Vector Byte 5) :
    (checksumOf buf).toNat = (buf[0].toNat + buf[1].toNat + buf[2].toNat + buf[3].toNat) % 256 := by
  simp [checksumOf, BitVec.toNat_add]

theorem checksumValid_iff_toNat {buf : Vector Byte 5} : checksumValid buf = true ↔
    buf[4].toNat = (buf[0].toNat + buf[1].toNat + buf[2].toNat + buf[3].toNat) % 256 := by
  rw [checksumValid_iff, ← toNat_checksumOf, BitVec.toNat_inj]

/-- Settles O31: the byte that passes is the sum of the four data bytes. -/
theorem oneChecksumPerFrame : Obligations.OneChecksumPerFrame := by
  intro b0 b1 b2 b3
  have passes : ∀ c, checksumValid #v[b0, b1, b2, b3, c] = true ↔ c = b0 + b1 + b2 + b3 :=
    fun _ => checksumValid_iff
  exact (existsUnique_congr passes).2 existsUnique_eq

namespace Machine

variable {s : State}

/-- An operation of one phase, which its step leaves, is that step. -/
theorem runOp_goto_inPhase {p : Phase} (noReset : s.rstAsserted = false)
    (leaves : (phaseStep (some p) (s.goto p)).phase ≠ p.code) :
    runOp (inPhase p) (s.goto p) = phaseStep (some p) (s.goto p) := by
  rw [runOp_unfold (inPhase_iff.2 rfl), seqStep_of_phase (s := s.goto p) rfl noReset]
  exact runOp_stop (Bool.eq_false_iff.2 (mt inPhase_iff.1 leaves))

theorem checkStep_of_valid (valid : checksumValid s.buf = true) :
    checkStep s = { s with rdChecksum := s.buf[4] }.tick.goto .decode :=
  if_pos valid

theorem checkStep_of_invalid (invalid : ¬ checksumValid s.buf = true) :
    checkStep s = { s with rdChecksum := s.buf[4] }.tick.finish .badChecksum :=
  if_neg invalid

theorem checkStep_phase_ne_check (s : State) : (checkStep s).phase ≠ Phase.check.code := by
  obtain ⟨-, passed⟩ | ⟨-, failed⟩ := checkStep_cases s
  · simp [passed]
  · simp [failed]

/-- Either way CHECK writes the phase, so it does not matter which phase it starts from. -/
theorem checkStep_goto (s : State) (p : Phase) : checkStep (s.goto p) = checkStep s := by
  by_cases valid : checksumValid s.buf = true
  · rw [checkStep_of_valid valid, checkStep_of_valid (s := s.goto p) valid]; rfl
  · rw [checkStep_of_invalid valid, checkStep_of_invalid (s := s.goto p) valid]; rfl

/-- VALIDATE_CHECKSUM is the one step CHECK (46_checksum_validator R170). -/
theorem exec_validateChecksum (noReset : s.rstAsserted = false) :
    exec .validateChecksum s = .next (checkStep s) := by
  have meaning : exec .validateChecksum s = .next (runOp (inPhase .check) (s.goto .check)) := rfl
  rw [meaning, runOp_goto_inPhase (p := .check) noReset (checkStep_phase_ne_check _), phaseStep, checkStep_goto]

/-- Settles O30: the step by its two outcomes, and the operation, which is that step. -/
theorem checkValidates : Obligations.CheckValidates := by
  intro s u sum
  exact ⟨fun passes => congrArg _ (checkStep_of_valid (checksumValid_iff_toNat.2 passes)),
    fun fails => congrArg _ (checkStep_of_invalid (mt checksumValid_iff_toNat.1 fails)),
    exec_validateChecksum⟩

end Machine

end Sys2Proof
end

section
/-! PROOFS. The Reading Decoder (47_reading_decoder): the numbers its three registers hold, and
DECODE_READING as the one step DECODE. -/

namespace Sys2Proof

/-- A byte behind a word is the word times 256 plus the byte. -/
theorem toNat_append_byte {w : Nat} (high : BitVec w) (low : Byte) :
    (high ++ low).toNat = high.toNat * 256 + low.toNat := by
  rw [BitVec.toNat_append, ← Nat.shiftLeft_add_eq_or_of_lt low.isLt, Nat.shiftLeft_eq]

/-- The humidity word is big-endian (47_reading_decoder R181). -/
theorem toNat_humidityOf (buf : Vector Byte 5) :
    (humidityOf buf).toNat = buf[0].toNat * 256 + buf[1].toNat :=
  toNat_append_byte buf[0] buf[1]

/-- Masking the sign bit of byte 2 keeps its low seven bits (47_reading_decoder R182). -/
theorem toNat_tempMagOf (buf : Vector Byte 5) :
    (tempMagOf buf).toNat = (buf[2] &&& 0x7F#8).toNat * 256 + buf[3].toNat := by
  have masked : (buf[2].extractLsb' 0 7).toNat = (buf[2] &&& 0x7F#8).toNat := by
    rw [BitVec.extractLsb'_toNat, Nat.shiftRight_zero, BitVec.toNat_and]
    exact (Nat.and_two_pow_sub_one_eq_mod _ 7).symm
  rw [← masked]
  exact toNat_append_byte _ _

/-- The top bit of byte 2 says whether the byte is at least 128 (47_reading_decoder R183). -/
theorem tempNegOf_eq_decide (buf : Vector Byte 5) : tempNegOf buf = decide (128 ≤ buf[2].toNat) :=
  (BitVec.msb_eq_getLsbD_last buf[2]).symm.trans (BitVec.msb_eq_decide _)

namespace Machine

variable {s : State}

/-- DECODE writes the phase, so it does not matter which phase it starts from. -/
theorem decodeStep_goto (s : State) (p : Phase) : decodeStep (s.goto p) = decodeStep s := rfl

/-- DECODE_READING is the one step DECODE (47_reading_decoder R180). -/
theorem exec_decodeReading (noReset : s.rstAsserted = false) :
    exec .decodeReading s = .next (decodeStep s) := by
  have meaning : exec .decodeReading s = .next (runOp (inPhase .decode) (s.goto .decode)) := rfl
  have leaves : (phaseStep (some .decode) (s.goto .decode)).phase ≠ Phase.decode.code := by
    simp [phaseStep, decodeStep]
  rw [meaning, runOp_goto_inPhase noReset leaves, phaseStep, decodeStep_goto]

/-- Settles O32: the step by the numbers it latches, and the operation, which is that step. -/
theorem decodeLatchesReading : Obligations.DecodeLatchesReading :=
  fun s => ⟨decodeStep s, rfl, rfl, toNat_humidityOf s.buf, toNat_tempMagOf s.buf,
    tempNegOf_eq_decide s.buf, exec_decodeReading⟩

end Machine

end Sys2Proof
end

section
/-! PROOFS. The command port (48_commands): what the step IDLE does with what is presented, that a busy block
does not look at it, and INIT, phase by phase and run to its end. -/

namespace Sys2Proof.Machine

variable {s u : State} {r : Inputs} {rest : List Inputs} {pin : Pin} {p : Phase}

/-! ### The step IDLE -/

/-- The command presented is the record's. -/
theorem State.presented_cons (hi : s.inputs = r :: rest) :
    s.presented = if r.cmdValid then some (decodeCmd r.cmdOp r.cmdPin) else none := by
  simp [State.presented, hi]

theorem idleStep_of_init (h : s.presented = some (.init pin)) : idleStep s = (s.acceptInit pin).tick := by
  simp [idleStep, h]

theorem idleStep_of_read (h : s.presented = some (.read pin)) : idleStep s = (s.acceptRead pin).tick := by
  simp [idleStep, h]

theorem idleStep_of_nothing (h : ∀ pin, s.presented ≠ some (.init pin) ∧ s.presented ≠ some (.read pin)) :
    idleStep s = s.tick := by
  obtain ⟨pin, init, -⟩ | ⟨pin, read, -⟩ | ⟨-, stays⟩ := idleStep_cases s
  · exact absurd init (h pin).1
  · exact absurd read (h pin).2
  · exact stays

/-- Settles O7: the decoder reads INIT and READ from their codes and nothing that is accepted from the others. -/
theorem idleAcceptsCommands : Obligations.IdleAcceptsCommands := by
  intro s r rest hi
  have presented := State.presented_cons hi
  refine ⟨fun valid code => ?_, fun valid code => ?_, fun nothing => ?_⟩
  · rw [valid, code] at presented
    exact congrArg _ ((idleStep_of_init presented).trans
      (State.tick_of_cons (s := s.acceptInit r.cmdPin) hi))
  · rw [valid, code] at presented
    exact congrArg _ ((idleStep_of_read presented).trans
      (State.tick_of_cons (s := s.acceptRead r.cmdPin) hi))
  · refine congrArg _ ((idleStep_of_nothing fun pin => ?_).trans (State.tick_of_cons hi))
    obtain invalid | nop | reserved := nothing
    · simp [presented, invalid]
    · simp [presented, nop, decodeCmd]
    · simp [presented, reserved, decodeCmd]

/-- Settles O8: the meaning of both rows is the state as it is. -/
theorem nopAndReservedChangeNothing : Obligations.NopAndReservedChangeNothing :=
  fun _ => ⟨rfl, rfl⟩

/-- Settles O54: a step that accepts INIT or READ leaves the block busy, and any other step IDLE takes its port
record and nothing else. -/
theorem resultStaysUntilNextCommand : Obligations.ResultStaysUntilNextCommand := by
  intro s t free hr h free'
  rw [step_eq_seqStep, seqStep_of_not_busy free hr, Host.Outcome.next.injEq] at h
  subst h
  obtain ⟨pin, -, accepted⟩ | ⟨pin, -, accepted⟩ | ⟨-, stays⟩ := idleStep_cases s
  · rw [accepted] at free'; cases free'
  · rw [accepted] at free'; cases free'
  · rw [stays]; exact ⟨rfl, rfl, rfl⟩

/-! ### The command port of a busy block -/

/-- `u` is `s` but for what the command port shows in this step. -/
structure State.SameButCommand (s u : State) : Prop where
  tick : u.tick = s.tick
  rst : u.rstAsserted = s.rstAsserted
  gpio : u.gpioAnswer = s.gpioAnswer
  sample : u.sampleAnswer = s.sampleAnswer
  now : u.nowAnswer = s.nowAnswer
  delay : u.delayAnswer = s.delayAnswer

namespace State.SameButCommand

theorem of_cons (hi : s.inputs = r :: rest) (valid : Bool) (code : BitVec 2) (pin : Pin) : s.SameButCommand
    { s with inputs := { r with cmdValid := valid, cmdOp := code, cmdPin := pin } :: rest } where
  tick := by simp [State.tick, hi]
  rst := by simp [State.rstAsserted, hi]
  gpio := by simp [State.gpioAnswer, hi]
  sample := by simp [State.sampleAnswer, hi]
  now := by simp [State.nowAnswer, hi]
  delay := by simp [State.delayAnswer, hi]

variable (same : s.SameButCommand u)
include same

theorem record_tick (e : Event) : (u.record e).tick = (s.record e).tick :=
  congrArg (·.record e) same.tick

theorem pin_eq : u.pin = s.pin := by simpa using congrArg State.pin same.tick

theorem phase_eq : u.phase = s.phase := by simpa using congrArg State.phase same.tick

theorem setDir_eq (d : Dir) : u.setDir d = s.setDir d := by
  simp only [State.setDir, same.gpio, same.tick, same.pin_eq, same.record_tick]

theorem setLevel_eq (l : Level) : u.setLevel l = s.setLevel l := by
  simp only [State.setLevel, same.gpio, same.tick, same.pin_eq, same.record_tick]

theorem sample_eq : State.sample u = State.sample s := by
  simp only [State.sample, same.sample, same.tick, same.pin_eq, same.record_tick]

theorem now_eq : State.now u = State.now s := by
  simp only [State.now, same.now, same.tick, same.record_tick]

theorem delayStep_eq (d : Nat) (after : State → State) : delayStep u d after = delayStep s d after := by
  simp only [delayStep, same.delay, same.tick, same.record_tick]

/-- Only the step IDLE looks at the command port. -/
theorem phaseStep_eq (notIdle : p ≠ .idle) : phaseStep (some p) u = phaseStep (some p) s := by
  cases p with
  | idle => exact absurd rfl notIdle
  | initDir | rqDirOut | rqDirIn =>
    simp only [phaseStep, initDirStep, rqDirOutStep, rqDirInStep, same.setDir_eq]
  | initLvl | rqLow | rqHigh =>
    simp only [phaseStep, initLvlStep, rqLowStep, rqHighStep, same.setLevel_eq]
  | rqDlyLow | rqDlyHigh | faSettle =>
    simp only [phaseStep, rqDlyLowStep, rqDlyHighStep, faSettleStep, same.delayStep_eq]
  | ewEntry => simp only [phaseStep, ewEntryStep, same.now_eq]
  | ewPoll => simp only [phaseStep, ewPollStep, same.sample_eq]
  | bitStore => exact congrArg (fun v => (v.orBit (bitValue v.ewElapsed)).goto .faSettle) same.tick
  | check =>
    have latched : { u with rdChecksum := u.buf[4] }.tick = { s with rdChecksum := s.buf[4] }.tick :=
      congrArg (fun v => { v with rdChecksum := v.buf[4] }) same.tick
    simp only [phaseStep, checkStep, latched]
  | decode => exact congrArg (fun v => v.latchReading.finish .ok) same.tick

theorem seqStep_eq (busy : s.busy = true) : seqStep u = seqStep s := by
  cases hr : s.rstAsserted with
  | true =>
    rw [seqStep_of_rst hr, seqStep_of_rst (same.rst.trans hr)]
    exact congrArg (fun v => { State.reset with inputs := v.inputs, trace := v.trace }) same.tick
  | false =>
    obtain ⟨p, hp⟩ | hp := Phase.code_cases s.phase
    · rw [seqStep_of_phase hp hr, seqStep_of_phase (same.phase_eq.trans hp) (same.rst.trans hr)]
      exact same.phaseStep_eq ((State.busy_iff hp).1 busy)
    · simp [State.busy, hp, Phase.ofCode] at busy

end State.SameButCommand

/-- A command presented to a busy block is not accepted (48_commands R200). -/
theorem runCommand_of_busy (busy : s.busy = true) (code : BitVec 2) (pin : Pin) :
    runCommand code pin s = s :=
  if_pos busy

/-- Settles O10: the steps of a command do not look at the command port, and INIT and READ ask for a free
block. -/
theorem busyIgnoresCommands : Obligations.BusyIgnoresCommands := by
  refine fun s busy => ⟨by simp [State.cmdReady, busy], fun r rest valid code pin hi => ?_,
    fun pin => ⟨congrArg _ (runCommand_of_busy busy _ pin), congrArg _ (runCommand_of_busy busy _ pin)⟩⟩
  rw [step_eq_seqStep, step_eq_seqStep,
    (State.SameButCommand.of_cons hi valid code pin).seqStep_eq busy]

/-! ### INIT -/

theorem initDir_gpioPhase : GpioPhase .initDir (fun pin a => .setDir pin .output a)
    (fun t => { t with phase := Phase.initLvl.code }) := gpioPhase_setDir fun _ => rfl

theorem initLvl_gpioPhase : GpioPhase .initLvl (fun pin a => .setLvl pin .high a) (ended .ok) :=
  gpioPhase_setLevel fun _ => rfl

/-- Settles O11: one phase sets the direction and one the level. -/
theorem initPhases : Obligations.InitPhases := ⟨initDir_gpioPhase, initLvl_gpioPhase⟩

/-- INIT on a free block is its acceptance and the run of the busy block (48_commands R190, R197). -/
theorem exec_init (free : s.busy = false) (hr : s.rstAsserted = false) (pin : Pin) :
    exec (.init pin) s = .next (runOp State.busy (s.acceptInit pin).tick) := by
  have accepted : seqStep (s.present 0b01#2 pin) = (s.acceptInit pin).tick :=
    seqStep_of_not_busy free ((s.present_rstAsserted _ _).trans hr)
  simp only [exec, execInit, runCommand, free, accepted, Bool.false_eq_true, if_false]

/-- INIT up to the answer to its `SetDir` (48_commands R194). -/
theorem exec_init_dir {dir : List Inputs} (free : s.busy = false) (hi : s.inputs = r :: (dir ++ rest))
    (noReset : r.rst = false) (pin : Pin) :
    (GpioOk dir → exec (.init pin) s = .next (runOp State.busy { s with
      pin := pin, done := false, phase := Phase.initLvl.code, inputs := rest,
      trace := s.trace ++ [.cmd .init pin, .setDir pin .output .ok] })) ∧
    (GpioFail dir → exec (.init pin) s = .next (ended .gpioError { s with
      pin := pin, inputs := rest, trace := s.trace ++ [.cmd .init pin, .setDir pin .output .fail] })) := by
  obtain ⟨ok, fail⟩ := initDir_gpioPhase.run (p := .initDir) (s := (s.acceptInit pin).tick) (rs := dir)
    (rest := rest) (fun _ => id) (fun u hp => busy_of_inPhase (by decide) (inPhase_iff.2 hp)) rfl
    (by simp [hi])
  rw [exec_init free ((State.rstAsserted_cons hi).trans noReset)]
  constructor
  · intro answered
    rw [ok answered]
    simp [State.acceptInit, State.tick]
  · intro failed
    rw [fail failed, runOp_stop (not_busy_of_idle _ rfl)]
    simp [ended, State.acceptInit, State.tick]

/-- INIT from its `SetLevel` on (48_commands R195). -/
theorem runOp_initLvl {lvl : List Inputs} (hp : s.phase = Phase.initLvl.code) (hi : s.inputs = lvl ++ rest) :
    (GpioOk lvl → runOp State.busy s = ended .ok { s with
      inputs := rest, trace := s.trace ++ [.setLvl s.pin .high .ok] }) ∧
    (GpioFail lvl → runOp State.busy s = ended .gpioError { s with
      inputs := rest, trace := s.trace ++ [.setLvl s.pin .high .fail] }) := by
  obtain ⟨ok, fail⟩ := initLvl_gpioPhase.run (p := .initLvl) (fun _ => id)
    (fun u hp => busy_of_inPhase (by decide) (inPhase_iff.2 hp)) hp hi
  exact ⟨fun answered => (ok answered).trans (runOp_stop (not_busy_of_idle _ rfl)),
    fun failed => (fail failed).trans (runOp_stop (not_busy_of_idle _ rfl))⟩

/-- Settles O12: INIT fails at its `SetDir`, or comes past it to its `SetLevel`, which ends it either way. -/
theorem initRun : Obligations.InitRun := by
  intro s pin r0 dir lvl rest free noReset
  refine ⟨fun hi dirOk lvlOk => ?_, fun hi dirFails => ?_, fun hi dirOk lvlFails => ?_⟩
  · rw [(exec_init_dir free (rest := lvl ++ rest) (by simp [hi]) noReset pin).1 dirOk,
      (runOp_initLvl rfl rfl).1 lvlOk]
    simp [ended]
  · exact (exec_init_dir free hi noReset pin).2 dirFails
  · rw [(exec_init_dir free (rest := lvl ++ rest) (by simp [hi]) noReset pin).1 dirOk,
      (runOp_initLvl rfl rfl).2 lvlFails]
    simp [ended]

end Sys2Proof.Machine
end

section
/-! PROOFS. How a command ends: that every step has a next state (60_exceptions R230) on an arrow of the control
graph (48_commands R203), what `finish` writes (R196), which step ends a command and why (60_exceptions R211 to
R213), and what the reading holds then (R218). -/

namespace Sys2Proof.Machine

variable {s t : State} {p : Phase}

/-! ### Every step -/

/-- Settles O45: the machine's step is the sequencer's, which is total. -/
theorem noStepFaults : Obligations.NoStepFaults :=
  fun s => ⟨seqStep s, step_eq_seqStep s⟩

/-- Settles O40: each row is `finish` with its status. -/
theorem finishWritesOnlyTheOutcome : Obligations.FinishWritesOnlyTheOutcome := by
  intro i st row s
  simp only [List.mem_cons, List.not_mem_nil, or_false, Prod.mk.injEq] at row
  obtain ⟨rfl, rfl⟩ | ⟨rfl, rfl⟩ | ⟨rfl, rfl⟩ | ⟨rfl, rfl⟩ := row <;> rfl

/-! ### The control graph -/

/-- A phase whose transaction can fail has the arrow to IDLE. -/
theorem idle_mem_arrowsFrom (asks : (dirOf p).isSome ∨ (levelOf p).isSome) : Phase.idle ∈ arrowsFrom p := by
  cases p <;> simp [dirOf, levelOf, arrowsFrom] at asks ⊢

/-- A phase that requests a transaction may stay where it is. -/
theorem mem_arrowsFrom_of_unanswered (held : unanswered p s) : p ∈ arrowsFrom p := by
  cases p with
  | idle | bitStore | check | decode => exact held.elim
  | _ => simp [arrowsFrom]

/-- Each case of a step follows an arrow of the graph. -/
theorem StepCase.follows_arrow (hp : s.phase = p.code) (c : StepCase s p t) :
    ∃ q ∈ arrowsFrom p, t.phase = q.code := by
  cases c with
  | held held => exact ⟨p, mem_arrowsFrom_of_unanswered held, hp⟩
  | stayIdle | pollAgain => exact ⟨_, by simp [arrowsFrom], hp⟩
  | dirFail asks => exact ⟨.idle, idle_mem_arrowsFrom (.inl (by simp [asks])), rfl⟩
  | levelFail asks => exact ⟨.idle, idle_mem_arrowsFrom (.inr (by simp [asks])), rfl⟩
  | initLvlOk | waitTimeout | checkFail | decoded => exact ⟨.idle, by simp [arrowsFrom], rfl⟩
  | acceptInit => exact ⟨.initDir, by simp [arrowsFrom], rfl⟩
  | acceptRead => exact ⟨.rqDirOut, by simp [arrowsFrom], rfl⟩
  | stored => exact ⟨.faSettle, by simp [arrowsFrom], rfl⟩
  | rqDirInOk | hsRiseOk | hsFallOk | bitRiseOk | nextBit | nextByte =>
    exact ⟨.ewEntry, by simp [arrowsFrom], rfl⟩
  | initDirOk | rqDirOutOk | rqLowOk | rqDlyLowOver | rqHighOk | rqDlyHighOver | stamped | bitFallOk
  | frameComplete | checkPass => exact ⟨_, by simp [arrowsFrom], State.goto_phase _ _⟩

/-- Settles O46: case by case of the step. -/
theorem controlGraph : Obligations.ControlGraph :=
  fun _ _ _ hr hp h => (step_case hr hp h).follows_arrow hp

/-! ### The ending of a command -/

/-- A phase whose transaction can fail is one of the six GPIO phases (60_exceptions R211). -/
theorem mem_gpioPhases (asks : (dirOf p).isSome ∨ (levelOf p).isSome) :
    p ∈ [Phase.initDir, .initLvl, .rqDirOut, .rqLow, .rqHigh, .rqDirIn] := by
  cases p <;> simp [dirOf, levelOf] at asks ⊢

/-- How a step of a command can end it. -/
inductive Ending (s : State) : Phase → State → Prop
  | gpioError {p : Phase} (e : Event) (asks : (dirOf p).isSome ∨ (levelOf p).isSome)
      (fail : s.gpioAnswer = some .fail) : Ending s p ((s.record e).tick.finish .gpioError)
  | timeout (l : Level) (u : Nat) (answer : s.sampleAnswer = some (l, u)) (miss : l ≠ s.site.target)
      (late : s.site.bound ≤ elapsedSince s.ewT0 u) : Ending s .ewPoll ((s.polled l u).finish .timeout)
  | badChecksum (invalid : checksumValid s.buf = false) :
      Ending s .check ({ s with rdChecksum := s.buf[4] }.tick.finish .badChecksum)
  | initOk (ok : s.gpioAnswer = some .ok) :
      Ending s .initLvl ((s.record (.setLvl s.pin .high .ok)).tick.finish .ok)
  | readOk : Ending s .decode (s.latchReading.finish .ok).tick

/-- A step of a command that leads to IDLE ends it in one of these ways. -/
theorem StepCase.ending (hp : s.phase = p.code) (c : StepCase s p t) (notIdle : p ≠ .idle)
    (ended : t.phase = Phase.idle.code) : Ending s p t := by
  cases c with
  | acceptInit | acceptRead | stayIdle => exact absurd rfl notIdle
  | held | pollAgain => exact absurd (Phase.code_inj.1 (hp.symm.trans ended)) notIdle
  | dirFail asks fail => exact .gpioError _ (.inl (by simp [asks])) fail
  | levelFail asks fail => exact .gpioError _ (.inr (by simp [asks])) fail
  | waitTimeout l u answer miss late => exact .timeout l u answer miss late
  | checkFail invalid => exact .badChecksum invalid
  | initLvlOk ok => exact .initOk ok
  | decoded => exact .readOk
  | _ => simp at ended

/-- Settles O48: each way to end a command has its own phase, status and cause. -/
theorem statusCauses : Obligations.StatusCauses := by
  intro s t p hr hp notIdle h ended
  obtain ⟨e, asks, fail⟩ | ⟨l, u, answer, miss, late⟩ | ⟨invalid⟩ | ⟨ok⟩ | _ :=
    (step_case hr hp h).ending hp notIdle ended
  · exact ⟨mem_gpioPhases asks, fail⟩
  · exact ⟨rfl, l, u, answer, miss, late⟩
  · exact ⟨rfl, mt checksumValid_iff_toNat.2 (by simp [invalid])⟩
  · exact .inl ⟨rfl, ok⟩
  · exact .inr rfl

/-- In the phases of the request no bit has been stored. -/
theorem State.Inv.buf_zero (inv : s.Inv) (hp : s.phase = p.code) (inRead : s.inRead = true)
    (asks : (dirOf p).isSome ∨ (levelOf p).isSome) : s.buf = #v[0#8, 0#8, 0#8, 0#8, 0#8] := by
  have empty : s.bitsStored = 0 := by
    unfold State.bitsStored
    rw [hp, Phase.ofCode_code]
    cases p <;> simp [dirOf, levelOf] at asks ⊢
  exact eq_of_frameBit_eq fun n =>
    (inv.unstored_zero inRead n (by omega)).trans (frameBit_zero n).symm

/-- Settles O53: what the invariant says of a READ that is running, and the writes of the step that ends it. -/
theorem resultTable : Obligations.ResultTable := by
  intro s t inv inRead hr h ended
  obtain ⟨p, hp⟩ := (Phase.code_cases s.phase).resolve_right inv.phase_legal
  have ofRead := (State.inRead_iff hp).1 inRead
  have notIdle : p ≠ .idle := by rintro rfl; simp at ofRead
  obtain ⟨humidity, neg, mag⟩ := inv.reading_zero inRead
  obtain ⟨e, asks, -⟩ | ⟨l, u, -, -, -⟩ | ⟨invalid⟩ | _ | _ := (step_case hr hp h).ending hp notIdle ended
  · have notDecode : p ≠ .decode := by rintro rfl; simp [dirOf, levelOf] at asks
    have checksum := inv.checksum_zero inRead (by simpa [hp] using notDecode)
    exact ⟨rfl, rfl, checksum, humidity, mag, neg, inv.buf_zero hp inRead asks⟩
  · have checksum := inv.checksum_zero inRead (by simp [hp])
    exact ⟨rfl, rfl, checksum, humidity, mag, neg, inv.unstored_zero inRead⟩
  · exact ⟨rfl, rfl, invalid, rfl, humidity, mag, neg⟩
  · simp at ofRead
  · obtain ⟨valid, checksum⟩ := inv.decode_checked hp
    exact ⟨rfl, rfl, valid, checksum, toNat_humidityOf s.buf, toNat_tempMagOf s.buf,
      tempNegOf_eq_decide s.buf⟩

end Sys2Proof.Machine
end

section
/-! PROOFS. READ of a frame that arrives whole (48_commands R191): it comes to CHECK with the frame, and CHECK
and DECODE end it. -/

namespace Sys2Proof.Machine

/-- Settles O35: CHECK with the wrong fifth byte ends the command, and with the right one DECODE does. -/
theorem readOfACompleteFrame : Obligations.ReadOfACompleteFrame := by
  intro s pin r0 chk req hs bits rest tHighs free hi noReset request handshake read full chkReset f sum
  obtain ⟨u, run, ⟨regs, -, inputs⟩, checking, site, byteIdx, bitIdx, buf⟩ :=
    exec_read_of_frame free (rest := chk :: rest) (by simp [hi]) noReset request handshake read full pin
  simp only [State.heldRegs, Prod.mk.injEq] at regs
  obtain ⟨hpin, -, -, humidity, neg, mag, -⟩ := regs
  have valid_iff : checksumValid u.buf = true ↔ f[4].toNat = sum := buf ▸ checksumValid_iff_toNat
  constructor
  · rintro dec later rfl decReset right
    rw [runOp_busy_of_checksumValid checking inputs chkReset decReset (valid_iff.2 right)] at run
    refine ⟨_, run, rfl, rfl, rfl, hpin, buf, ?_, ?_, ?_, ?_, byteIdx, bitIdx, site, by simp [inputs]⟩
    · exact buf ▸ toNat_humidityOf u.buf
    · exact buf ▸ toNat_tempMagOf u.buf
    · exact buf ▸ tempNegOf_eq_decide u.buf
    · exact congrArg (·[4]) buf
  · intro wrong
    rw [runOp_busy_of_badChecksum checking ((State.rstAsserted_cons inputs).trans chkReset)
      (Bool.eq_false_iff.2 (mt valid_iff.1 wrong))] at run
    exact ⟨_, run, rfl, rfl, rfl, hpin, buf, humidity, mag, neg, congrArg (·[4]) buf, byteIdx, bitIdx, site,
      by simp [inputs]⟩

end Sys2Proof.Machine
end

section
/-! PROOFS. Reset and the clock's hazards (70_reset_and_hazards): the reset held (R240), a poll on a clock that
has run backwards (R249), and the settle delay between two bits (R251). -/

namespace Sys2Proof.Machine

variable {env : Environment} {s : State} {k n : Nat}

/-! ### Reset -/

/-- Settles O5: the step writes the reset state but for the model's own fields, the request ports look at `rst`
first, and the block it leaves is free. -/
theorem resetInputHoldsResetState : Obligations.ResetInputHoldsResetState := by
  intro s hr
  have noGpio : s.gpioRequest = none := if_pos hr
  have noDelay : s.delayRequest = none := if_pos hr
  have idle : s.resetByPort.rstAsserted = false → step s.resetByPort = exec .idle s.resetByPort :=
    fun fallen => stepRunsThePhase _ .idle fallen rfl
  exact ⟨s.resetByPort, by rw [step_eq_seqStep, seqStep_of_rst hr], rfl, rfl, rfl, rfl, rfl, rfl, rfl, rfl,
    rfl, rfl, rfl, rfl, rfl, noGpio, noDelay, idle⟩

/-! ### A clock that has run backwards -/

/-- Settles O18: the poll is judged with the free value (log 4) as its elapsed time. -/
theorem backwardClockPollGoesOn : Obligations.BackwardClockPollGoesOn := by
  intro w target bound operands s r rest hi hw acked _
  obtain ⟨rfl, rfl⟩ := target_bound_of_mem_waitOperands operands
  subst hw
  exact ⟨_, pollOutcome_elapsedSince hi acked⟩

/-! ### The settle delay -/

theorem atStep_succ_of_bitStore (hp : (s.atStep env n).phase = Phase.bitStore.code) (hr : (env n).rst = false) :
    (s.atStep env (n + 1)).phase = Phase.faSettle.code := by
  rw [State.atStep, seqStep_of_phase hp (by rw [atStep_rst, hr])]
  rfl

/-- FA_SETTLE holds its request until the delay is over (45_frame_assembler R163). -/
theorem atStep_succ_of_faSettle (hp : (s.atStep env n).phase = Phase.faSettle.code) (hr : (env n).rst = false)
    (held : (env n).dAck = false) : (s.atStep env (n + 1)).phase = Phase.faSettle.code := by
  have waits : unanswered .faSettle (s.atStep env n) :=
    (State.delayAnswer_cons (atStep_inputs env s n)).trans held
  rw [State.atStep, seqStep_of_phase hp (by rw [atStep_rst, hr]), phaseStep_of_unanswered waits]
  exact hp

/-- From FA_SETTLE on the block stays there or has come to the end of the delay. -/
theorem settling_or_settled (start : (s.atStep env n).phase = Phase.faSettle.code) (le : n ≤ k)
    (noReset : ∀ j, n ≤ j → j < k → (env j).rst = false) :
    (s.atStep env k).phase = Phase.faSettle.code ∨
    ∃ j, n ≤ j ∧ j < k ∧ (s.atStep env j).phase = Phase.faSettle.code ∧ (env j).dAck = true := by
  induction k, le using Nat.le_induction with
  | base => exact .inl start
  | succ k le ih =>
    obtain settling | ⟨j, from_n, before, settled⟩ := ih fun j hn hk => noReset j hn (by omega)
    · cases acked : (env k).dAck with
      | true => exact .inr ⟨k, le, k.lt_succ_self, settling, acked⟩
      | false => exact .inl (atStep_succ_of_faSettle settling (noReset k le k.lt_succ_self) acked)
    · exact .inr ⟨j, from_n, by omega, settled⟩

theorem delayRequest_of_faSettle (hp : (s.atStep env n).phase = Phase.faSettle.code)
    (hr : (env n).rst = false) : (s.atStep env n).delayRequest = some 10 := by
  simp [State.delayRequest, atStep_rst, hr, hp, CFG]

/-- Settles O60: no time is returned in BIT_STORE and in FA_SETTLE, so the settle delay has ended between the two
times, and P4 speaks of it. -/
theorem settleSeparatesBits : Obligations.SettleSeparatesBits := by
  intro env s delays n k t u poll returned store before noReset between returned'
  have silent : ∀ {p : Phase}, p ≠ .ewEntry → p ≠ .ewPoll → (s.atStep env k).phase ≠ p.code :=
    fun notEntry notPoll hp => by simp [timeReturned_none hp notEntry notPoll] at returned'
  have notStore : k ≠ n + 1 := by
    rintro rfl
    exact silent (p := .bitStore) (by decide) (by decide) store
  have settling := atStep_succ_of_bitStore store (noReset (n + 1) (by omega) (by omega))
  obtain settling | ⟨j, from_n, to_k, settling, acked⟩ :=
    settling_or_settled settling (by omega : n + 1 + 1 ≤ k) fun j hn hk => noReset j (by omega) hk
  · exact absurd settling (silent (p := .faSettle) (by decide) (by decide))
  · exact delays n j k 10 t u (delayRequest_of_faSettle settling (noReset j (by omega) to_k)) acked
      (by omega) to_k returned returned' between

end Sys2Proof.Machine
end

section
/-! PROOFS. Every command ends (60_exceptions R221): a step that does not bring a command nearer its end leaves
it where it is, under P2 and P3 no phase does that for ever, and the steps left are finitely many. -/

namespace Sys2Proof.Machine

variable {env : Environment} {s : State} {p : Phase} {m n : Nat} {op : Command} {pin : Pin}

/-! ### A phase that does not go on -/

/-- From step `n` on no step leaves phase `p`: each holds its request, or polls with neither level nor bound. -/
def StuckFrom (env : Environment) (s : State) (p : Phase) (n : Nat) : Prop :=
  ∀ m, n ≤ m → (s.atStep env m).phase = p.code ∧ Stuck p (s.atStep env m) (s.atStep env (m + 1))

/-- P3 for the GPIO request: where nobody resets, it is answered. -/
theorem CollaboratorsAnswer.gAck (answers : CollaboratorsAnswer env s) (noReset : ∀ n, (env n).rst = false)
    (asks : (s.atStep env n).gpioRequest ≠ none) : ∃ m, n ≤ m ∧ (env m).gAck = true := by
  obtain ⟨m, le, acked⟩ := (answers n).1 asks
  exact ⟨m, le, acked.resolve_right (by simp [noReset m])⟩

/-- P3 for the delay request. -/
theorem CollaboratorsAnswer.dAck (answers : CollaboratorsAnswer env s) (noReset : ∀ n, (env n).rst = false)
    (asks : (s.atStep env n).delayRequest ≠ none) : ∃ m, n ≤ m ∧ (env m).dAck = true := by
  obtain ⟨m, le, acked⟩ := (answers n).2 asks
  exact ⟨m, le, acked.resolve_right (by simp [noReset m])⟩

namespace StuckFrom

variable (stuck : StuckFrom env s p n)
include stuck

/-- Only EW_POLL can be stuck with its request answered. -/
theorem holds (notPoll : p ≠ .ewPoll) (le : n ≤ m) : unanswered p (s.atStep env m) := by
  obtain ⟨-, -, -, -, -, held | ⟨poll, -⟩⟩ := stuck m le
  · exact held
  · exact absurd poll notPoll

/-- A GPIO phase is answered. -/
theorem not_gpio (answers : CollaboratorsAnswer env s) (noReset : ∀ n, (env n).rst = false)
    (notPoll : p ≠ .ewPoll) (asks : (s.atStep env n).gpioRequest ≠ none)
    (silent : ∀ u : State, unanswered p u → u.gpioAnswer = none) : False := by
  obtain ⟨m, le, acked⟩ := answers.gAck noReset asks
  have waits := silent _ (stuck.holds notPoll le)
  simp [State.gpioAnswer_cons (atStep_inputs env s m), acked] at waits

/-- A delay is over some time. -/
theorem not_delay (answers : CollaboratorsAnswer env s) (noReset : ∀ n, (env n).rst = false)
    (notPoll : p ≠ .ewPoll) (asks : (s.atStep env n).delayRequest ≠ none)
    (silent : ∀ u : State, unanswered p u → u.delayAnswer = false) : False := by
  obtain ⟨m, le, acked⟩ := answers.dAck noReset asks
  have waits := silent _ (stuck.holds notPoll le)
  simp [State.delayAnswer_cons (atStep_inputs env s m), acked] at waits

/-- A stuck poll stays at its site with its stamp. -/
theorem same_wait (le : n ≤ m) : (s.atStep env m).site = (s.atStep env n).site ∧
    (s.atStep env m).ewT0 = (s.atStep env n).ewT0 := by
  induction m, le using Nat.le_induction with
  | base => exact ⟨rfl, rfl⟩
  | succ m le ih =>
    obtain ⟨-, -, site, -, stamp, -⟩ := stuck m le
    exact ⟨site.trans ih.1, stamp.trans ih.2⟩

end StuckFrom

/-- An answered poll that is stuck has not reached the bound. -/
theorem StuckFrom.early {t : Nat} (stuck : StuckFrom env s .ewPoll n) (le : n ≤ m)
    (returned : (s.atStep env m).timeReturned = some t) :
    elapsedSince (s.atStep env n).ewT0 t < (s.atStep env n).site.bound := by
  obtain ⟨hp, -, -, -, -, held⟩ := stuck m le
  obtain ⟨site, stamp⟩ := stuck.same_wait le
  obtain ⟨l, answer⟩ := timeReturned_poll hp returned
  obtain held | ⟨-, l', u, answer', -, early⟩ := held
  · exact absurd held (by simp [unanswered, answer])
  · rw [answer, Option.some.injEq, Prod.mk.injEq] at answer'
    obtain ⟨-, rfl⟩ := answer'
    rwa [site, stamp] at early

/-- Under P3 some poll is answered, and under P2 a later one finds the bound reached. -/
theorem StuckFrom.not_poll (stuck : StuckFrom env s .ewPoll n) (noReset : ∀ n, (env n).rst = false)
    (progress : TimeProgress env s) (answers : CollaboratorsAnswer env s) : False := by
  have polls := fun m le => (stuck m le).1
  have asks : (s.atStep env n).gpioRequest ≠ none := by
    simp [State.gpioRequest, atStep_rst, noReset, polls n le_rfl]
  obtain ⟨m, le, acked⟩ := answers.gAck noReset asks
  have returned : (s.atStep env m).timeReturned = some (env m).timeUs := by
    simp [State.timeReturned, atStep_rst, noReset, polls m le,
      State.sampleAnswer_cons (atStep_inputs env s m), acked]
  obtain ⟨k, t, later, returned', passed⟩ | ⟨k, later, stopped⟩ :=
    progress m _ ((s.atStep env n).ewT0 + (s.atStep env n).site.bound) returned
  · have early := stuck.early (le.trans later.le) returned'
    rw [elapsedSince_of_le (by omega)] at early
    omega
  · have asking : (s.atStep env k).asksTime = true := by
      simp [State.asksTime, polls k (le.trans later.le)]
    simp [stopped k le_rfl] at asking

/-- No phase of a command is stuck for ever. -/
theorem not_stuckFrom (noReset : ∀ n, (env n).rst = false) (progress : TimeProgress env s)
    (answers : CollaboratorsAnswer env s) (notIdle : p ≠ .idle) : ¬ StuckFrom env s p n := by
  intro stuck
  obtain ⟨hp, -⟩ := stuck n le_rfl
  cases p with
  | idle => exact notIdle rfl
  | initDir | initLvl | rqDirOut | rqLow | rqHigh | rqDirIn =>
    exact stuck.not_gpio answers noReset (by decide)
      (by simp [State.gpioRequest, atStep_rst, noReset, hp]) fun _ => id
  | rqDlyLow | rqDlyHigh | faSettle =>
    exact stuck.not_delay answers noReset (by decide)
      (by simp [State.delayRequest, atStep_rst, noReset, hp]) fun _ => id
  | ewEntry =>
    have held : (s.atStep env n).nowAnswer = none := stuck.holds (by decide) le_rfl
    simp [State.nowAnswer_cons (atStep_inputs env s n)] at held
  | ewPoll => exact stuck.not_poll noReset progress answers
  | bitStore | check | decode => exact stuck.holds (by decide) le_rfl

/-! ### The end of a run -/

theorem RunEnds.of_later (ends : RunEnds env s m) (le : n ≤ m) : RunEnds env s n := by
  obtain ⟨k, t, later, facts⟩ := ends
  exact ⟨k, t, le.trans later, facts⟩

/-- A step of a busy block brings the command nearer its end, ends it, or is stuck in its phase. -/
theorem atStep_progress (hr : (env n).rst = false) (hp : (s.atStep env n).phase = p.code)
    (notIdle : p ≠ .idle) :
    ((s.atStep env (n + 1)).stepsLeft < (s.atStep env n).stepsLeft ∧ (s.atStep env (n + 1)).busy = true) ∨
    RunEnds env s n ∨ Stuck p (s.atStep env n) (s.atStep env (n + 1)) := by
  obtain ⟨t, c, stepped, next⟩ := atStep_case hr hp
  rw [next]
  obtain nearer | ended | stuck := c.progress hp notIdle
  · exact .inl nearer
  · exact .inr (.inl ⟨n, t, le_rfl, (State.busy_iff hp).2 notIdle, by rw [step_eq_seqStep, stepped], ended⟩)
  · exact .inr (.inr stuck)

/-- A run that does not end and comes no nearer its end is stuck where it stands. -/
theorem stuckFrom_of_not_nearer (noReset : ∀ n, (env n).rst = false)
    (hp : (s.atStep env n).phase = p.code) (notIdle : p ≠ .idle) (never : ¬ RunEnds env s n)
    (notNearer : ∀ m, n ≤ m → (s.atStep env m).busy = true →
      (s.atStep env n).stepsLeft ≤ (s.atStep env m).stepsLeft) : StuckFrom env s p n := by
  have steps : ∀ m, n ≤ m → (s.atStep env m).phase = p.code →
      (s.atStep env m).stepsLeft = (s.atStep env n).stepsLeft →
      Stuck p (s.atStep env m) (s.atStep env (m + 1)) := by
    intro m le here same
    obtain ⟨nearer, busy⟩ | ends | stuck := atStep_progress (noReset m) here notIdle
    · have := notNearer (m + 1) (by omega) busy
      omega
    · exact absurd (ends.of_later le) never
    · exact stuck
  have stays : ∀ m, n ≤ m → (s.atStep env m).phase = p.code ∧
      (s.atStep env m).stepsLeft = (s.atStep env n).stepsLeft := by
    intro m le
    induction m, le using Nat.le_induction with
    | base => exact ⟨hp, rfl⟩
    | succ m le ih =>
      obtain ⟨phase, -, left, -⟩ := steps m le ih.1 ih.2
      exact ⟨phase, left.trans ih.2⟩
  exact fun m le => ⟨(stays m le).1, steps m le (stays m le).1 (stays m le).2⟩

/-- Under P2 and P3 the run of a busy block ends: by induction on the steps left. -/
theorem runEnds_of_busy (noReset : ∀ n, (env n).rst = false) (progress : TimeProgress env s)
    (answers : CollaboratorsAnswer env s) (busy : (s.atStep env n).busy = true) : RunEnds env s n := by
  induction left : (s.atStep env n).stepsLeft using Nat.strong_induction_on generalizing n with
  | _ left' ih =>
    subst left
    by_contra never
    obtain ⟨p, hp⟩ | reserved := Phase.code_cases (s.atStep env n).phase
    · have notIdle := (State.busy_iff hp).1 busy
      refine not_stuckFrom noReset progress answers notIdle
        (stuckFrom_of_not_nearer noReset hp notIdle never fun m le busy' => ?_)
      by_contra nearer
      exact never ((ih _ (by omega) busy' rfl).of_later le)
    · simp [State.busy, reserved, Phase.ofCode] at busy

/-! ### A command that is issued -/

/-- A command that is issued to the step IDLE is accepted in it (48_commands R190). -/
theorem idleStep_of_issued (h : s.issued = some (op, pin)) :
    (idleStep s).trace = s.trace ++ [.cmd op pin] ∧ (idleStep s).pin = pin ∧ (idleStep s).busy = true := by
  obtain ⟨pin', init, accepted⟩ | ⟨pin', read, accepted⟩ | ⟨nothing, -⟩ := idleStep_cases s
  · simp only [State.issued, init, Option.some.injEq, Prod.mk.injEq] at h
    obtain ⟨rfl, rfl⟩ := h
    exact accepted ▸ ⟨rfl, rfl, rfl⟩
  · simp only [State.issued, read, Option.some.injEq, Prod.mk.injEq] at h
    obtain ⟨rfl, rfl⟩ := h
    exact accepted ▸ ⟨rfl, rfl, rfl⟩
  · unfold State.issued at h
    split at h
    case h_1 init => exact absurd init (nothing _).1
    case h_2 read => exact absurd read (nothing _).2
    case h_3 => cases h

/-- Settles O58: a busy block's run ends, and under P5 a command finds the block free, which accepts it. -/
theorem everyCommandEnds : Obligations.EveryCommandEnds := by
  intro env s noReset progress answers
  refine ⟨fun n => runEnds_of_busy noReset progress answers, fun serialised n op pin issued => ?_⟩
  have free : (s.atStep env n).busy = false := by
    by_contra busy
    simp [serialised n (by simpa using busy)] at issued
  have stepped : seqStep (s.atStep env n) = idleStep (s.atStep env n) :=
    seqStep_of_not_busy free (by rw [atStep_rst, noReset])
  obtain ⟨trace, latched, busy⟩ : (s.atStep env (n + 1)).trace = (s.atStep env n).trace ++ [.cmd op pin] ∧
      (s.atStep env (n + 1)).pin = pin ∧ (s.atStep env (n + 1)).busy = true := by
    rw [State.atStep, stepped]
    exact idleStep_of_issued issued
  exact ⟨trace, latched, busy, runEnds_of_busy noReset progress answers busy⟩

end Sys2Proof.Machine
end
